-- ==== Sys2Proof/Config.lean ====
section
/-! DEFINITION. What this hardware fixes (00_scope.md R8, R9) and the one value the spec leaves to the
machine when no input supplies it (the primality draw of 00_scope.md R12, R18). -/

namespace Sys2Proof.Config

/-- `NBITS`, the width of every field, coordinate, scalar and coefficient register (00_scope.md R8). -/
abbrev nbits : Nat := 256

/-- `NW = NBITS / 32`, the number of 32-bit bus words of an NBITS-bit register (00_scope.md R8). -/
abbrev nw : Nat := nbits / 32

/-- `MR_DRAW` (00_scope.md R12, R18; 40_control.md R132): whether the Miller–Rabin test accepts a composite
candidate, for an engine step that no turn of the schedule supplied with a draw. It has no body, so nothing
can be proved of its value; the argument counts such steps, so each has a draw of its own.
DESIGN CHOICE: notes/assumptions/2. -/
opaque mrDraw : Nat → Bool

end Sys2Proof.Config
end

