-- ==== Sys2Proof/Word.lean ====
section
/-! DEFINITION. The words of the block: register values and bus words. -/

namespace Sys2Proof

/-- An NBITS-bit register value (00_scope.md R8). Every register value is unsigned (R13). -/
abbrev Word := BitVec Config.nbits

/-- A modulus or reduction polynomial of CFG_MOD and PMOD: NBITS+1 bits, so that a polynomial of degree
NBITS fits (10_state.md R43, R45). -/
abbrev WideWord := BitVec (Config.nbits + 1)

/-- One 32-bit word on the bus; also a command word (20_memory.md R72, 30_encoding.md R100). -/
abbrev BusWord := BitVec 32

/-- An offset into the 64 KiB register window (20_memory.md R70). -/
abbrev Offset := BitVec 16

end Sys2Proof
end

