-- ==== Sys2Proof/Syntax.lean ====
section
/-! DEFINITION. The command set: one constructor for each row of spec/opcode_table.json (30_encoding.md R104).
A register operand is a number of exactly one file, fixed by the command's format (10_state.md R34), so the
type of each operand is the index type of its file and no command can name a register that does not exist. -/

namespace Sys2Proof

/-- The number of a field register F0–F15 (10_state.md R31). -/
abbrev FIdx := Fin 16
/-- The number of a point register P0–P7 (10_state.md R32). -/
abbrev PIdx := Fin 8
/-- The number of a scalar register K0–K3 (10_state.md R33). -/
abbrev KIdx := Fin 4

/-- The three curve forms (00_scope.md R21); the code 3 of the FORM field is illegal (30_encoding.md R102). -/
inductive CurveForm where
  /-- W: `y² = x³ + ax + b` -/
  | weierstrass
  /-- M: `By² = x³ + Ax² + x` -/
  | montgomery
  /-- E: `x² + y² = 1 + dx²y²` -/
  | edwards
deriving DecidableEq, Repr

/-- The 34 commands. Operands stand in the order RD, RS1, RS2, immediate or modifier (30_encoding.md R109). -/
inductive Instr where
  -- control (40_control.md)
  | nop
  | cfgf
  | cfgc (form : CurveForm) (rs1 rs2 : FIdx)
  -- field arithmetic (41_field.md)
  | fadd (rd rs1 rs2 : FIdx)
  | fsub (rd rs1 rs2 : FIdx)
  | fmul (rd rs1 rs2 : FIdx)
  | fdiv (rd rs1 rs2 : FIdx)
  | finv (rd rs1 : FIdx)
  | fneg (rd rs1 : FIdx)
  | fpow (rd rs1 : FIdx) (rs2 : KIdx) (neg : Bool)
  | fsqrt (rd rs1 : FIdx)
  | fmov (rd rs1 : FIdx)
  | fred (rd rs1 : FIdx)
  | fldi (rd : FIdx) (imm : BitVec 12)
  | fcmp (rs1 rs2 : FIdx)
  -- Montgomery multiplier (42_montmul.md)
  | mmul (rd rs1 rs2 : FIdx)
  | mtom (rd rs1 : FIdx)
  | mfrom (rd rs1 : FIdx)
  -- points (43_point.md)
  | pset (rd : PIdx) (rs1 rs2 : FIdx)
  | pinf (rd : PIdx)
  | pgetx (rd : FIdx) (rs1 : PIdx)
  | pgety (rd : FIdx) (rs1 : PIdx)
  | pmov (rd rs1 : PIdx)
  | pneg (rd rs1 : PIdx)
  | padd (rd rs1 rs2 : PIdx)
  | pdbl (rd rs1 : PIdx)
  | ponc (rs1 : PIdx)
  | pisinf (rs1 : PIdx)
  -- scalar multiplication and scalar registers (44_scalar.md)
  | psmul (rd rs1 : PIdx) (rs2 : KIdx)
  | psmulda (rd rs1 : PIdx) (rs2 : KIdx)
  | psmulml (rd rs1 : PIdx) (rs2 : KIdx)
  | kldi (rd : KIdx) (imm : BitVec 12)
  | kfromf (rd : KIdx) (rs1 : FIdx)
  | ffromk (rd : FIdx) (rs1 : KIdx)
deriving DecidableEq, Repr

end Sys2Proof
end

