-- ==== Sys2Proof/WellFormed.lean ====
section
/-! DEFINITION. Well-formed commands: those the assembler writes (30_encoding.md R109). The bounds of every
operand are carried by its type, so one check is left, the unused operand of the Edwards form. -/

namespace Sys2Proof

/-- A command that has an assembler spelling (30_encoding.md R109): "The Edwards form takes one register, and
RS2 is encoded 0". A word of CFGC E with a nonzero RS2 is legal all the same and RS2 is ignored
(40_control.md R135): it decodes to a command that is not well-formed and that runs like the well-formed one.
DESIGN CHOICE: notes/assumptions/16. -/
def Instr.wellFormed : Instr → Bool
  | .cfgc .edwards _ rs2 => rs2 == 0
  | _ => true

end Sys2Proof
end

