-- ==== Sys2Proof/Decode.lean ====
section
/-! DEFINITION. Decoding a command word (30_encoding.md R100–R108), total on every word and refusing by name,
and after it the encoder, written from the same tables. -/

namespace Sys2Proof

/-- Why a word is illegal: the three clauses of 30_encoding.md R105. -/
inductive DecodeError where
  /-- R105 (a): the opcode is not in the table of R104. -/
  | unassignedOpcode
  /-- R105 (b): a bit that the format fixes to 0 is 1. -/
  | mustBeZero
  /-- R105 (c): CFGC with FORM ≥ 3. -/
  | badForm
deriving DecidableEq, Repr

namespace Decode

/-! ### The fields of a word (R100) -/

/-- OPC, bits 7..0. -/
def opc (w : BusWord) : Nat := w.toNat % 256
/-- RD, bits 11..8. -/
def rd (w : BusWord) : Nat := w.toNat / 2 ^ 8 % 16
/-- RS1, bits 15..12. -/
def rs1 (w : BusWord) : Nat := w.toNat / 2 ^ 12 % 16
/-- RS2, bits 19..16. -/
def rs2 (w : BusWord) : Nat := w.toNat / 2 ^ 16 % 16
/-- IMM, bits 31..20. -/
def imm (w : BusWord) : Nat := w.toNat / 2 ^ 20

/-- An F field: all four bits are the register number (R101). -/
def fField (n : Nat) : FIdx := Fin.ofNat 16 n
/-- A P field: bits 2..0 are the register number (R101); that bit 3 is 0 is checked by the format. -/
def pField (n : Nat) : PIdx := Fin.ofNat 8 n
/-- A K field: bits 1..0 are the register number (R101); that bits 3..2 are 0 is checked by the format. -/
def kField (n : Nat) : KIdx := Fin.ofNat 4 n

/-- The answer of a format whose must-be-zero bits are all 0 exactly when `ok` (R105 (b)). -/
def guardZero (ok : Bool) (i : Instr) : Except DecodeError Instr :=
  if ok then .ok i else .error .mustBeZero

/-! ### The seventeen formats (R103) -/

def fmtN (i : Instr) (w : BusWord) : Except DecodeError Instr :=
  guardZero (rd w == 0 && rs1 w == 0 && rs2 w == 0 && imm w == 0) i

/-- Format CFG. The mask is tested before FORM, as R108 has it. -/
def fmtCFG (w : BusWord) : Except DecodeError Instr :=
  if imm w == 0 then
    match rd w with
    | 0 => .ok (.cfgc .weierstrass (fField (rs1 w)) (fField (rs2 w)))
    | 1 => .ok (.cfgc .montgomery (fField (rs1 w)) (fField (rs2 w)))
    | 2 => .ok (.cfgc .edwards (fField (rs1 w)) (fField (rs2 w)))
    | _ => .error .badForm
  else .error .mustBeZero

def fmtFFF (mk : FIdx → FIdx → FIdx → Instr) (w : BusWord) : Except DecodeError Instr :=
  guardZero (imm w == 0) (mk (fField (rd w)) (fField (rs1 w)) (fField (rs2 w)))

def fmtFF (mk : FIdx → FIdx → Instr) (w : BusWord) : Except DecodeError Instr :=
  guardZero (rs2 w == 0 && imm w == 0) (mk (fField (rd w)) (fField (rs1 w)))

/-- Format FFK: bit 0 of IMM is NEG, the other bits of IMM are 0 (R102). -/
def fmtFFK (mk : FIdx → FIdx → KIdx → Bool → Instr) (w : BusWord) : Except DecodeError Instr :=
  guardZero (decide (rs2 w < 4) && decide (imm w < 2))
    (mk (fField (rd w)) (fField (rs1 w)) (kField (rs2 w)) (imm w == 1))

def fmtFI (mk : FIdx → BitVec 12 → Instr) (w : BusWord) : Except DecodeError Instr :=
  guardZero (rs1 w == 0 && rs2 w == 0) (mk (fField (rd w)) (BitVec.ofNat 12 (imm w)))

def fmtXFF (mk : FIdx → FIdx → Instr) (w : BusWord) : Except DecodeError Instr :=
  guardZero (rd w == 0 && imm w == 0) (mk (fField (rs1 w)) (fField (rs2 w)))

def fmtPFF (mk : PIdx → FIdx → FIdx → Instr) (w : BusWord) : Except DecodeError Instr :=
  guardZero (decide (rd w < 8) && imm w == 0) (mk (pField (rd w)) (fField (rs1 w)) (fField (rs2 w)))

def fmtP (mk : PIdx → Instr) (w : BusWord) : Except DecodeError Instr :=
  guardZero (decide (rd w < 8) && rs1 w == 0 && rs2 w == 0 && imm w == 0) (mk (pField (rd w)))

def fmtFP (mk : FIdx → PIdx → Instr) (w : BusWord) : Except DecodeError Instr :=
  guardZero (decide (rs1 w < 8) && rs2 w == 0 && imm w == 0) (mk (fField (rd w)) (pField (rs1 w)))

def fmtPP (mk : PIdx → PIdx → Instr) (w : BusWord) : Except DecodeError Instr :=
  guardZero (decide (rd w < 8) && decide (rs1 w < 8) && rs2 w == 0 && imm w == 0)
    (mk (pField (rd w)) (pField (rs1 w)))

def fmtPPP (mk : PIdx → PIdx → PIdx → Instr) (w : BusWord) : Except DecodeError Instr :=
  guardZero (decide (rd w < 8) && decide (rs1 w < 8) && decide (rs2 w < 8) && imm w == 0)
    (mk (pField (rd w)) (pField (rs1 w)) (pField (rs2 w)))

def fmtXP (mk : PIdx → Instr) (w : BusWord) : Except DecodeError Instr :=
  guardZero (rd w == 0 && decide (rs1 w < 8) && rs2 w == 0 && imm w == 0) (mk (pField (rs1 w)))

def fmtPPK (mk : PIdx → PIdx → KIdx → Instr) (w : BusWord) : Except DecodeError Instr :=
  guardZero (decide (rd w < 8) && decide (rs1 w < 8) && decide (rs2 w < 4) && imm w == 0)
    (mk (pField (rd w)) (pField (rs1 w)) (kField (rs2 w)))

def fmtKI (mk : KIdx → BitVec 12 → Instr) (w : BusWord) : Except DecodeError Instr :=
  guardZero (decide (rd w < 4) && rs1 w == 0 && rs2 w == 0)
    (mk (kField (rd w)) (BitVec.ofNat 12 (imm w)))

def fmtKF (mk : KIdx → FIdx → Instr) (w : BusWord) : Except DecodeError Instr :=
  guardZero (decide (rd w < 4) && rs2 w == 0 && imm w == 0) (mk (kField (rd w)) (fField (rs1 w)))

def fmtFK (mk : FIdx → KIdx → Instr) (w : BusWord) : Except DecodeError Instr :=
  guardZero (decide (rs1 w < 4) && rs2 w == 0 && imm w == 0) (mk (fField (rd w)) (kField (rs1 w)))

end Decode

open Decode in
/-- The decoder: the opcode map of 30_encoding.md R104 over the formats of R103; an opcode that the map does
not list is refused (R105 (a), R106). -/
def decode (w : BusWord) : Except DecodeError Instr :=
  match opc w with
  | 0x00 => fmtN .nop w
  | 0x01 => fmtN .cfgf w
  | 0x02 => fmtCFG w
  | 0x10 => fmtFFF .fadd w
  | 0x11 => fmtFFF .fsub w
  | 0x12 => fmtFFF .fmul w
  | 0x13 => fmtFFF .fdiv w
  | 0x14 => fmtFF .finv w
  | 0x15 => fmtFF .fneg w
  | 0x16 => fmtFFK .fpow w
  | 0x17 => fmtFF .fsqrt w
  | 0x18 => fmtFF .fmov w
  | 0x19 => fmtFF .fred w
  | 0x1A => fmtFI .fldi w
  | 0x1B => fmtXFF .fcmp w
  | 0x1C => fmtFFF .mmul w
  | 0x1D => fmtFF .mtom w
  | 0x1E => fmtFF .mfrom w
  | 0x20 => fmtPFF .pset w
  | 0x21 => fmtP .pinf w
  | 0x22 => fmtFP .pgetx w
  | 0x23 => fmtFP .pgety w
  | 0x24 => fmtPP .pmov w
  | 0x25 => fmtPP .pneg w
  | 0x26 => fmtPPP .padd w
  | 0x27 => fmtPP .pdbl w
  | 0x28 => fmtXP .ponc w
  | 0x29 => fmtXP .pisinf w
  | 0x30 => fmtPPK .psmul w
  | 0x31 => fmtPPK .psmulda w
  | 0x32 => fmtPPK .psmulml w
  | 0x38 => fmtKI .kldi w
  | 0x39 => fmtKF .kfromf w
  | 0x3A => fmtFK .ffromk w
  | _ => .error .unassignedOpcode

/-! ### The encoder -/

/-- The word with the given fields (30_encoding.md R100; 95_test_vectors.md §2.1:
`enc = OPC | RD << 8 | RS1 << 12 | RS2 << 16 | IMM << 20`). -/
def encodeFields (opc rd rs1 rs2 imm : Nat) : BusWord :=
  BitVec.ofNat 32 (opc + rd * 2 ^ 8 + rs1 * 2 ^ 12 + rs2 * 2 ^ 16 + imm * 2 ^ 20)

/-- The FORM code of a curve form (30_encoding.md R102). -/
def CurveForm.code : CurveForm → Nat
  | .weierstrass => 0
  | .montgomery => 1
  | .edwards => 2

/-- The one word that stands for a command (30_encoding.md R103, R104). -/
def encode : Instr → BusWord
  | .nop => encodeFields 0x00 0 0 0 0
  | .cfgf => encodeFields 0x01 0 0 0 0
  | .cfgc form rs1 rs2 => encodeFields 0x02 form.code rs1.val rs2.val 0
  | .fadd rd rs1 rs2 => encodeFields 0x10 rd.val rs1.val rs2.val 0
  | .fsub rd rs1 rs2 => encodeFields 0x11 rd.val rs1.val rs2.val 0
  | .fmul rd rs1 rs2 => encodeFields 0x12 rd.val rs1.val rs2.val 0
  | .fdiv rd rs1 rs2 => encodeFields 0x13 rd.val rs1.val rs2.val 0
  | .finv rd rs1 => encodeFields 0x14 rd.val rs1.val 0 0
  | .fneg rd rs1 => encodeFields 0x15 rd.val rs1.val 0 0
  | .fpow rd rs1 rs2 neg => encodeFields 0x16 rd.val rs1.val rs2.val neg.toNat
  | .fsqrt rd rs1 => encodeFields 0x17 rd.val rs1.val 0 0
  | .fmov rd rs1 => encodeFields 0x18 rd.val rs1.val 0 0
  | .fred rd rs1 => encodeFields 0x19 rd.val rs1.val 0 0
  | .fldi rd imm => encodeFields 0x1A rd.val 0 0 imm.toNat
  | .fcmp rs1 rs2 => encodeFields 0x1B 0 rs1.val rs2.val 0
  | .mmul rd rs1 rs2 => encodeFields 0x1C rd.val rs1.val rs2.val 0
  | .mtom rd rs1 => encodeFields 0x1D rd.val rs1.val 0 0
  | .mfrom rd rs1 => encodeFields 0x1E rd.val rs1.val 0 0
  | .pset rd rs1 rs2 => encodeFields 0x20 rd.val rs1.val rs2.val 0
  | .pinf rd => encodeFields 0x21 rd.val 0 0 0
  | .pgetx rd rs1 => encodeFields 0x22 rd.val rs1.val 0 0
  | .pgety rd rs1 => encodeFields 0x23 rd.val rs1.val 0 0
  | .pmov rd rs1 => encodeFields 0x24 rd.val rs1.val 0 0
  | .pneg rd rs1 => encodeFields 0x25 rd.val rs1.val 0 0
  | .padd rd rs1 rs2 => encodeFields 0x26 rd.val rs1.val rs2.val 0
  | .pdbl rd rs1 => encodeFields 0x27 rd.val rs1.val 0 0
  | .ponc rs1 => encodeFields 0x28 0 rs1.val 0 0
  | .pisinf rs1 => encodeFields 0x29 0 rs1.val 0 0
  | .psmul rd rs1 rs2 => encodeFields 0x30 rd.val rs1.val rs2.val 0
  | .psmulda rd rs1 rs2 => encodeFields 0x31 rd.val rs1.val rs2.val 0
  | .psmulml rd rs1 rs2 => encodeFields 0x32 rd.val rs1.val rs2.val 0
  | .kldi rd imm => encodeFields 0x38 rd.val 0 0 imm.toNat
  | .kfromf rd rs1 => encodeFields 0x39 rd.val rs1.val 0 0
  | .ffromk rd rs1 => encodeFields 0x3A rd.val rs1.val 0 0

/-- The command the decoder reads from a word of `nbits` bits, numbered as spec/opcode_table.json numbers
them. A command is one 32-bit word taken whole from the bus, whose data bit i is bit i of the word
(20_memory.md R75, R87), so no byte order enters; bits at and above `nbits` are 0.
DEDUCED: notes/assumptions/11. -/
def decodeTableWord (nbits w : Nat) : Option Instr :=
  match decode (BitVec.ofNat 32 (w % 2 ^ nbits)) with
  | .ok i => some i
  | .error _ => none

end Sys2Proof
end

