-- ==== Sys2Proof/Machine/State.lean ====
section
/-! DEFINITION. The state of the block as plain data (10_state.md), the reasons a step can stop, and the state
after reset (70_reset_and_hazards.md R291). -/

namespace Sys2Proof.Machine

/-! ### Registers -/

/-- The tag of a field or point register (10_state.md R35). The code 0b11 never occurs. -/
inductive Tag where
  | empty
  | valid
  | stale
deriving DecidableEq, Repr

/-- The tag of a scalar register, which is never STALE (10_state.md R33). -/
inductive KTag where
  | empty
  | valid
deriving DecidableEq, Repr

/-- A field register (10_state.md R31). -/
structure FReg where
  v : Word
  tag : Tag
deriving DecidableEq, Repr

/-- A point register (10_state.md R32). -/
structure PReg where
  x : Word
  y : Word
  inf : Bool
  tag : Tag
deriving DecidableEq, Repr

/-- A scalar register (10_state.md R33). -/
structure KReg where
  v : Word
  tag : KTag
deriving DecidableEq, Repr

/-! ### Configuration, status and control -/

/-- FKIND (10_state.md R43): 0 = prime field, 1 = binary field. -/
inductive FieldKind where
  | prime
  | binary
deriving DecidableEq, Repr

/-- The committed field (10_state.md R43): FIELD_VALID, FKIND, PMOD, MDEG. -/
structure FieldCfg where
  valid : Bool
  kind : FieldKind
  pmod : WideWord
  mdeg : BitVec 16
deriving DecidableEq, Repr

/-- The committed curve (10_state.md R44): CURVE_VALID, CFORM, CA, CB. The form code 3 never occurs. -/
structure CurveCfg where
  valid : Bool
  form : CurveForm
  ca : Word
  cb : Word
deriving DecidableEq, Repr

/-- The staging configuration (10_state.md R45): the implemented bits of CFG_FKIND, CFG_M, CFG_MRR and
CFG_MOD. -/
structure Staging where
  fkind : FieldKind
  m : BitVec 16
  mrr : BitVec 8
  modulus : WideWord
deriving DecidableEq, Repr

/-- The implemented bits of STATUS (10_state.md R46, R47). BUSY is also the in-flight bit of R41. -/
structure Status where
  busy : Bool
  done : Bool
  err : Bool
  ovf : Bool
  errcode : BitVec 4
  z : Bool
  lsb : Bool
  nr : Bool
  onc : Bool
deriving DecidableEq, Repr

/-- The implemented bits of IRQEN (10_state.md R49). -/
structure IrqEn where
  doneie : Bool
  errie : Bool
  ovfie : Bool
deriving DecidableEq, Repr

/-! ### The inputs of the machine -/

/-- The width of a bus access (20_memory.md R72). -/
inductive BusWidth where
  | w8
  | w16
  | w32
  | w64
deriving DecidableEq, Repr

/-- One access of the host to the window (00_scope.md R16, R22). Only the 32-bit data of an accepted write is
ever read. -/
inductive Access where
  | read (width : BusWidth) (off : Offset)
  | write (width : BusWidth) (off : Offset) (data : BusWord)
deriving DecidableEq, Repr

/-- One turn of the schedule: which agent moves, and with what input (00_scope.md R22, 20_memory.md R84). -/
inductive Turn where
  /-- the port performs one access of a host (any bus master, 60_exceptions.md R274) -/
  | host (a : Access)
  /-- an engine step that completes the in-flight command, if there is one; `draw` is the outcome that the
  primality test has for a composite candidate in this step (00_scope.md R18, 10_state.md R30) -/
  | engine (draw : Bool)
  /-- an engine step at which the latency of the in-flight command has not elapsed (00_scope.md R11) -/
  | working
  /-- the input `rst_n` is low, power-up included (70_reset_and_hazards.md R290) -/
  | hwReset
deriving DecidableEq, Repr

/-! ### The state -/

/-- The state of the block (10_state.md R30) and, after it, four fields of the model's own.
CTRL, ID, PARAMS, CFGSTAT, FTAGS, PTAGS, KTAGS and the irq output have no storage: each is a constant or a view
of the fields below (Machine/Bus.lean), since R48 has CTRL read 0 always. DEDUCED: notes/assumptions/10. -/
structure State where
  /-- F0–F15 (R31) -/
  fregs : Vector FReg 16
  /-- P0–P7 (R32) -/
  pregs : Vector PReg 8
  /-- K0–K3 (R33) -/
  kregs : Vector KReg 4
  /-- STATUS (R46, R47), with BUSY (R41) -/
  status : Status
  /-- CUR_CMD, hidden (R41) -/
  curCmd : BusWord
  /-- CMDCNT (R40) -/
  cmdcnt : BusWord
  /-- ERRCMD (R54) -/
  errcmd : BusWord
  /-- the committed field (R43) -/
  field : FieldCfg
  /-- the committed curve (R44) -/
  curve : CurveCfg
  /-- the staging configuration (R45) -/
  staging : Staging
  /-- IRQEN (R49) -/
  irqen : IrqEn
  /-- THE MODEL'S OWN: the turns still to come, first one first; the program of the host is in here. DESIGN
  CHOICE: notes/assumptions/1. -/
  schedule : List Turn
  /-- THE MODEL'S OWN: the primality draw of the engine step under way, an input (R30). DESIGN CHOICE:
  notes/assumptions/2. -/
  mrDraw : Bool
  /-- THE MODEL'S OWN: how many engine steps took their draw from `Config.mrDraw`. DESIGN CHOICE:
  notes/assumptions/2. -/
  freeTurns : Nat
  /-- THE MODEL'S OWN: the data of the last access when it was a MemRead. DESIGN CHOICE:
  notes/assumptions/4. -/
  readData : Option BusWord
deriving DecidableEq, Repr

/-- Why a step stops with a fault. -/
inductive Fault where
  /-- Raised by the port on an access that is not 32 bits wide or not aligned (20_memory.md R72,
  60_exceptions.md R270: "A model treats a bus error as a fault of the host's step"). Safe: the block goes on
  with no state changed, and the model stops. DEDUCED: notes/assumptions/7. -/
  | busError (a : Access)
deriving DecidableEq, Repr

/-- Why a step is refused. -/
inductive Refusal where
  /-- Raised by `exec` for a command that has no meaning yet; no command is left without one. Safe. -/
  | notModelled (mnemonic : String)
deriving DecidableEq, Repr

/-- The outcomes of a step of this machine. -/
abbrev Result := Host.Outcome State Fault Refusal

/-- The errors of a command (60_exceptions.md R260). -/
inductive Err where
  | invalidParameter
  | invalidCurveParameters
  | pointNotOnCurve
  | typeMismatch
  | curveMismatch
  | divisionByZero
  | unsupported
  | illegalCommand
  | unwritten
  | nonCanonical
  | notConfigured
  | notInvertible
  | identityCoord
deriving DecidableEq, Repr

/-- A point value (43_point.md R201): the point at infinity O, or a pair of affine coordinates. -/
inductive Point where
  | infinity
  | affine (x y : Nat)
deriving DecidableEq, Repr

/-- The state after reset (70_reset_and_hazards.md R291). CUR_CMD, whose value the spec calls irrelevant, is 0
(DESIGN CHOICE: notes/assumptions/3), and so are the fields of the model's own (notes/assumptions/1, 2, 4). -/
def State.reset : State where
  fregs := Vector.replicate 16 ⟨0, .empty⟩
  pregs := Vector.replicate 8 ⟨0, 0, false, .empty⟩
  kregs := Vector.replicate 4 ⟨0, .empty⟩
  status := ⟨false, false, false, false, 0, false, false, false, false⟩
  curCmd := 0
  cmdcnt := 0
  errcmd := 0
  field := ⟨false, .prime, 0, 0⟩
  curve := ⟨false, .weierstrass, 0, 0⟩
  staging := ⟨.prime, 0, 5, 0⟩
  irqen := ⟨false, false, false⟩
  schedule := []
  mrDraw := false
  freeTurns := 0
  readData := none

end Sys2Proof.Machine
end

