-- ==== Sys2Proof/Machine/Ops.lean ====
section
/-! DEFINITION. The named operations over the registers: reading and writing them, making them STALE, reset,
accepting a command, and the two ways a command ends. Taking an error (60_exceptions.md R262) is
`State.raiseError`; there is no return from it: "There is no return-from-trap: the host simply continues issuing
commands" (60_exceptions.md R268). -/

namespace Sys2Proof.Machine

/-- `g` on every register of a file. -/
def mapFile {α : Type} {n : Nat} (g : α → α) (file : Vector α n) : Vector α n :=
  ⟨⟨file.toList.map g⟩, by simp⟩

/-! ### Codes -/

/-- FKIND as a bit (10_state.md R43). -/
def FieldKind.code : FieldKind → Nat
  | .prime => 0
  | .binary => 1

/-- FKIND from a bit (10_state.md R45). -/
def FieldKind.ofBit (b : Bool) : FieldKind := if b then .binary else .prime

/-- The tag codes of 10_state.md R35. -/
def Tag.code : Tag → Nat
  | .empty => 0
  | .valid => 1
  | .stale => 2

/-- The tag codes of 10_state.md R35, for a K register. -/
def KTag.code : KTag → Nat
  | .empty => 0
  | .valid => 1

/-- The error codes of 60_exceptions.md R260. -/
def Err.code : Err → BitVec 4
  | .invalidParameter => 1
  | .invalidCurveParameters => 2
  | .pointNotOnCurve => 3
  | .typeMismatch => 4
  | .curveMismatch => 5
  | .divisionByZero => 6
  | .unsupported => 7
  | .illegalCommand => 8
  | .unwritten => 9
  | .nonCanonical => 10
  | .notConfigured => 11
  | .notInvertible => 12
  | .identityCoord => 13

/-! ### Register files -/

/-- F[i] (00_scope.md R14). -/
def State.f (s : State) (i : FIdx) : FReg := s.fregs[i]
/-- P[j] (00_scope.md R14). -/
def State.p (s : State) (j : PIdx) : PReg := s.pregs[j]
/-- K[k] (00_scope.md R14). -/
def State.k (s : State) (k : KIdx) : KReg := s.kregs[k]

/-- `F[i] <- v` (10_state.md R39). -/
def State.writeF (s : State) (i : FIdx) (v : Nat) : State :=
  { s with fregs := s.fregs.set i ⟨BitVec.ofNat _ v, .valid⟩ }

/-- `K[k] <- v` (10_state.md R39). -/
def State.writeK (s : State) (k : KIdx) (v : Nat) : State :=
  { s with kregs := s.kregs.set k ⟨BitVec.ofNat _ v, .valid⟩ }

/-- The register that holds a point value (10_state.md R39). -/
def Point.toReg : Point → PReg
  | .infinity => ⟨0, 0, true, .valid⟩
  | .affine x y => ⟨BitVec.ofNat _ x, BitVec.ofNat _ y, false, .valid⟩

/-- The point value that a register holds (10_state.md R37). -/
def PReg.toPoint (r : PReg) : Point :=
  if r.inf then .infinity else .affine r.x.toNat r.y.toNat

/-- `P[j] <- Pt` (10_state.md R39). -/
def State.writeP (s : State) (j : PIdx) (pt : Point) : State :=
  { s with pregs := s.pregs.set j pt.toReg }

/-- VALID becomes STALE; the other tags stay (10_state.md R35). -/
def Tag.toStale : Tag → Tag
  | .valid => .stale
  | t => t

/-- Every VALID tag of F becomes STALE (10_state.md R35). -/
def State.staleF (s : State) : State :=
  { s with fregs := mapFile (fun r => { r with tag := r.tag.toStale }) s.fregs }

/-- Every VALID tag of P becomes STALE (10_state.md R35). -/
def State.staleP (s : State) : State :=
  { s with pregs := mapFile (fun r => { r with tag := r.tag.toStale }) s.pregs }

/-! ### Configuration -/

/-- CFGF commits a field (40_control.md R131): the curve is no longer valid, its coefficients stay. -/
def State.commitField (s : State) (c : FieldCfg) : State :=
  ({ s with field := c, curve := { s.curve with valid := false } }).staleF.staleP

/-- CFGC commits a curve (40_control.md R135). -/
def State.commitCurve (s : State) (e : CurveCfg) : State :=
  ({ s with curve := e }).staleP

/-! ### The life of a command (10_state.md R42) -/

/-- A CMD write while idle is accepted. -/
def State.accept (s : State) (w : BusWord) : State :=
  { s with curCmd := w, status := { s.status with busy := true }, cmdcnt := s.cmdcnt + 1 }

/-- A write that is dropped because BUSY = 1 (20_memory.md R80). -/
def State.dropWrite (s : State) : State :=
  { s with status := { s.status with ovf := true } }

/-- Completion without an error: DONE <- 1, BUSY <- 0. -/
def State.complete (s : State) : State :=
  { s with status := { s.status with done := true, busy := false } }

/-- Completion with error `e`: the error latch of 60_exceptions.md R262, in one step, and nothing else. -/
def State.raiseError (s : State) (e : Err) : State :=
  { s with
    status := { s.status with err := true, errcode := e.code, done := true, busy := false }
    errcmd := s.curCmd }

/-- How a command ends (00_scope.md R17, 10_state.md R42): the deferred writes of its outcome take effect at
completion, and are discarded when it raises. -/
def finish (s : State) (outcome : Except Err State) : Result :=
  match outcome with
  | .ok t => .next t.complete
  | .error e => .next (s.raiseError e)

/-! ### Reset -/

/-- The reset of 70_reset_and_hazards.md R290–R293 from any state. The schedule of turns and the model's own
draw and counter are inputs of the machine, which a reset of the block does not touch; the port's answer is
cleared (DESIGN CHOICE: notes/assumptions/9). -/
def State.resetBlock (s : State) : State :=
  { State.reset with schedule := s.schedule, mrDraw := s.mrDraw, freeTurns := s.freeTurns }

end Sys2Proof.Machine
end

