-- ==== Sys2Proof/Machine/Bus.lean ====
section
/-! DEFINITION. The port: the address map (20_memory.md R71), what a MemRead returns and what a MemWrite does
(R72–R82, 10_state.md R45–R55), the views that have no storage of their own, and the interrupt line
(60_exceptions.md R265). An address is an offset in the window; where the window lies, how a refusal looks on the bus
and where the interrupt goes are the platform's (DESIGN CHOICE: notes/assumptions/8). -/

namespace Sys2Proof.Machine

/-! ### The address map -/

/-- What an aligned offset names (20_memory.md R71). A word index is below the width of its register; every
other offset is reserved (R73). -/
inductive Slot where
  | id | ctrl | cmd | status | irqen | cmdcnt | errcmd | params
  | cfgFkind | cfgM | cfgMrr | cfgstat | ftags | ptags | ktags
  | f (i : FIdx) (w : Nat)
  | px (j : PIdx) (w : Nat)
  | py (j : PIdx) (w : Nat)
  | pinf (j : PIdx)
  | k (i : KIdx) (w : Nat)
  | cfgMod (w : Nat)
  | pmod (w : Nat)
  | ca (w : Nat)
  | cb (w : Nat)
  | reserved
deriving DecidableEq, Repr

/-- The single registers at 0x0000–0x003B, in the order of their offsets. -/
def controlSlot (off : Nat) : Slot :=
  match off with
  | 0x00 => .id
  | 0x04 => .ctrl
  | 0x08 => .cmd
  | 0x0C => .status
  | 0x10 => .irqen
  | 0x14 => .cmdcnt
  | 0x18 => .errcmd
  | 0x1C => .params
  | 0x20 => .cfgFkind
  | 0x24 => .cfgM
  | 0x28 => .cfgMrr
  | 0x2C => .cfgstat
  | 0x30 => .ftags
  | 0x34 => .ptags
  | 0x38 => .ktags
  | _ => .reserved

/-- The P window at byte `r` of the 0x100 bytes of P[j]. -/
def pointSlot (j : PIdx) (r : Nat) : Slot :=
  if r < 4 * Config.nw then .px j (r / 4)
  else if 0x40 ≤ r ∧ r < 0x40 + 4 * Config.nw then .py j ((r - 0x40) / 4)
  else if r = 0x80 then .pinf j
  else .reserved

/-- The address map (20_memory.md R71), for an offset that is a multiple of 4. -/
def slotAt (off : Offset) : Slot :=
  let o := off.toNat
  if o < 0x1000 then controlSlot o
  else if o < 0x1400 then
    if o % 0x40 < 4 * Config.nw then .f (Fin.ofNat 16 ((o - 0x1000) / 0x40)) (o % 0x40 / 4) else .reserved
  else if o < 0x2000 then .reserved
  else if o < 0x2800 then pointSlot (Fin.ofNat 8 ((o - 0x2000) / 0x100)) (o % 0x100)
  else if o < 0x3000 then .reserved
  else if o < 0x3100 then
    if o % 0x40 < 4 * Config.nw then .k (Fin.ofNat 4 ((o - 0x3000) / 0x40)) (o % 0x40 / 4) else .reserved
  else if o < 0x4000 then .reserved
  else if o < 0x4080 then
    if o % 0x80 < 4 * (Config.nw + 1) then .cfgMod (o % 0x80 / 4) else .reserved
  else if o < 0x4100 then .reserved
  else if o < 0x4180 then
    if o % 0x80 < 4 * (Config.nw + 1) then .pmod (o % 0x80 / 4) else .reserved
  else if o < 0x41C0 then
    if o % 0x40 < 4 * Config.nw then .ca (o % 0x40 / 4) else .reserved
  else if o < 0x4200 then
    if o % 0x40 < 4 * Config.nw then .cb (o % 0x40 / 4) else .reserved
  else .reserved

/-! ### Words of a multiword register (20_memory.md R74, R75) -/

/-- Word w of a register: bits 32w+31..32w; bits the register does not have read 0 (R73). -/
def getWord {n : Nat} (v : BitVec n) (w : Nat) : BusWord := v.extractLsb' (32 * w) 32

/-- The register with word w replaced; bits the register does not have are ignored (R73). -/
def setWord {n : Nat} (v : BitVec n) (w : Nat) (data : BusWord) : BitVec n :=
  (v &&& ~~~((BitVec.allOnes 32).setWidth n <<< (32 * w))) ||| (data.setWidth n <<< (32 * w))

/-! ### The views -/

/-- STATUS (10_state.md R46). -/
def Status.word (st : Status) : BusWord :=
  BitVec.ofNat 32
    (st.busy.toNat + st.done.toNat * 2 + st.err.toNat * 4 + st.ovf.toNat * 8 + st.errcode.toNat * 2 ^ 8
      + st.z.toNat * 2 ^ 16 + st.lsb.toNat * 2 ^ 17 + st.nr.toNat * 2 ^ 18 + st.onc.toNat * 2 ^ 19)

/-- IRQEN (10_state.md R49). -/
def IrqEn.word (q : IrqEn) : BusWord :=
  BitVec.ofNat 32 (q.doneie.toNat + q.errie.toNat * 2 + q.ovfie.toNat * 4)

/-- ID (10_state.md R50). -/
def idWord : BusWord := 0x45430001

/-- PARAMS (10_state.md R51). -/
def paramsWord : BusWord :=
  BitVec.ofNat 32 (Config.nbits + 16 * 2 ^ 16 + 8 * 2 ^ 24 + 4 * 2 ^ 28)

/-- CFGSTAT (10_state.md R52). -/
def State.cfgstatWord (s : State) : BusWord :=
  BitVec.ofNat 32
    (s.field.valid.toNat + s.field.kind.code * 2 + s.curve.valid.toNat * 2 ^ 4 + s.curve.form.code * 2 ^ 5)

/-- Two bits for each tag, the first tag lowest (10_state.md R53). -/
def packTags (codes : List Nat) : BusWord :=
  BitVec.ofNat 32 (codes.foldr (fun c acc => c + 4 * acc) 0)

/-- FTAGS (10_state.md R53). -/
def State.ftagsWord (s : State) : BusWord := packTags (s.fregs.toList.map (fun r => r.tag.code))
/-- PTAGS (10_state.md R53). -/
def State.ptagsWord (s : State) : BusWord := packTags (s.pregs.toList.map (fun r => r.tag.code))
/-- KTAGS (10_state.md R53). -/
def State.ktagsWord (s : State) : BusWord := packTags (s.kregs.toList.map (fun r => r.tag.code))

/-- The interrupt line (60_exceptions.md R265): a combinational function of STATUS and IRQEN. -/
def State.irq (s : State) : Bool :=
  (s.status.done && s.irqen.doneie) || (s.status.err && s.irqen.errie)
    || (s.status.ovf && s.irqen.ovfie)

/-! ### Reading -/

/-- What a MemRead of a slot returns; it changes nothing (20_memory.md R82). CTRL and CMD read 0 (10_state.md
R48, R55). -/
def readSlot (s : State) : Slot → BusWord
  | .id => idWord
  | .ctrl => 0
  | .cmd => 0
  | .status => s.status.word
  | .irqen => s.irqen.word
  | .cmdcnt => s.cmdcnt
  | .errcmd => s.errcmd
  | .params => paramsWord
  | .cfgFkind => BitVec.ofNat 32 s.staging.fkind.code
  | .cfgM => s.staging.m.setWidth 32
  | .cfgMrr => s.staging.mrr.setWidth 32
  | .cfgstat => s.cfgstatWord
  | .ftags => s.ftagsWord
  | .ptags => s.ptagsWord
  | .ktags => s.ktagsWord
  | .f i w => getWord (s.f i).v w
  | .px j w => getWord (s.p j).x w
  | .py j w => getWord (s.p j).y w
  | .pinf j => BitVec.ofNat 32 (s.p j).inf.toNat
  | .k i w => getWord (s.k i).v w
  | .cfgMod w => getWord s.staging.modulus w
  | .pmod w => getWord s.field.pmod w
  | .ca w => getWord s.curve.ca w
  | .cb w => getWord s.curve.cb w
  | .reserved => 0

/-- MemRead(off, 4) (00_scope.md R16). -/
def busRead (s : State) (off : Offset) : BusWord := readSlot s (slotAt off)

/-! ### Writing -/

/-- The W1C write of STATUS (10_state.md R46): a 1 clears DONE, ERR or OVF, and clearing ERR clears ERRCODE. -/
def State.clearStatus (s : State) (data : BusWord) : State :=
  { s with
    status :=
      { s.status with
        done := s.status.done && !data.getLsbD 1
        err := s.status.err && !data.getLsbD 2
        errcode := if data.getLsbD 2 then 0 else s.status.errcode
        ovf := s.status.ovf && !data.getLsbD 3 } }

/-- The slots whose writes are dropped while BUSY = 1 (20_memory.md R80). -/
def Slot.dropsWhenBusy : Slot → Bool
  | .cmd | .cfgFkind | .cfgM | .cfgMrr | .f _ _ | .k _ _ | .cfgMod _ => true
  | _ => false

/-- A MemWrite that is not dropped (20_memory.md R76–R79, 10_state.md R42–R49). A write to a read-only or
reserved slot, and to a bit a register does not have, is ignored (R73). -/
def writeSlot (s : State) (data : BusWord) : Slot → State
  | .ctrl => if data.getLsbD 0 then s.resetBlock else s
  | .cmd => s.accept data
  | .status => s.clearStatus data
  | .irqen => { s with irqen := ⟨data.getLsbD 0, data.getLsbD 1, data.getLsbD 2⟩ }
  | .cfgFkind => { s with staging := { s.staging with fkind := .ofBit (data.getLsbD 0) } }
  | .cfgM => { s with staging := { s.staging with m := data.setWidth 16 } }
  | .cfgMrr => { s with staging := { s.staging with mrr := data.setWidth 8 } }
  | .cfgMod w => { s with staging := { s.staging with modulus := setWord s.staging.modulus w data } }
  | .f i w => { s with fregs := s.fregs.set i ⟨setWord (s.f i).v w data, .valid⟩ }
  | .k i w => { s with kregs := s.kregs.set i ⟨setWord (s.k i).v w data, .valid⟩ }
  | _ => s

/-- MemWrite(off, 4, data) (00_scope.md R16), with the drop of 20_memory.md R80. -/
def busWrite (s : State) (off : Offset) (data : BusWord) : State :=
  if s.status.busy && (slotAt off).dropsWhenBusy then s.dropWrite else writeSlot s data (slotAt off)

/-! ### An access -/

/-- The port accepts a 32-bit access whose offset is a multiple of 4, and no other (20_memory.md R72). -/
def accepts (width : BusWidth) (off : Offset) : Bool := width == .w32 && off.toNat % 4 == 0

/-- One access of the host (00_scope.md R22): a refused one is a fault of the host's step (20_memory.md R72). -/
def hostAccess (a : Access) (s : State) : Result :=
  match a with
  | .read width off =>
    if accepts width off then .next { s with readData := some (busRead s off) } else .fault (.busError a)
  | .write width off data =>
    if accepts width off then .next { busWrite s off data with readData := none }
    else .fault (.busError a)

end Sys2Proof.Machine
end

