-- ==== Sys2Proof/Machine/Poly.lean ====
section
/-! DEFINITION. Polynomials over GF(2) as natural numbers, bit i the coefficient of x^i (41_field.md R155, R157).
`deg v` of the spec is `Nat.log2 v` for v ≠ 0. Each loop of the spec runs on a number of steps that it never
exceeds (DEDUCED: notes/assumptions/17). -/

namespace Sys2Proof.Machine

/-- `clmul(a, b)`: the carry-less product (41_field.md R155). -/
def clmul (a b : Nat) : Nat :=
  (List.range (b.log2 + 1)).foldl (fun acc i => if b.testBit i then acc ^^^ (a <<< i) else acc) 0

/-- The loop of `pmod`: each pass cancels the top bit of `v`. -/
def pmodLoop : Nat → Nat → Nat → Nat
  | 0, v, _ => v
  | n + 1, v, f =>
    if v ≠ 0 ∧ f.log2 ≤ v.log2 then pmodLoop n (v ^^^ (f <<< (v.log2 - f.log2))) f else v

/-- `pmod(v, f)`: the remainder of v modulo f (41_field.md R155). -/
def pmod (v f : Nat) : Nat := pmodLoop (v.log2 + 1) v f

/-- The loop of `pdivmod`, with the quotient so far. -/
def pdivmodLoop : Nat → Nat → Nat → Nat → Nat × Nat
  | 0, q, u, _ => (q, u)
  | n + 1, q, u, g =>
    if u ≠ 0 ∧ g.log2 ≤ u.log2 then
      pdivmodLoop n (q ^^^ (1 <<< (u.log2 - g.log2))) (u ^^^ (g <<< (u.log2 - g.log2))) g
    else (q, u)

/-- `pdivmod(u, g)`: quotient and remainder (41_field.md R155). -/
def pdivmod (u g : Nat) : Nat × Nat := pdivmodLoop (u.log2 + 1) 0 u g

/-- The loop of `pgcdinv`: the degree of r1 falls at each pass. -/
def pgcdinvLoop : Nat → Nat → Nat → Nat → Nat → Nat × Nat
  | 0, r0, _, s0, _ => (r0, s0)
  | n + 1, r0, r1, s0, s1 =>
    if r1 = 0 then (r0, s0)
    else pgcdinvLoop n r1 (pdivmod r0 r1).2 s1 (s0 ^^^ clmul (pdivmod r0 r1).1 s1)

/-- `pgcdinv(a, f)`: the gcd of a and f and the cofactor of a (41_field.md R157). -/
def pgcdinv (a f : Nat) : Nat × Nat := pgcdinvLoop (f.log2 + 2) f a 0 1

/-- The number of 1 bits (40_control.md R133). -/
def popcount (v : Nat) : Nat := ((List.range (v.log2 + 1)).filter (fun i => v.testBit i)).length

end Sys2Proof.Machine
end

