-- ==== Sys2Proof/Machine/FieldArith.lean ====
section
/-! DEFINITION. The field primitives in the committed field (41_field.md R150–R161) and the checks of the field
configuration (40_control.md R132, R133). The arithmetic is exact, on natural numbers (00_scope.md R19). -/

namespace Sys2Proof.Machine

/-- The prime p, or the reduction polynomial f (10_state.md R43). -/
def FieldCfg.modulus (c : FieldCfg) : Nat := c.pmod.toNat
/-- The extension degree m (10_state.md R43). -/
def FieldCfg.degree (c : FieldCfg) : Nat := c.mdeg.toNat

/-- `canon(v)` (41_field.md R150). -/
def canon (c : FieldCfg) (v : Nat) : Bool :=
  match c.kind with
  | .prime => decide (v < c.modulus)
  | .binary => decide (v < 2 ^ c.degree)

/-- `fnorm(v)` (41_field.md R151). -/
def fnorm (c : FieldCfg) (v : Nat) : Nat :=
  match c.kind with
  | .prime => v % c.modulus
  | .binary => pmod v c.modulus

/-- `fadd(a, b)` (41_field.md R152). -/
def fadd (c : FieldCfg) (a b : Nat) : Nat :=
  match c.kind with
  | .prime => (a + b) % c.modulus
  | .binary => a ^^^ b

/-- `fsub(a, b)` (41_field.md R153); the remainder of an integer is taken in [0, p). -/
def fsub (c : FieldCfg) (a b : Nat) : Nat :=
  match c.kind with
  | .prime => (((a : Int) - (b : Int)) % (c.modulus : Int)).toNat
  | .binary => a ^^^ b

/-- `fneg(a)` (41_field.md R154). -/
def fneg (c : FieldCfg) (a : Nat) : Nat :=
  match c.kind with
  | .prime => (((c.modulus : Int) - (a : Int)) % (c.modulus : Int)).toNat
  | .binary => a

/-- `fmul(a, b)` (41_field.md R156). -/
def fmul (c : FieldCfg) (a b : Nat) : Nat :=
  match c.kind with
  | .prime => a * b % c.modulus
  | .binary => pmod (clmul a b) c.modulus

/-- The squaring loop of `fpow`, low bit first, over the bits of e (41_field.md R160). -/
def powLoop (c : FieldCfg) : Nat → Nat → Nat → Nat → Nat
  | 0, _, _, r => r
  | n + 1, e, base, r =>
    powLoop c n (e / 2) (fmul c base base) (if e % 2 = 1 then fmul c r base else r)

/-- `a^e` in the field, for any e ≥ 0: 1 when e = 0 (41_field.md R160). -/
def powNat (c : FieldCfg) (a e : Nat) : Nat :=
  if e = 0 then 1 else powLoop c (e.log2 + 1) e a 1

/-- `finv(a)` (41_field.md R158). -/
def finv (c : FieldCfg) (a : Nat) : Except Err Nat :=
  if a = 0 then .error .divisionByZero
  else
    match c.kind with
    | .prime => .ok (powNat c a (c.modulus - 2))
    | .binary =>
      if (pgcdinv a c.modulus).1 ≠ 1 then .error .notInvertible
      else .ok (pmod (pgcdinv a c.modulus).2 c.modulus)

/-- `fdiv(a, b)` (41_field.md R159). -/
def fdiv (c : FieldCfg) (a b : Nat) : Except Err Nat := do
  let i ← finv c b
  return fmul c a i

/-- `fpow(a, e, neg)` (41_field.md R160): the exponent is −e when `neg`. -/
def fpow (c : FieldCfg) (a e : Nat) (neg : Bool) : Except Err Nat :=
  if e = 0 then .ok 1
  else if neg then do
    let i ← finv c a
    return powNat c i e
  else .ok (powNat c a e)

/-- `fsqrt(a)`: a root, or none for a non-residue (41_field.md R161). -/
def fsqrt (c : FieldCfg) (a : Nat) : Except Err (Option Nat) :=
  match c.kind with
  | .binary => .ok (some (powNat c a (2 ^ (c.degree - 1))))
  | .prime =>
    if a = 0 then .ok (some 0)
    else if powNat c a ((c.modulus - 1) / 2) ≠ 1 then .ok none
    else if c.modulus % 4 = 3 then .ok (some (powNat c a ((c.modulus + 1) / 4)))
    else .error .unsupported

/-! ### The checks of CFGF -/

/-- `prime_ok(p)` (40_control.md R132), with the rounds of CFG_MRR and the draw for a composite candidate. A
prime is accepted whatever the draw is. -/
def primeOk (p rounds : Nat) (draw : Bool) : Bool :=
  if 2 ^ Config.nbits ≤ p then false
  else if p < 3 ∨ p % 2 = 0 then false
  else if rounds = 0 then true
  else draw || decide (Nat.Prime p)

/-- `poly_ok(f, m)` (40_control.md R133). -/
def polyOk (f m : Nat) : Bool :=
  if m < 1 ∨ Config.nbits < m then false
  else if f.testBit m = false then false
  else if f >>> (m + 1) ≠ 0 then false
  else if 1 < m ∧ popcount f % 2 = 0 then false
  else true

end Sys2Proof.Machine
end

