-- ==== Sys2Proof/Machine/Operands.lean ====
section
/-! DEFINITION. Reading the operands of a command, with the errors of each form (10_state.md R36–R38), the
immediate (30_encoding.md R102) and the configuration a command needs (60_exceptions.md R264). -/

namespace Sys2Proof.Machine

/-- The command needs a committed field. -/
def needField (s : State) : Except Err Unit :=
  if s.field.valid then .ok () else .error .notConfigured

/-- The command needs a committed curve. -/
def needCurve (s : State) : Except Err Unit :=
  if s.curve.valid then .ok () else .error .notConfigured

/-- `srcF(i, needCanon)` (10_state.md R36). -/
def srcF (s : State) (i : FIdx) (needCanon : Bool) : Except Err Nat :=
  match (s.f i).tag with
  | .empty => .error .unwritten
  | .stale => .error .typeMismatch
  | .valid =>
    if needCanon && !canon s.field (s.f i).v.toNat then .error .nonCanonical
    else .ok (s.f i).v.toNat

/-- `srcP(j)` (10_state.md R37). -/
def srcP (s : State) (j : PIdx) : Except Err Point :=
  match (s.p j).tag with
  | .empty => .error .unwritten
  | .stale => .error .curveMismatch
  | .valid => .ok (s.p j).toPoint

/-- `srcK(k)` (10_state.md R38). -/
def srcK (s : State) (k : KIdx) : Except Err Nat :=
  match (s.k k).tag with
  | .empty => .error .unwritten
  | .valid => .ok (s.k k).v.toNat

/-- IMM12: `zext_NBITS(w[31:20])` (30_encoding.md R102). -/
def immValue (imm : BitVec 12) : Nat := imm.toNat

end Sys2Proof.Machine
end

