-- ==== Sys2Proof/Machine/PointArith.lean ====
section
/-! DEFINITION. The point primitives in the committed field and curve (43_point.md R200–R209) and the check of a
curve's coefficients (40_control.md R136). An integer constant of a formula stands for its `fnorm`. -/

namespace Sys2Proof.Machine

/-- `a`, `A` or `d` (10_state.md R44). -/
def CurveCfg.a (e : CurveCfg) : Nat := e.ca.toNat
/-- `b` or `B` (10_state.md R44). -/
def CurveCfg.b (e : CurveCfg) : Nat := e.cb.toNat

/-- `curve_ok(FORM, c1, c2)` (40_control.md R136). CFGC has refused M and E over a binary field before it asks. -/
def curveOk (c : FieldCfg) (form : CurveForm) (c1 c2 : Nat) : Bool :=
  match form, c.kind with
  | .weierstrass, .prime =>
    fadd c (fmul c (fnorm c 4) (fmul c c1 (fmul c c1 c1))) (fmul c (fnorm c 27) (fmul c c2 c2)) != 0
  | .weierstrass, .binary => c1 != 0
  | .montgomery, _ => fmul c c2 (fsub c (fmul c c1 c1) (fnorm c 4)) != 0
  | .edwards, _ => c1 != 0

/-- `ident()` (43_point.md R200). -/
def ident (e : CurveCfg) : Point :=
  match e.form with
  | .edwards => .affine 0 1
  | _ => .infinity

/-- `is_id(Pt)` (43_point.md R200). -/
def isId (e : CurveCfg) (pt : Point) : Bool := pt == ident e

/-- `on_curve(Pt)` (43_point.md R202). -/
def onCurve (c : FieldCfg) (e : CurveCfg) : Point → Bool
  | .infinity => e.form != .edwards
  | .affine x y =>
    match e.form with
    | .weierstrass =>
      fmul c y y == fadd c (fadd c (fmul c (fmul c x x) x) (fmul c e.a x)) e.b
    | .montgomery =>
      fmul c e.b (fmul c y y)
        == fadd c (fadd c (fmul c (fmul c x x) x) (fmul c e.a (fmul c x x))) x
    | .edwards =>
      fadd c (fmul c x x) (fmul c y y)
        == fadd c (fnorm c 1) (fmul c e.a (fmul c (fmul c x x) (fmul c y y)))

/-- `chk(Pt)` (43_point.md R203). -/
def chk (c : FieldCfg) (e : CurveCfg) (pt : Point) : Except Err Point :=
  if onCurve c e pt then .ok pt else .error .pointNotOnCurve

/-- `pneg(Pt)` (43_point.md R204). O under E, which no command produces, has no coordinates to negate and stays
(DESIGN CHOICE: notes/assumptions/5). -/
def pneg (c : FieldCfg) (e : CurveCfg) (pt : Point) : Point :=
  if isId e pt then ident e
  else
    match pt with
    | .infinity => .infinity
    | .affine x y =>
      match e.form, c.kind with
      | .weierstrass, .prime => .affine x (fneg c y)
      | .weierstrass, .binary => .affine x y
      | .montgomery, _ => .affine x (fneg c y)
      | .edwards, _ => .affine (fneg c x) y

/-- The chord or tangent of slope `l` through (x1, y1), whose other point on the line has the coordinate x2
(43_point.md R205–R207): `x3 = λ² − x1 − x2` for W and `x3 = Bλ² − A − x1 − x2` for M, `y3 = λ(x1 − x3) − y1`. -/
def lineThird (c : FieldCfg) (e : CurveCfg) (l x1 y1 x2 : Nat) : Point :=
  let x3 :=
    match e.form with
    | .montgomery => fsub c (fsub c (fsub c (fmul c e.b (fmul c l l)) e.a) x1) x2
    | _ => fsub c (fsub c (fmul c l l) x1) x2
  .affine x3 (fsub c (fmul c l (fsub c x1 x3)) y1)

/-- The slope of the tangent of form W at (x, y) (43_point.md R206). -/
def tangentW (c : FieldCfg) (e : CurveCfg) (x y : Nat) : Except Err Nat :=
  match c.kind with
  | .prime => fdiv c (fadd c (fmul c (fnorm c 3) (fmul c x x)) e.a) (fmul c (fnorm c 2) y)
  | .binary => fdiv c (fadd c (fmul c x x) e.a) y

/-- The slope of the tangent of form M at (x, y) (43_point.md R207). -/
def tangentM (c : FieldCfg) (e : CurveCfg) (x y : Nat) : Except Err Nat :=
  fdiv c
    (fadd c (fadd c (fmul c (fnorm c 3) (fmul c x x)) (fmul c (fmul c (fnorm c 2) e.a) x)) (fnorm c 1))
    (fmul c (fmul c (fnorm c 2) e.b) y)

/-- `pdbl_W(Pt)` (43_point.md R206). -/
def pdblW (c : FieldCfg) (e : CurveCfg) : Point → Except Err Point
  | .infinity => .ok .infinity
  | .affine x y =>
    if y = 0 then .ok .infinity
    else do
      let l ← tangentW c e x y
      return lineThird c e l x y x

/-- `pdbl_M(Pt)` (43_point.md R207). The denominator can be 0 when p is composite (DEDUCED: notes/assumptions/13). -/
def pdblM (c : FieldCfg) (e : CurveCfg) : Point → Except Err Point
  | .infinity => .ok .infinity
  | .affine x y =>
    if y = 0 then .ok .infinity
    else do
      let l ← tangentM c e x y
      return lineThird c e l x y x

/-- `padd_E(P1, P2)` (43_point.md R208). An operand O, which no command produces under E, gives O, which `chk`
refuses (DESIGN CHOICE: notes/assumptions/5). -/
def paddE (c : FieldCfg) (e : CurveCfg) : Point → Point → Except Err Point
  | .affine x1 y1, .affine x2 y2 =>
    let t := fmul c e.a (fmul c (fmul c x1 x2) (fmul c y1 y2))
    let dx := fadd c (fnorm c 1) t
    let dy := fsub c (fnorm c 1) t
    if dx = 0 ∨ dy = 0 then .ok (.affine 0 1)
    else do
      let x3 ← fdiv c (fadd c (fmul c x1 y2) (fmul c y1 x2)) dx
      let y3 ← fdiv c (fsub c (fmul c y1 y2) (fmul c x1 x2)) dy
      return .affine x3 y3
  | _, _ => .ok .infinity

/-- `pdbl` by form (43_point.md R209). -/
def pdbl (c : FieldCfg) (e : CurveCfg) (pt : Point) : Except Err Point :=
  match e.form with
  | .weierstrass => pdblW c e pt
  | .montgomery => pdblM c e pt
  | .edwards => paddE c e pt pt

/-- `padd_WM(P1, P2)` (43_point.md R205): the opposite-y test comes before the equal-point case. Over a binary field
points with equal x can differ in y (DEDUCED: notes/assumptions/18). -/
def paddWM (c : FieldCfg) (e : CurveCfg) : Point → Point → Except Err Point
  | .infinity, q => .ok q
  | .affine x1 y1, .infinity => .ok (.affine x1 y1)
  | .affine x1 y1, .affine x2 y2 =>
    if x1 = x2 then
      if y2 = fneg c y1 then .ok .infinity else pdbl c e (.affine x1 y1)
    else do
      let l ← fdiv c (fsub c y2 y1) (fsub c x2 x1)
      return lineThird c e l x1 y1 x2

/-- `padd` by form (43_point.md R209). -/
def padd (c : FieldCfg) (e : CurveCfg) (p q : Point) : Except Err Point :=
  match e.form with
  | .weierstrass => paddWM c e p q
  | .montgomery => paddWM c e p q
  | .edwards => paddE c e p q

/-- `padd` and the check of its result (43_point.md R203, R216). -/
def paddChk (c : FieldCfg) (e : CurveCfg) (p q : Point) : Except Err Point := do
  let r ← padd c e p q
  chk c e r

/-- `pdbl` and the check of its result (43_point.md R203, R217). -/
def pdblChk (c : FieldCfg) (e : CurveCfg) (p : Point) : Except Err Point := do
  let r ← pdbl c e p
  chk c e r

end Sys2Proof.Machine
end

