-- ==== Sys2Proof/Machine/Control.lean ====
section
/-! DEFINITION. NOP, CFGF and CFGC (40_control.md). None of them writes a flag. -/

namespace Sys2Proof.Machine

/-- NOP (40_control.md R130): it completes, and does nothing else. -/
def execNop (s : State) : Result := finish s (.ok s)

/-- The outcome of CFGF (40_control.md R131). -/
def cfgfOutcome (s : State) : Except Err State :=
  match s.staging.fkind with
  | .prime =>
    if primeOk s.staging.modulus.toNat s.staging.mrr.toNat s.mrDraw then
      .ok (s.commitField ⟨true, .prime, s.staging.modulus, 0⟩)
    else .error .invalidParameter
  | .binary =>
    if polyOk s.staging.modulus.toNat s.staging.m.toNat then
      .ok (s.commitField ⟨true, .binary, s.staging.modulus, s.staging.m⟩)
    else .error .invalidParameter

/-- CFGF (40_control.md R131): it needs no configuration and reads no register. -/
def execCfgf (s : State) : Result := finish s (cfgfOutcome s)

/-- The second coefficient of CFGC: F[RS2], which is not read for E (40_control.md R135). -/
def cfgcSecond (s : State) (form : CurveForm) (rs2 : FIdx) : Except Err Nat :=
  match form with
  | .edwards => .ok 0
  | _ => srcF s rs2 true

/-- The outcome of CFGC (40_control.md R135, R137). -/
def cfgcOutcome (form : CurveForm) (rs1 rs2 : FIdx) (s : State) : Except Err State := do
  needField s
  let c1 ← srcF s rs1 true
  let c2 ← cfgcSecond s form rs2
  if form ≠ .weierstrass ∧ s.field.kind = .binary then .error .unsupported
  else if curveOk s.field form c1 c2 then
    .ok (s.commitCurve ⟨true, form, BitVec.ofNat _ c1, BitVec.ofNat _ c2⟩)
  else .error .invalidCurveParameters

/-- CFGC (40_control.md R135). -/
def execCfgc (form : CurveForm) (rs1 rs2 : FIdx) (s : State) : Result :=
  finish s (cfgcOutcome form rs1 rs2 s)

end Sys2Proof.Machine
end

