-- ==== Sys2Proof/Machine/Flags.lean ====
section
/-! DEFINITION. Every flag computation (10_state.md R47). A command writes exactly the flags its rule names. -/

namespace Sys2Proof.Machine

/-- `setZL(v)`: Z and LSB of a value. -/
def State.setZL (s : State) (v : Nat) : State :=
  { s with status := { s.status with z := v == 0, lsb := v.testBit 0 } }

/-- The LSB that `setZLp` writes: bit 0 of y, and 0 for O. -/
def Point.lsb : Point → Bool
  | .infinity => false
  | .affine _ y => y.testBit 0

/-- `setZLp(Pt)`: Z and LSB of a point of the committed curve. -/
def State.setZLp (s : State) (pt : Point) : State :=
  { s with status := { s.status with z := isId s.curve pt, lsb := pt.lsb } }

/-- Z alone: the equality of FCMP and the identity test of PISINF. -/
def State.setZ (s : State) (b : Bool) : State :=
  { s with status := { s.status with z := b } }

/-- NR: FSQRT found no root. -/
def State.setNR (s : State) (b : Bool) : State :=
  { s with status := { s.status with nr := b } }

/-- ONC: the point of PONC is on the curve. -/
def State.setONC (s : State) (b : Bool) : State :=
  { s with status := { s.status with onc := b } }

end Sys2Proof.Machine
end

