-- ==== Sys2Proof/Machine/FieldCmd.lean ====
section
/-! DEFINITION. The F-register commands (41_field.md R162–R173). Each first needs a committed field, then reads
its operands in the order RS1, RS2. -/

namespace Sys2Proof.Machine

/-! ### The shapes -/

/-- `F[rd] <- r; setZL(r)` (10_state.md R39, R47). -/
def State.putF (s : State) (rd : FIdx) (r : Nat) : State := (s.writeF rd r).setZL r

/-- A command `op fd, fs1, fs2` over two canonical operands. -/
def binaryF (op : FieldCfg → Nat → Nat → Except Err Nat) (rd rs1 rs2 : FIdx) (s : State) : Result :=
  finish s do
    needField s
    let a ← srcF s rs1 true
    let b ← srcF s rs2 true
    let r ← op s.field a b
    return s.putF rd r

/-- A command `op fd, fs` over one operand, canonical when `needCanon`. -/
def unaryF (op : FieldCfg → Nat → Except Err Nat) (needCanon : Bool) (rd rs1 : FIdx) (s : State) :
    Result :=
  finish s do
    needField s
    let a ← srcF s rs1 needCanon
    let r ← op s.field a
    return s.putF rd r

/-! ### The commands -/

/-- FADD (41_field.md R162). -/
def execFadd (rd rs1 rs2 : FIdx) (s : State) : Result :=
  binaryF (fun c a b => .ok (fadd c a b)) rd rs1 rs2 s

/-- FSUB (41_field.md R163). -/
def execFsub (rd rs1 rs2 : FIdx) (s : State) : Result :=
  binaryF (fun c a b => .ok (fsub c a b)) rd rs1 rs2 s

/-- FMUL (41_field.md R164). -/
def execFmul (rd rs1 rs2 : FIdx) (s : State) : Result :=
  binaryF (fun c a b => .ok (fmul c a b)) rd rs1 rs2 s

/-- FDIV (41_field.md R165). -/
def execFdiv (rd rs1 rs2 : FIdx) (s : State) : Result := binaryF fdiv rd rs1 rs2 s

/-- FINV (41_field.md R166). -/
def execFinv (rd rs1 : FIdx) (s : State) : Result := unaryF finv true rd rs1 s

/-- FNEG (41_field.md R169). -/
def execFneg (rd rs1 : FIdx) (s : State) : Result :=
  unaryF (fun c a => .ok (fneg c a)) true rd rs1 s

/-- FPOW and FPOW.N (41_field.md R167). -/
def execFpow (rd rs1 : FIdx) (rs2 : KIdx) (neg : Bool) (s : State) : Result :=
  finish s do
    needField s
    let a ← srcF s rs1 true
    let e ← srcK s rs2
    let r ← fpow s.field a e neg
    return s.putF rd r

/-- What FSQRT writes: a root with its flags, or NR alone (41_field.md R168). -/
def State.putRoot (s : State) (rd : FIdx) : Option Nat → State
  | none => s.setNR true
  | some r => (s.putF rd r).setNR false

/-- FSQRT (41_field.md R168). -/
def execFsqrt (rd rs1 : FIdx) (s : State) : Result :=
  finish s do
    needField s
    let a ← srcF s rs1 true
    let r ← fsqrt s.field a
    return s.putRoot rd r

/-- FMOV (41_field.md R170): no canonical check, and the value unchanged. -/
def execFmov (rd rs1 : FIdx) (s : State) : Result := unaryF (fun _ v => .ok v) false rd rs1 s

/-- FRED (41_field.md R171): no canonical check. One row of the test vectors departs from the rule (DEDUCED:
notes/assumptions/12). -/
def execFred (rd rs1 : FIdx) (s : State) : Result :=
  unaryF (fun c v => .ok (fnorm c v)) false rd rs1 s

/-- FLDI (41_field.md R172). -/
def execFldi (rd : FIdx) (imm : BitVec 12) (s : State) : Result :=
  finish s do
    needField s
    return s.putF rd (fnorm s.field (immValue imm))

/-- FCMP (41_field.md R173): Z alone. -/
def execFcmp (rs1 rs2 : FIdx) (s : State) : Result :=
  finish s do
    needField s
    let a ← srcF s rs1 true
    let b ← srcF s rs2 true
    return s.setZ (a == b)

end Sys2Proof.Machine
end

