-- ==== Sys2Proof/Machine/MontArith.lean ====
section
/-! DEFINITION. The Montgomery primitives over a prime field, radix R = 2^NBITS (42_montmul.md R190). -/

namespace Sys2Proof.Machine

/-- The radix R (00_scope.md R20). -/
def montR : Nat := 2 ^ Config.nbits

/-- `R⁻¹` modulo p (42_montmul.md R190). For an odd p the inverse of 2 is (p + 1) / 2, and R is 2^NBITS.
DEDUCED: notes/assumptions/15. -/
def montRinv (c : FieldCfg) : Nat := ((c.modulus + 1) / 2) ^ Config.nbits % c.modulus

/-- `mont(a, b)` (42_montmul.md R190). -/
def mont (c : FieldCfg) (a b : Nat) : Nat := a * b * montRinv c % c.modulus
/-- `mtom(a)` (42_montmul.md R190). -/
def mtom (c : FieldCfg) (a : Nat) : Nat := a * montR % c.modulus
/-- `mfrom(a)` (42_montmul.md R190). -/
def mfrom (c : FieldCfg) (a : Nat) : Nat := a * montRinv c % c.modulus

end Sys2Proof.Machine
end

