-- ==== Sys2Proof/Machine/MontCmd.lean ====
section
/-! DEFINITION. MMUL, MTOM and MFROM (42_montmul.md R191–R193). The refusal of a binary field comes after the
operand reads (60_exceptions.md R264). -/

namespace Sys2Proof.Machine

/-- `r`, over a prime field (42_montmul.md §2). -/
def primeOnly (c : FieldCfg) (r : Nat) : Except Err Nat :=
  match c.kind with
  | .prime => .ok r
  | .binary => .error .unsupported

/-- MMUL (42_montmul.md R191). -/
def execMmul (rd rs1 rs2 : FIdx) (s : State) : Result :=
  binaryF (fun c a b => primeOnly c (mont c a b)) rd rs1 rs2 s

/-- MTOM (42_montmul.md R192). -/
def execMtom (rd rs1 : FIdx) (s : State) : Result :=
  unaryF (fun c a => primeOnly c (mtom c a)) true rd rs1 s

/-- MFROM (42_montmul.md R193). -/
def execMfrom (rd rs1 : FIdx) (s : State) : Result :=
  unaryF (fun c a => primeOnly c (mfrom c a)) true rd rs1 s

end Sys2Proof.Machine
end

