-- ==== Sys2Proof/Machine/PointCmd.lean ====
section
/-! DEFINITION. The point commands (43_point.md R210–R219). Each first needs a committed curve. -/

namespace Sys2Proof.Machine

/-! ### The shapes -/

/-- `P[rd] <- Pt; setZLp(Pt)` (10_state.md R39, R47). -/
def State.putP (s : State) (rd : PIdx) (pt : Point) : State := (s.writeP rd pt).setZLp pt

/-- A command `op pd, ps`, its result checked (43_point.md R203). -/
def unaryP (op : FieldCfg → CurveCfg → Point → Except Err Point) (rd rs1 : PIdx) (s : State) :
    Result :=
  finish s do
    needCurve s
    let a ← srcP s rs1
    let r ← op s.field s.curve a
    return s.putP rd r

/-- PGETX and PGETY: a coordinate of a point, which O does not have (43_point.md R212). -/
def getCoord (sel : Nat → Nat → Nat) (rd : FIdx) (rs1 : PIdx) (s : State) : Result :=
  finish s do
    needCurve s
    let pt ← srcP s rs1
    match pt with
    | .infinity => .error .identityCoord
    | .affine x y => .ok (s.putF rd (sel x y))

/-! ### The commands -/

/-- PSET (43_point.md R210). -/
def execPset (rd : PIdx) (rs1 rs2 : FIdx) (s : State) : Result :=
  finish s do
    needCurve s
    let x ← srcF s rs1 true
    let y ← srcF s rs2 true
    let pt ← chk s.field s.curve (.affine x y)
    return s.putP rd pt

/-- PINF (43_point.md R211). -/
def execPinf (rd : PIdx) (s : State) : Result :=
  finish s do
    needCurve s
    let pt ← chk s.field s.curve (ident s.curve)
    return s.putP rd pt

/-- PGETX (43_point.md R212). -/
def execPgetx (rd : FIdx) (rs1 : PIdx) (s : State) : Result := getCoord (fun x _ => x) rd rs1 s

/-- PGETY (43_point.md R213). -/
def execPgety (rd : FIdx) (rs1 : PIdx) (s : State) : Result := getCoord (fun _ y => y) rd rs1 s

/-- PMOV (43_point.md R214). -/
def execPmov (rd rs1 : PIdx) (s : State) : Result := unaryP chk rd rs1 s

/-- PNEG (43_point.md R215). -/
def execPneg (rd rs1 : PIdx) (s : State) : Result :=
  unaryP (fun c e pt => chk c e (pneg c e pt)) rd rs1 s

/-- PADD (43_point.md R216). -/
def execPadd (rd rs1 rs2 : PIdx) (s : State) : Result :=
  finish s do
    needCurve s
    let a ← srcP s rs1
    let b ← srcP s rs2
    let r ← paddChk s.field s.curve a b
    return s.putP rd r

/-- PDBL (43_point.md R217). -/
def execPdbl (rd rs1 : PIdx) (s : State) : Result := unaryP pdblChk rd rs1 s

/-- PONC (43_point.md R218): ONC alone. -/
def execPonc (rs1 : PIdx) (s : State) : Result :=
  finish s do
    needCurve s
    let pt ← srcP s rs1
    return s.setONC (onCurve s.field s.curve pt)

/-- PISINF (43_point.md R219): Z alone. -/
def execPisinf (rs1 : PIdx) (s : State) : Result :=
  finish s do
    needCurve s
    let pt ← srcP s rs1
    return s.setZ (isId s.curve pt)

end Sys2Proof.Machine
end

