-- ==== Sys2Proof/Machine/ScalarArith.lean ====
section
/-! DEFINITION. Scalar multiplication (44_scalar.md R240–R242). -/

namespace Sys2Proof.Machine

/-- The addition of one bit of double-and-add: into the running result, or none. -/
def addBit (c : FieldCfg) (e : CurveCfg) (bit : Bool) (r a : Point) : Except Err Point :=
  if bit then paddChk c e r a else .ok r

/-- The loop of double-and-add with addend `a` and running result `r` (44_scalar.md R240), for a scalar of `n`
bits or fewer. The addend is not doubled after the highest set bit. -/
def smulDaLoop (c : FieldCfg) (e : CurveCfg) : Nat → Nat → Point → Point → Except Err Point
  | 0, _, _, r => .ok r
  | n + 1, k, a, r => do
    let r' ← addBit c e (k % 2 == 1) r a
    if k / 2 = 0 then return r'
    else do
      let a' ← pdblChk c e a
      smulDaLoop c e n (k / 2) a' r'

/-- `smul_da(P, k)` (44_scalar.md R240). -/
def smulDa (c : FieldCfg) (e : CurveCfg) (p : Point) (k : Nat) : Except Err Point :=
  if k = 0 ∨ isId e p = true then .ok (ident e) else smulDaLoop c e (k.log2 + 1) k p (ident e)

/-- The ladder over bit positions n−1 down to 0, with the running points R0 and R1 (44_scalar.md R241). -/
def smulMlLoop (c : FieldCfg) (e : CurveCfg) (k : Nat) : Nat → Point → Point → Except Err Point
  | 0, r0, _ => .ok r0
  | i + 1, r0, r1 => do
    let sum ← paddChk c e r0 r1
    if k.testBit i then do
      let dbl ← pdblChk c e r1
      smulMlLoop c e k i sum dbl
    else do
      let dbl ← pdblChk c e r0
      smulMlLoop c e k i dbl sum

/-- `smul_ml(P, k)`: the ladder over all NBITS bit positions (44_scalar.md R241). -/
def smulMl (c : FieldCfg) (e : CurveCfg) (p : Point) (k : Nat) : Except Err Point :=
  smulMlLoop c e k Config.nbits (ident e) p

/-- `smul(P, k)`, by curve form (44_scalar.md R242). On an Edwards curve with d = 1 the laws of R249 can fail
(DEDUCED: notes/assumptions/14). -/
def smul (c : FieldCfg) (e : CurveCfg) (p : Point) (k : Nat) : Except Err Point :=
  match e.form with
  | .montgomery => smulMl c e p k
  | .weierstrass => smulDa c e p k
  | .edwards => smulDa c e p k

end Sys2Proof.Machine
end

