-- ==== Sys2Proof/Machine/ScalarCmd.lean ====
section
/-! DEFINITION. Scalar multiplication and the scalar-register commands (44_scalar.md R243–R248). -/

namespace Sys2Proof.Machine

/-- `K[rd] <- v; setZL(v)` (10_state.md R39, R47). -/
def State.putK (s : State) (rd : KIdx) (v : Nat) : State := (s.writeK rd v).setZL v

/-- A command `op pd, ps, kn`: the point is read first, then the scalar, which is not reduced (44_scalar.md §2). -/
def scalarMul (op : FieldCfg → CurveCfg → Point → Nat → Except Err Point) (rd rs1 : PIdx) (rs2 : KIdx)
    (s : State) : Result :=
  finish s do
    needCurve s
    let pt ← srcP s rs1
    let k ← srcK s rs2
    let r ← op s.field s.curve pt k
    return s.putP rd r

/-- PSMUL (44_scalar.md R243). -/
def execPsmul (rd rs1 : PIdx) (rs2 : KIdx) (s : State) : Result := scalarMul smul rd rs1 rs2 s

/-- PSMULDA (44_scalar.md R244). -/
def execPsmulda (rd rs1 : PIdx) (rs2 : KIdx) (s : State) : Result := scalarMul smulDa rd rs1 rs2 s

/-- PSMULML (44_scalar.md R245). -/
def execPsmulml (rd rs1 : PIdx) (rs2 : KIdx) (s : State) : Result := scalarMul smulMl rd rs1 rs2 s

/-- KLDI (44_scalar.md R246): it needs no configuration. -/
def execKldi (rd : KIdx) (imm : BitVec 12) (s : State) : Result :=
  finish s (.ok (s.putK rd (immValue imm)))

/-- KFROMF (44_scalar.md R247): no canonical check. -/
def execKfromf (rd : KIdx) (rs1 : FIdx) (s : State) : Result :=
  finish s do
    needField s
    let v ← srcF s rs1 false
    return s.putK rd v

/-- FFROMK (44_scalar.md R248). -/
def execFfromk (rd : FIdx) (rs1 : KIdx) (s : State) : Result :=
  finish s do
    needField s
    let v ← srcK s rs1
    return s.putF rd (fnorm s.field v)

end Sys2Proof.Machine
end

