-- ==== Sys2Proof/Machine/Dispatch.lean ====
section
/-! DEFINITION. One arm for each command: its meaning. -/

namespace Sys2Proof.Machine

def exec (i : Instr) (s : State) : Host.Outcome State Fault Refusal :=
  match i with
  | .nop => Sys2Proof.Machine.execNop s
  | .cfgf => Sys2Proof.Machine.execCfgf s
  | .cfgc form rs1 rs2 => Sys2Proof.Machine.execCfgc form rs1 rs2 s
  | .fadd rd rs1 rs2 => Sys2Proof.Machine.execFadd rd rs1 rs2 s
  | .fsub rd rs1 rs2 => Sys2Proof.Machine.execFsub rd rs1 rs2 s
  | .fmul rd rs1 rs2 => Sys2Proof.Machine.execFmul rd rs1 rs2 s
  | .fdiv rd rs1 rs2 => Sys2Proof.Machine.execFdiv rd rs1 rs2 s
  | .finv rd rs1 => Sys2Proof.Machine.execFinv rd rs1 s
  | .fneg rd rs1 => Sys2Proof.Machine.execFneg rd rs1 s
  | .fpow rd rs1 rs2 neg => Sys2Proof.Machine.execFpow rd rs1 rs2 neg s
  | .fsqrt rd rs1 => Sys2Proof.Machine.execFsqrt rd rs1 s
  | .fmov rd rs1 => Sys2Proof.Machine.execFmov rd rs1 s
  | .fred rd rs1 => Sys2Proof.Machine.execFred rd rs1 s
  | .fldi rd imm => Sys2Proof.Machine.execFldi rd imm s
  | .fcmp rs1 rs2 => Sys2Proof.Machine.execFcmp rs1 rs2 s
  | .mmul rd rs1 rs2 => Sys2Proof.Machine.execMmul rd rs1 rs2 s
  | .mtom rd rs1 => Sys2Proof.Machine.execMtom rd rs1 s
  | .mfrom rd rs1 => Sys2Proof.Machine.execMfrom rd rs1 s
  | .pset rd rs1 rs2 => Sys2Proof.Machine.execPset rd rs1 rs2 s
  | .pinf rd => Sys2Proof.Machine.execPinf rd s
  | .pgetx rd rs1 => Sys2Proof.Machine.execPgetx rd rs1 s
  | .pgety rd rs1 => Sys2Proof.Machine.execPgety rd rs1 s
  | .pmov rd rs1 => Sys2Proof.Machine.execPmov rd rs1 s
  | .pneg rd rs1 => Sys2Proof.Machine.execPneg rd rs1 s
  | .padd rd rs1 rs2 => Sys2Proof.Machine.execPadd rd rs1 rs2 s
  | .pdbl rd rs1 => Sys2Proof.Machine.execPdbl rd rs1 s
  | .ponc rs1 => Sys2Proof.Machine.execPonc rs1 s
  | .pisinf rs1 => Sys2Proof.Machine.execPisinf rs1 s
  | .psmul rd rs1 rs2 => Sys2Proof.Machine.execPsmul rd rs1 rs2 s
  | .psmulda rd rs1 rs2 => Sys2Proof.Machine.execPsmulda rd rs1 rs2 s
  | .psmulml rd rs1 rs2 => Sys2Proof.Machine.execPsmulml rd rs1 rs2 s
  | .kldi rd imm => Sys2Proof.Machine.execKldi rd imm s
  | .kfromf rd rs1 => Sys2Proof.Machine.execKfromf rd rs1 s
  | .ffromk rd rs1 => Sys2Proof.Machine.execFfromk rd rs1 s

end Sys2Proof.Machine
end

