-- ==== Sys2Proof/Machine/Engine.lean ====
section
/-! DEFINITION. The engine's step (10_state.md R42) and one turn of the schedule (00_scope.md R22). -/

namespace Sys2Proof.Machine

/-- The completion of the in-flight command: decode CUR_CMD, before any operand is read, then the command's
meaning. An illegal word completes with IllegalCommand (30_encoding.md R105, R108). -/
def completeCommand (s : State) : Result :=
  match decode s.curCmd with
  | .ok i => exec i s
  | .error _ => .next (s.raiseError .illegalCommand)

/-- An engine step with the given primality draw: it does nothing while idle, or completes the in-flight command
(00_scope.md R22). -/
def engineStep (draw : Bool) (s : State) : Result :=
  if s.status.busy then completeCommand { s with mrDraw := draw } else .next s

/-- One turn. A turn `working` is an engine step with no effect that anyone can observe (70_reset_and_hazards.md
R304). -/
def takeTurn (t : Turn) (s : State) : Result :=
  match t with
  | .host a => hostAccess a s
  | .engine draw => engineStep draw s
  | .working => .next s
  | .hwReset => .next s.resetBlock

/-- The step when the schedule holds no turn: no host accesses the block, and the engine completes the command
in flight, if any (weak fairness, 10_state.md R42); its draw is free. -/
def freeStep (s : State) : Result :=
  if s.status.busy then
    engineStep (Config.mrDraw s.freeTurns) { s with freeTurns := s.freeTurns + 1 }
  else .next s

/-- The state in which the next step completes the command word `w`: it is in flight, and the engine has the
next turn, with the draw that the state holds. -/
def State.issueNext (s : State) (w : BusWord) : State :=
  { s with
    curCmd := w
    status := { s.status with busy := true }
    schedule := .engine s.mrDraw :: s.schedule }

end Sys2Proof.Machine
end

