-- ==== Sys2Proof/Machine/Step.lean ====
section
/-! DEFINITION. The step of the machine: the first turn of the schedule (00_scope.md R22, 20_memory.md R84). -/

namespace Sys2Proof.Machine

/-- One step. -/
def step (s : State) : Host.Outcome State Fault Refusal :=
  match s.schedule with
  | [] => freeStep s
  | t :: rest => takeTurn t { s with schedule := rest }

/-- `s` with a command word in flight that the very next step runs. The block fetches nothing (20_memory.md R87):
a command comes from the host's CMD write, and this is the state right after its acceptance, but for CMDCNT,
which running the command does not need (notes/assumptions/6). -/
def State.withFetchWord (s : State) (nbits w : Nat) : State :=
  s.issueNext (BitVec.ofNat 32 (w % 2 ^ nbits))

end Sys2Proof.Machine
end

