-- ==== Sys2Proof/Safety.lean ====
section
/-! DEFINITION. The terms in which statements speak of the machine: the operands a command reads, the two ways a
command ends and what each leaves alone, and the invariant of the state. -/

namespace Sys2Proof.Machine

/-! ### Operands -/

/-- F[i] is VALID and holds `v` (10_state.md R36). -/
abbrev HoldsF (s : State) (i : FIdx) (v : Nat) : Prop := (s.f i).tag = .valid ∧ (s.f i).v.toNat = v

/-- F[i] is VALID and holds the canonical value `v` (10_state.md R36, 41_field.md R150). -/
abbrev HoldsCanon (s : State) (i : FIdx) (v : Nat) : Prop := HoldsF s i v ∧ canon s.field v = true

/-- K[k] is VALID and holds `v` (10_state.md R38). -/
abbrev HoldsK (s : State) (k : KIdx) (v : Nat) : Prop := (s.k k).tag = .valid ∧ (s.k k).v.toNat = v

/-- P[j] is VALID and holds the point `pt` (10_state.md R37). -/
abbrev HoldsP (s : State) (j : PIdx) (pt : Point) : Prop := (s.p j).tag = .valid ∧ (s.p j).toPoint = pt

/-! ### What a command leaves alone -/

/-- No F, P or K register differs, tags included. -/
def SameF (s t : State) : Prop := ∀ i, t.f i = s.f i
def SameP (s t : State) : Prop := ∀ j, t.p j = s.p j
def SameK (s t : State) : Prop := ∀ k, t.k k = s.k k

/-- The committed field and curve do not differ. -/
def SameConfig (s t : State) : Prop := t.field = s.field ∧ t.curve = s.curve

/-- What no command writes: CUR_CMD, CMDCNT, the staging configuration, IRQEN, STATUS.OVF, and the inputs and
output of the model. -/
structure SameOutside (s t : State) : Prop where
  curCmd : t.curCmd = s.curCmd
  cmdcnt : t.cmdcnt = s.cmdcnt
  staging : t.staging = s.staging
  irqen : t.irqen = s.irqen
  ovf : t.status.ovf = s.status.ovf
  schedule : t.schedule = s.schedule
  mrDraw : t.mrDraw = s.mrDraw
  freeTurns : t.freeTurns = s.freeTurns
  readData : t.readData = s.readData

/-- A command ended without an error: DONE is set, BUSY is clear, and the error latch is as it was
(10_state.md R42, 60_exceptions.md R268). -/
structure Succeeds (s t : State) : Prop where
  done : t.status.done = true
  busy : t.status.busy = false
  err : t.status.err = s.status.err
  errcode : t.status.errcode = s.status.errcode
  errcmd : t.errcmd = s.errcmd
  outside : SameOutside s t

/-- A command ended with the error of this code: the state `t` is `s` with the error latch written, DONE set and
BUSY clear, and with nothing else changed (60_exceptions.md R262). -/
def Raises (s t : State) (code : Nat) : Prop :=
  t = { s with
    status :=
      { s.status with err := true, errcode := BitVec.ofNat 4 code, done := true, busy := false }
    errcmd := s.curCmd }

/-! ### The flags -/

/-- Z and LSB of the value `v` are written, NR and ONC are not (`setZL`, 10_state.md R47). -/
def FlagsOfValue (s t : State) (v : Nat) : Prop :=
  t.status.z = decide (v = 0) ∧ t.status.lsb = decide (v % 2 = 1) ∧ t.status.nr = s.status.nr
    ∧ t.status.onc = s.status.onc

/-- Z and LSB of the point `pt` are written, NR and ONC are not (`setZLp`, 10_state.md R47). The identity is O
under W and M, and (0, 1) under E (43_point.md R200). -/
def FlagsOfPoint (s t : State) (pt : Point) : Prop :=
  (t.status.z = true ↔
    (s.curve.form ≠ .edwards ∧ pt = .infinity) ∨ (s.curve.form = .edwards ∧ pt = .affine 0 1))
    ∧ (t.status.lsb = true ↔ ∃ x y, pt = .affine x y ∧ y % 2 = 1)
    ∧ t.status.nr = s.status.nr ∧ t.status.onc = s.status.onc

/-! ### Results -/

/-- A command ended by writing `v` to F[rd], with its flags, and nothing else (10_state.md R39). -/
structure WritesF (s t : State) (rd : FIdx) (v : Nat) : Prop where
  succeeds : Succeeds s t
  value : t.f rd = ⟨BitVec.ofNat Config.nbits v, .valid⟩
  others : ∀ i, i ≠ rd → t.f i = s.f i
  points : SameP s t
  scalars : SameK s t
  config : SameConfig s t
  flags : FlagsOfValue s t v

/-- A command ended by writing `v` to K[rd], with its flags, and nothing else (10_state.md R39). -/
structure WritesK (s t : State) (rd : KIdx) (v : Nat) : Prop where
  succeeds : Succeeds s t
  value : t.k rd = ⟨BitVec.ofNat Config.nbits v, .valid⟩
  others : ∀ k, k ≠ rd → t.k k = s.k k
  fields : SameF s t
  points : SameP s t
  config : SameConfig s t
  flags : FlagsOfValue s t v

/-- A command ended by writing the point `pt` to P[rd], with its flags, and nothing else: O is written as inf = 1,
x = 0, y = 0 (10_state.md R39). -/
structure WritesP (s t : State) (rd : PIdx) (pt : Point) : Prop where
  succeeds : Succeeds s t
  infinity : pt = .infinity → t.p rd = ⟨0, 0, true, .valid⟩
  affine : ∀ x y, pt = .affine x y →
    t.p rd = ⟨BitVec.ofNat Config.nbits x, BitVec.ofNat Config.nbits y, false, .valid⟩
  others : ∀ j, j ≠ rd → t.p j = s.p j
  fields : SameF s t
  scalars : SameK s t
  config : SameConfig s t
  flags : FlagsOfPoint s t pt

/-- A command ended without writing a register or the configuration; its flags are said apart. -/
structure WritesNoRegister (s t : State) : Prop where
  succeeds : Succeeds s t
  fields : SameF s t
  points : SameP s t
  scalars : SameK s t
  config : SameConfig s t

/-! ### The operands of the commands, in the order in which they are read (60_exceptions.md R261, R264) -/

/-- One operand read of a command. -/
inductive Operand where
  | f (i : FIdx) (needCanon : Bool)
  | p (j : PIdx)
  | k (k : KIdx)

/-- The operands a command reads. -/
def operands : Instr → List Operand
  | .nop | .cfgf | .fldi _ _ | .pinf _ | .kldi _ _ => []
  | .cfgc .edwards rs1 _ => [.f rs1 true]
  | .cfgc _ rs1 rs2 | .fadd _ rs1 rs2 | .fsub _ rs1 rs2 | .fmul _ rs1 rs2 | .fdiv _ rs1 rs2
  | .fcmp rs1 rs2 | .mmul _ rs1 rs2 | .pset _ rs1 rs2 => [.f rs1 true, .f rs2 true]
  | .finv _ rs1 | .fneg _ rs1 | .fsqrt _ rs1 | .mtom _ rs1 | .mfrom _ rs1 => [.f rs1 true]
  | .fmov _ rs1 | .fred _ rs1 | .kfromf _ rs1 => [.f rs1 false]
  | .fpow _ rs1 rs2 _ => [.f rs1 true, .k rs2]
  | .pgetx _ rs1 | .pgety _ rs1 | .pmov _ rs1 | .pneg _ rs1 | .pdbl _ rs1 | .ponc rs1
  | .pisinf rs1 => [.p rs1]
  | .padd _ rs1 rs2 => [.p rs1, .p rs2]
  | .psmul _ rs1 rs2 | .psmulda _ rs1 rs2 | .psmulml _ rs1 rs2 => [.p rs1, .k rs2]
  | .ffromk _ rs1 => [.k rs1]

/-- The error code that reading an operand meets, if any (10_state.md R36–R38). -/
def operandError (s : State) : Operand → Option Nat
  | .f i needCanon =>
    match (s.f i).tag with
    | .empty => some 9
    | .stale => some 4
    | .valid => if needCanon = true ∧ canon s.field (s.f i).v.toNat = false then some 10 else none
  | .p j =>
    match (s.p j).tag with
    | .empty => some 9
    | .stale => some 5
    | .valid => none
  | .k k =>
    match (s.k k).tag with
    | .empty => some 9
    | .valid => none

/-- The commands that need a committed field (60_exceptions.md R261). -/
def needsField : Instr → Bool
  | .cfgc _ _ _ | .fadd _ _ _ | .fsub _ _ _ | .fmul _ _ _ | .fdiv _ _ _ | .finv _ _ | .fneg _ _
  | .fpow _ _ _ _ | .fsqrt _ _ | .fmov _ _ | .fred _ _ | .fldi _ _ | .fcmp _ _ | .mmul _ _ _
  | .mtom _ _ | .mfrom _ _ | .kfromf _ _ | .ffromk _ _ => true
  | .nop | .cfgf | .pset _ _ _ | .pinf _ | .pgetx _ _ | .pgety _ _ | .pmov _ _ | .pneg _ _
  | .padd _ _ _ | .pdbl _ _ | .ponc _ | .pisinf _ | .psmul _ _ _ | .psmulda _ _ _ | .psmulml _ _ _
  | .kldi _ _ => false

/-- The commands that need a committed curve (60_exceptions.md R261). -/
def needsCurve : Instr → Bool
  | .pset _ _ _ | .pinf _ | .pgetx _ _ | .pgety _ _ | .pmov _ _ | .pneg _ _ | .padd _ _ _
  | .pdbl _ _ | .ponc _ | .pisinf _ | .psmul _ _ _ | .psmulda _ _ _ | .psmulml _ _ _ => true
  | .nop | .cfgf | .cfgc _ _ _ | .fadd _ _ _ | .fsub _ _ _ | .fmul _ _ _ | .fdiv _ _ _ | .finv _ _
  | .fneg _ _ | .fpow _ _ _ _ | .fsqrt _ _ | .fmov _ _ | .fred _ _ | .fldi _ _ | .fcmp _ _
  | .mmul _ _ _ | .mtom _ _ | .mfrom _ _ | .kldi _ _ | .kfromf _ _ | .ffromk _ _ => false

/-- The configuration that a command needs is committed. -/
abbrev Configured (s : State) (i : Instr) : Prop :=
  (needsField i = true → s.field.valid = true) ∧ (needsCurve i = true → s.curve.valid = true)

/-- The error codes a command can raise (60_exceptions.md R261), IllegalCommand apart. -/
def errorCodes : Instr → List Nat
  | .nop | .kldi _ _ => []
  | .cfgf => [1]
  | .cfgc _ _ _ => [11, 9, 4, 10, 7, 2]
  | .fadd _ _ _ | .fsub _ _ _ | .fmul _ _ _ | .fneg _ _ | .fcmp _ _ => [11, 9, 4, 10]
  | .fdiv _ _ _ | .finv _ _ | .fpow _ _ _ _ => [11, 9, 4, 10, 6, 12]
  | .fsqrt _ _ | .mmul _ _ _ | .mtom _ _ | .mfrom _ _ => [11, 9, 4, 10, 7]
  | .fmov _ _ | .fred _ _ | .kfromf _ _ => [11, 9, 4]
  | .fldi _ _ | .pinf _ => [11]
  | .pset _ _ _ => [11, 9, 4, 10, 3]
  | .pgetx _ _ | .pgety _ _ => [11, 9, 5, 13]
  | .pmov _ _ | .pneg _ _ | .ponc _ | .pisinf _ => [11, 9, 5]
  | .padd _ _ _ | .pdbl _ _ | .psmul _ _ _ | .psmulda _ _ _ | .psmulml _ _ _ => [11, 9, 5, 12, 3]
  | .ffromk _ _ => [11, 9]

/-! ### What a command names -/

/-- The F register a command writes. -/
def destF : Instr → Option FIdx
  | .fadd rd _ _ | .fsub rd _ _ | .fmul rd _ _ | .fdiv rd _ _ | .finv rd _ | .fneg rd _
  | .fpow rd _ _ _ | .fsqrt rd _ | .fmov rd _ | .fred rd _ | .fldi rd _ | .mmul rd _ _ | .mtom rd _
  | .mfrom rd _ | .pgetx rd _ | .pgety rd _ | .ffromk rd _ => some rd
  | .nop | .cfgf | .cfgc _ _ _ | .fcmp _ _ | .pset _ _ _ | .pinf _ | .pmov _ _ | .pneg _ _
  | .padd _ _ _ | .pdbl _ _ | .ponc _ | .pisinf _ | .psmul _ _ _ | .psmulda _ _ _ | .psmulml _ _ _
  | .kldi _ _ | .kfromf _ _ => none

/-- The P register a command writes (10_state.md R59). -/
def destP : Instr → Option PIdx
  | .pset rd _ _ | .pinf rd | .pmov rd _ | .pneg rd _ | .padd rd _ _ | .pdbl rd _ | .psmul rd _ _
  | .psmulda rd _ _ | .psmulml rd _ _ => some rd
  | .nop | .cfgf | .cfgc _ _ _ | .fadd _ _ _ | .fsub _ _ _ | .fmul _ _ _ | .fdiv _ _ _ | .finv _ _
  | .fneg _ _ | .fpow _ _ _ _ | .fsqrt _ _ | .fmov _ _ | .fred _ _ | .fldi _ _ | .fcmp _ _
  | .mmul _ _ _ | .mtom _ _ | .mfrom _ _ | .pgetx _ _ | .pgety _ _ | .ponc _ | .pisinf _ | .kldi _ _
  | .kfromf _ _ | .ffromk _ _ => none

/-- The K register a command writes. -/
def destK : Instr → Option KIdx
  | .kldi rd _ | .kfromf rd _ => some rd
  | .nop | .cfgf | .cfgc _ _ _ | .fadd _ _ _ | .fsub _ _ _ | .fmul _ _ _ | .fdiv _ _ _ | .finv _ _
  | .fneg _ _ | .fpow _ _ _ _ | .fsqrt _ _ | .fmov _ _ | .fred _ _ | .fldi _ _ | .fcmp _ _
  | .mmul _ _ _ | .mtom _ _ | .mfrom _ _ | .pset _ _ _ | .pinf _ | .pgetx _ _ | .pgety _ _ | .pmov _ _
  | .pneg _ _ | .padd _ _ _ | .pdbl _ _ | .ponc _ | .pisinf _ | .psmul _ _ _ | .psmulda _ _ _
  | .psmulml _ _ _ | .ffromk _ _ => none

/-- The four flags (10_state.md R47). -/
inductive Flag where
  | z | lsb | nr | onc
deriving DecidableEq, Repr

/-- A flag of STATUS. -/
def flagOf (st : Status) : Flag → Bool
  | .z => st.z
  | .lsb => st.lsb
  | .nr => st.nr
  | .onc => st.onc

/-- The flags a command writes: the table of 10_state.md R47. FSQRT writes Z and LSB only with a root. -/
def flagsWritten : Instr → List Flag
  | .nop | .cfgf | .cfgc _ _ _ => []
  | .fadd _ _ _ | .fsub _ _ _ | .fmul _ _ _ | .fdiv _ _ _ | .finv _ _ | .fpow _ _ _ _ | .fneg _ _
  | .fmov _ _ | .fred _ _ | .fldi _ _ | .mmul _ _ _ | .mtom _ _ | .mfrom _ _ | .pgetx _ _ | .pgety _ _
  | .kldi _ _ | .kfromf _ _ | .ffromk _ _ => [.z, .lsb]
  | .fsqrt _ _ => [.nr, .z, .lsb]
  | .fcmp _ _ => [.z]
  | .pset _ _ _ | .pinf _ | .pmov _ _ | .pneg _ _ | .padd _ _ _ | .pdbl _ _ | .psmul _ _ _
  | .psmulda _ _ _ | .psmulml _ _ _ => [.z, .lsb]
  | .pisinf _ => [.z]
  | .ponc _ => [.onc]

/-! ### The invariant -/

/-- What CFGF has checked of a committed field (40_control.md R134, 10_state.md R43): every check but the primality
test, which may accept a composite (R132). -/
def FieldWf (c : FieldCfg) : Prop :=
  match c.kind with
  | .prime => 3 ≤ c.modulus ∧ c.modulus % 2 = 1 ∧ c.modulus < 2 ^ Config.nbits ∧ c.degree = 0
  | .binary =>
    1 ≤ c.degree ∧ c.degree ≤ Config.nbits ∧ c.modulus.testBit c.degree = true
      ∧ c.modulus < 2 ^ (c.degree + 1)
      ∧ (1 < c.degree → (List.range (c.degree + 1)).countP (fun i => c.modulus.testBit i) % 2 = 1)

/-- What CFGC has checked of a committed curve (40_control.md R135–R137, 10_state.md R44). -/
structure CurveWf (c : FieldCfg) (e : CurveCfg) : Prop where
  canonA : canon c e.a = true
  canonB : canon c e.b = true
  ok : curveOk c e.form e.a e.b = true
  primeForm : e.form ≠ .weierstrass → c.kind = .prime
  edwardsB : e.form = .edwards → e.b = 0

/-- The coordinates of a point are canonical (43_point.md R201). -/
def CanonPoint (c : FieldCfg) : Point → Prop
  | .infinity => True
  | .affine x y => canon c x = true ∧ canon c y = true

/-- A point value of the committed curve (43_point.md R201, R202). -/
def PointWf (c : FieldCfg) (e : CurveCfg) (pt : Point) : Prop :=
  CanonPoint c pt ∧ onCurve c e pt = true

/-- The invariant of the state. -/
structure Inv (s : State) : Prop where
  /-- a committed field has passed the checks of CFGF -/
  field : s.field.valid = true → FieldWf s.field
  /-- a committed curve has a committed field and has passed the checks of CFGC -/
  curve : s.curve.valid = true → s.field.valid = true ∧ CurveWf s.field s.curve
  /-- every VALID point register holds a point of the committed curve (10_state.md R59) -/
  points : ∀ j, (s.p j).tag = .valid →
    s.curve.valid = true ∧ PointWf s.field s.curve (s.p j).toPoint
  /-- O is held with x = 0 and y = 0 (10_state.md R39) -/
  infZero : ∀ j, (s.p j).inf = true → (s.p j).x = 0 ∧ (s.p j).y = 0
  /-- ERRCODE is 0 exactly when ERR is clear (10_state.md R46) -/
  latch : s.status.err = false ↔ s.status.errcode = 0
  /-- the codes 14 and 15 are never written (60_exceptions.md R260) -/
  codes : s.status.errcode.toNat ≤ 13

end Sys2Proof.Machine
end

