-- ==== Sys2Proof/Certificates/Slice0/Obligations.lean ====
section
/-! DEFINITION. The statements for the provers. -/

open Sys2Proof Sys2Proof.Machine

/-! ## Terms used by several statements -/

namespace Sys2Proof.Stated

/-- A row of spec/opcode_table.json. -/
structure Row where
  pattern : BusWord
  mask : BusWord

/-- The match and mask columns of spec/opcode_table.json, in the order of its rows. -/
def rows : List Row :=
  [⟨0x00000000, 0xFFFFFFFF⟩, ⟨0x00000001, 0xFFFFFFFF⟩, ⟨0x00000002, 0xFFF000FF⟩,
    ⟨0x00000010, 0xFFF000FF⟩, ⟨0x00000011, 0xFFF000FF⟩, ⟨0x00000012, 0xFFF000FF⟩,
    ⟨0x00000013, 0xFFF000FF⟩, ⟨0x00000014, 0xFFFF00FF⟩, ⟨0x00000015, 0xFFFF00FF⟩,
    ⟨0x00000016, 0xFFEC00FF⟩, ⟨0x00000017, 0xFFFF00FF⟩, ⟨0x00000018, 0xFFFF00FF⟩,
    ⟨0x00000019, 0xFFFF00FF⟩, ⟨0x0000001A, 0x000FF0FF⟩, ⟨0x0000001B, 0xFFF00FFF⟩,
    ⟨0x0000001C, 0xFFF000FF⟩, ⟨0x0000001D, 0xFFFF00FF⟩, ⟨0x0000001E, 0xFFFF00FF⟩]
  ++ [⟨0x00000020, 0xFFF008FF⟩, ⟨0x00000021, 0xFFFFF8FF⟩, ⟨0x00000022, 0xFFFF80FF⟩,
    ⟨0x00000023, 0xFFFF80FF⟩, ⟨0x00000024, 0xFFFF88FF⟩, ⟨0x00000025, 0xFFFF88FF⟩,
    ⟨0x00000026, 0xFFF888FF⟩, ⟨0x00000027, 0xFFFF88FF⟩, ⟨0x00000028, 0xFFFF8FFF⟩,
    ⟨0x00000029, 0xFFFF8FFF⟩, ⟨0x00000030, 0xFFFC88FF⟩, ⟨0x00000031, 0xFFFC88FF⟩,
    ⟨0x00000032, 0xFFFC88FF⟩, ⟨0x00000038, 0x000FFCFF⟩, ⟨0x00000039, 0xFFFF0CFF⟩,
    ⟨0x0000003A, 0xFFFFC0FF⟩]

/-- The state in which one access of the host is the next turn. -/
def withAccess (s : State) (a : Access) : State := { s with schedule := .host a :: s.schedule }

/-- The state in which the engine has the next turn, with a draw. -/
def withEngine (s : State) (draw : Bool) : State := { s with schedule := .engine draw :: s.schedule }

/-- The offsets whose writes are dropped while BUSY = 1 (20_memory.md R80), as numbers (R71). -/
abbrev DropsWhenBusy (off : Nat) : Prop :=
  off = 0x08 ∨ off = 0x20 ∨ off = 0x24 ∨ off = 0x28
    ∨ (0x1000 ≤ off ∧ off < 0x1400 ∧ off % 0x40 < 0x20)
    ∨ (0x3000 ≤ off ∧ off < 0x3100 ∧ off % 0x40 < 0x20)
    ∨ (0x4000 ≤ off ∧ off < 0x4024)

/-- The offsets whose writes are accepted also while BUSY = 1 (20_memory.md R80): CTRL, STATUS, IRQEN. -/
abbrev AlwaysAccepted (off : Nat) : Prop := off = 0x04 ∨ off = 0x0C ∨ off = 0x10

/-- `s` with other flags. -/
def withFlags (s : State) (z lsb nr onc : Bool) : State :=
  { s with status := { s.status with z := z, lsb := lsb, nr := nr, onc := onc } }

/-- The registers, their tags made STALE where they were VALID (10_state.md R35). -/
def StaleF (s t : State) : Prop :=
  ∀ i, (t.f i).v = (s.f i).v
    ∧ (t.f i).tag = if (s.f i).tag = .valid then .stale else (s.f i).tag
def StaleP (s t : State) : Prop :=
  ∀ j, (t.p j).x = (s.p j).x ∧ (t.p j).y = (s.p j).y ∧ (t.p j).inf = (s.p j).inf
    ∧ (t.p j).tag = if (s.p j).tag = .valid then .stale else (s.p j).tag

/-- The flags are as they were. -/
def SameFlags (s t : State) : Prop := ∀ f, flagOf t.status f = flagOf s.status f

/-- The modulus of a committed prime field is a prime. -/
abbrev TruePrime (c : FieldCfg) : Prop := c.kind = .prime ∧ Nat.Prime c.modulus

/-- The condition of 40_control.md R136 on the coefficients of a curve, in the arithmetic of integers modulo p; no
curve of form M or E stands over a binary field (R137). -/
def NotDegenerate (c : FieldCfg) (form : CurveForm) (c1 c2 : Nat) : Prop :=
  match form, c.kind with
  | .weierstrass, .prime => (4 * c1 ^ 3 + 27 * c2 ^ 2) % c.modulus ≠ 0
  | .weierstrass, .binary => c1 ≠ 0
  | .montgomery, .prime => ((c2 : Int) * ((c1 : Int) ^ 2 - 4)) % (c.modulus : Int) ≠ 0
  | .edwards, .prime => c1 ≠ 0
  | _, .binary => False

/-- A command ended with an error. -/
def Raised (s t : State) : Prop := ∃ code, 1 ≤ code ∧ code ≤ 13 ∧ Raises s t code

/-- A command ends by writing the root `v` to F[rd], with NR = 0 (41_field.md R168). -/
def WritesRoot (s t : State) (rd : FIdx) (v : Nat) : Prop :=
  t.status.nr = false
    ∧ WritesF s { t with status := { t.status with nr := s.status.nr } } rd v

/-- A point command ends with the point or the error that its computation answers. -/
def EndsWithPoint (s : State) (rd : PIdx) (i : Instr) (r : Except Err Point) : Prop :=
  (∀ pt, r = .ok pt → ∃ t, exec i s = .next t ∧ WritesP s t rd pt)
    ∧ ∀ e, r = .error e → ∃ t, exec i s = .next t ∧ Raises s t e.code.toNat

/-- The product of two polynomials modulo f (41_field.md R155, R156). -/
def polyMul (f a b : Nat) : Nat := pmod (clmul a b) f

/-- The codes of FTAGS, PTAGS and KTAGS, as numbers (10_state.md R35). -/
def tagNumber : Tag → Nat
  | .empty => 0
  | .valid => 1
  | .stale => 2
def kTagNumber : KTag → Nat
  | .empty => 0
  | .valid => 1

/-- `s` with another error latch. -/
def withLatch (s : State) (err : Bool) (code : BitVec 4) (cmd : BusWord) : State :=
  { s with status := { s.status with err := err, errcode := code }, errcmd := cmd }

/-- The commands that add or double points: PADD, PDBL and the scalar multiplications. -/
def addsPoints (i : Instr) : Prop :=
  (∃ rd rs1 rs2, i = .padd rd rs1 rs2) ∨ (∃ rd rs1, i = .pdbl rd rs1)
    ∨ ∃ rd rs1 rs2, i = .psmul rd rs1 rs2 ∨ i = .psmulda rd rs1 rs2 ∨ i = .psmulml rd rs1 rs2

/-- A committed curve of form M over a prime field whose modulus is not prime (notes/assumptions/13). -/
def CompositeMontgomery (s : State) : Prop :=
  s.curve.form = .montgomery ∧ s.field.kind = .prime ∧ ¬Nat.Prime s.field.modulus

/-- `padd` or `pdbl`, then the check of its result (43_point.md R203): the error PointNotOnCurve when the result
is off the curve. -/
def checked (s : State) (r : Except Err Point) : Except Err Point :=
  match r with
  | .error e => .error e
  | .ok pt => if onCurve s.field s.curve pt = true then .ok pt else .error .pointNotOnCurve

/-- `chk(padd(r, a))` when `go`, and else `r`. -/
def sumWhen (s : State) (go : Bool) (r a : Point) : Except Err Point :=
  if go = true then checked s (padd s.field s.curve r a) else .ok r

/-- `chk(pdbl(a))` when `go`, and else `a`. -/
def doubleWhen (s : State) (go : Bool) (a : Point) : Except Err Point :=
  if go = true then checked s (pdbl s.field s.curve a) else .ok a

/-- The pass of double-and-add at bit i, on the running result and the addend (44_scalar.md R240): the addend is not
doubled after the highest set bit. -/
def addPass (s : State) (k : Nat) (pair : Point × Point) (i : Nat) : Except Err (Point × Point) := do
  let r ← sumWhen s (k.testBit i) pair.1 pair.2
  let a ← doubleWhen s (decide (i < k.log2)) pair.2
  return (r, a)

/-- Double-and-add as 44_scalar.md R240 has it: one pass for each bit position of k, from the lowest to the highest
set one. -/
def doubleAndAdd (s : State) (pt : Point) (k : Nat) : Except Err Point :=
  if k = 0 ∨ pt = ident s.curve then .ok (ident s.curve)
  else do
    let last ← (List.range (k.log2 + 1)).foldlM (addPass s k) (ident s.curve, pt)
    return last.1

/-- The pass of the ladder at bit i, on R0 and R1 (44_scalar.md R241): one sum, then one double. -/
def ladderPass (s : State) (k : Nat) (pair : Point × Point) (i : Nat) : Except Err (Point × Point) := do
  let sum ← sumWhen s true pair.1 pair.2
  let double ← doubleWhen s true (if k.testBit i = true then pair.2 else pair.1)
  return if k.testBit i = true then (sum, double) else (double, sum)

/-- The Montgomery ladder as 44_scalar.md R241 has it: one pass for each of the NBITS bit positions, from the
highest. -/
def ladder (s : State) (pt : Point) (k : Nat) : Except Err Point := do
  let last ← (List.range Config.nbits).reverse.foldlM (ladderPass s k) (ident s.curve, pt)
  return last.1

end Sys2Proof.Stated

open Sys2Proof.Stated

/-! ## Encoding (30_encoding.md) -/

/-- 95_test_vectors.md §2.1: words written out there decode to the commands they stand for, and illegal words are
refused. -/
def Obligations.SpecWordsDecode : Prop :=
  decode 0x00000000 = .ok .nop ∧ decode 0x00021102 = .ok (.cfgc .montgomery 1 2)
    ∧ decode 0x00021310 = .ok (.fadd 3 1 2) ∧ decode 0x00101216 = .ok (.fpow 2 1 0 true)
    ∧ decode 0x00A0041A = .ok (.fldi 4 10) ∧ decode 0x0000121D = .ok (.mtom 2 1)
    ∧ decode 0x00010226 = .ok (.padd 2 0 1) ∧ decode 0x00001623 = .ok (.pgety 6 1)
    ∧ decode 0x00000132 = .ok (.psmulml 1 0 0) ∧ decode 0x0000133A = .ok (.ffromk 3 1)
    ∧ decode 0x00000302 = .error .badForm ∧ decode 0x00018226 = .error .mustBeZero
    ∧ decode 0x0000001F = .error .unassignedOpcode

/-- Decoding an encoded command gives it back, with every operand at every value. -/
def Obligations.DecodeOfEncode : Prop := ∀ i : Instr, decode (encode i) = .ok i

/-- A legal word is the encoding of the command it decodes to: no two words stand for one command, and no bit of a
legal word is dropped. -/
def Obligations.EncodeOfDecode : Prop := ∀ (w : BusWord) (i : Instr), decode w = .ok i → encode i = w

/-- 30_encoding.md R103, R105, R108: the legal words are those that match a row of the opcode table, less CFGC with
FORM ≥ 3. -/
def Obligations.LegalWordsAreTheTableRows : Prop :=
  ∀ w : BusWord, (∃ i, decode w = .ok i) ↔
    ∃ r ∈ rows, w &&& r.mask = r.pattern ∧ (r.pattern = 2 → (w >>> 8) % 16 < (3 : BusWord))

/-! ## The step (10_state.md R42, 00_scope.md R22) -/

/-- An engine turn runs the command that CUR_CMD decodes to, with its draw; with no turn left the engine runs it
with a free draw; and the step after `withFetchWord` runs the command of the word. The schedule, the draw and
`withFetchWord` are the model's own choice (notes/assumptions/1, 2, 6). -/
def Obligations.StepRunsTheDecodedCommand : Prop :=
  (∀ (s : State) (i : Instr) (draw : Bool), s.status.busy = true → decode s.curCmd = .ok i →
    step (withEngine s draw) = exec i { s with mrDraw := draw })
  ∧ (∀ (s : State) (i : Instr), s.status.busy = true → s.schedule = [] → decode s.curCmd = .ok i →
    step s = exec i { s with mrDraw := Config.mrDraw s.freeTurns, freeTurns := s.freeTurns + 1 })
  ∧ (∀ (s : State) (i : Instr) (w : BusWord), decode w = .ok i →
    step (s.withFetchWord 32 w.toNat)
      = exec i { s with curCmd := w, status := { s.status with busy := true } })
  ∧ ∀ (s : State) (draw : Bool), s.status.busy = false → step (withEngine s draw) = .next s

/-- 30_encoding.md R105: an illegal word in flight completes with IllegalCommand (code 8) and changes nothing
else. -/
def Obligations.IllegalWordRaisesIllegalCommand : Prop :=
  ∀ (s : State) (e : DecodeError) (draw : Bool), s.status.busy = true → decode s.curCmd = .error e →
    ∃ t, step (withEngine s draw) = .next t ∧ Raises { s with mrDraw := draw } t 8

/-- 10_state.md R42, R40: a CMD write while idle is accepted, and one while busy sets OVF and is no command. The
field `readData` is the model's own (notes/assumptions/4). -/
def Obligations.CmdWriteIssuesOrIsDropped : Prop :=
  ∀ (s : State) (w : BusWord),
    (s.status.busy = false →
      step (withAccess s (.write .w32 0x008 w)) =
        .next { s with
          curCmd := w, status := { s.status with busy := true }, cmdcnt := s.cmdcnt + 1,
          readData := none })
    ∧ (s.status.busy = true →
      step (withAccess s (.write .w32 0x008 w)) =
        .next { s with status := { s.status with ovf := true }, readData := none })

/-- 20_memory.md R72, 60_exceptions.md R270: a step faults exactly when the host's access is not 32 bits wide or not
aligned; 10_state.md R42, 60_exceptions.md R262: no engine turn faults, and no step is refused. That a refused access
stops the model, where the block goes on, is the model's deduction (notes/assumptions/7). -/
def Obligations.OnlyRefusedAccessesStopTheMachine : Prop :=
  ∀ s : State,
    (∀ r, step s = .fault r ↔
      ∃ a rest, s.schedule = .host a :: rest ∧ r = .busError a
        ∧ ((∃ width off, a = .read width off ∧ (width ≠ .w32 ∨ off.toNat % 4 ≠ 0))
          ∨ ∃ width off data, a = .write width off data ∧ (width ≠ .w32 ∨ off.toNat % 4 ≠ 0)))
    ∧ ∀ r, step s ≠ .refused r

/-! ## The port (20_memory.md) -/

/-- 20_memory.md R80: while BUSY = 1 a write to CMD, an F or K window word or a configuration register is dropped
and sets OVF; a write to STATUS, IRQEN or CTRL is accepted as while idle; every other write is ignored and does not
set OVF. The field `readData`, the fields that a reset leaves and the value of CUR_CMD after it are the model's own
(notes/assumptions/3, 4, 9). -/
def Obligations.WritesWhileBusy : Prop :=
  ∀ (s : State) (off : Offset) (data : BusWord), s.status.busy = true → off.toNat % 4 = 0 →
    (DropsWhenBusy off.toNat →
      step (withAccess s (.write .w32 off data)) =
        .next { s with status := { s.status with ovf := true }, readData := none })
    ∧ (off = 0x00C → step (withAccess s (.write .w32 off data)) =
        .next { s with
          status :=
            { s.status with
              done := s.status.done && !data.getLsbD 1
              err := s.status.err && !data.getLsbD 2
              errcode := if data.getLsbD 2 then 0 else s.status.errcode
              ovf := s.status.ovf && !data.getLsbD 3 }
          readData := none })
    ∧ (off = 0x010 → step (withAccess s (.write .w32 off data)) =
        .next { s with
          irqen := ⟨data.getLsbD 0, data.getLsbD 1, data.getLsbD 2⟩, readData := none })
    ∧ (off = 0x004 → data.getLsbD 0 = true → step (withAccess s (.write .w32 off data)) =
        .next { State.reset with
          schedule := s.schedule, mrDraw := s.mrDraw, freeTurns := s.freeTurns })
    ∧ (off = 0x004 → data.getLsbD 0 = false → step (withAccess s (.write .w32 off data)) =
        .next { s with readData := none })
    ∧ (¬DropsWhenBusy off.toNat → ¬AlwaysAccepted off.toNat →
      step (withAccess s (.write .w32 off data)) = .next { s with readData := none })

/-- 20_memory.md R82: a MemRead changes nothing but the answer of the port, and the same read again gives the same
answer. The field `readData` is the model's own (notes/assumptions/4). -/
def Obligations.ReadsHaveNoSideEffect : Prop :=
  ∀ (s : State) (off : Offset), off.toNat % 4 = 0 →
    ∃ v, step (withAccess s (.read .w32 off)) = .next { s with readData := some v }
      ∧ ∀ d, step (withAccess { s with readData := d } (.read .w32 off)) =
          .next { s with readData := some v }

/-- 20_memory.md R73, R77, R79, 10_state.md R46–R55: in an idle block, a write to an offset outside the writable
ones changes nothing; a read of an offset outside the address map returns 0, and so does a read of CTRL and CMD. -/
def Obligations.ReservedAndReadOnlyOffsets : Prop :=
  ∀ (s : State) (off : Offset) (data : BusWord), off.toNat % 4 = 0 →
    (¬DropsWhenBusy off.toNat → ¬AlwaysAccepted off.toNat → busWrite s off data = s)
    ∧ ((off.toNat = 0x04 ∨ off.toNat = 0x08 ∨ (0x3C ≤ off.toNat ∧ off.toNat < 0x1000)
        ∨ (0x1000 ≤ off.toNat ∧ off.toNat < 0x1400 ∧ 0x20 ≤ off.toNat % 0x40)
        ∨ (0x1400 ≤ off.toNat ∧ off.toNat < 0x2000)
        ∨ (0x2000 ≤ off.toNat ∧ off.toNat < 0x2800
          ∧ ((0x20 ≤ off.toNat % 0x100 ∧ off.toNat % 0x100 < 0x40)
            ∨ (0x60 ≤ off.toNat % 0x100 ∧ off.toNat % 0x100 ≠ 0x80)))
        ∨ (0x2800 ≤ off.toNat ∧ off.toNat < 0x3000)
        ∨ (0x3000 ≤ off.toNat ∧ off.toNat < 0x3100 ∧ 0x20 ≤ off.toNat % 0x40)
        ∨ (0x3100 ≤ off.toNat ∧ off.toNat < 0x4000)
        ∨ (0x4024 ≤ off.toNat ∧ off.toNat < 0x4100)
        ∨ (0x4124 ≤ off.toNat ∧ off.toNat < 0x4180)
        ∨ (0x4180 ≤ off.toNat ∧ off.toNat < 0x4200 ∧ 0x20 ≤ off.toNat % 0x40)
        ∨ 0x4200 ≤ off.toNat) → busRead s off = 0)

/-- 20_memory.md R74, R76, R78: a word written to an F or K window reads back, the other words of the register
stay, the tag becomes VALID, and no other register of the file changes. -/
def Obligations.WindowWritesReadBack : Prop :=
  ∀ (s : State) (w : Nat) (data : BusWord), s.status.busy = false → w < Config.nw →
    (∀ i : FIdx,
      let t := busWrite s (BitVec.ofNat 16 (0x1000 + 0x40 * i.val + 4 * w)) data
      busRead t (BitVec.ofNat 16 (0x1000 + 0x40 * i.val + 4 * w)) = data
      ∧ (∀ w', w' < Config.nw → w' ≠ w →
          busRead t (BitVec.ofNat 16 (0x1000 + 0x40 * i.val + 4 * w'))
            = busRead s (BitVec.ofNat 16 (0x1000 + 0x40 * i.val + 4 * w')))
      ∧ (t.f i).tag = .valid ∧ t = { s with fregs := t.fregs } ∧ ∀ j, j ≠ i → t.f j = s.f j)
    ∧ (∀ i : KIdx,
      let t := busWrite s (BitVec.ofNat 16 (0x3000 + 0x40 * i.val + 4 * w)) data
      busRead t (BitVec.ofNat 16 (0x3000 + 0x40 * i.val + 4 * w)) = data
      ∧ (∀ w', w' < Config.nw → w' ≠ w →
          busRead t (BitVec.ofNat 16 (0x3000 + 0x40 * i.val + 4 * w'))
            = busRead s (BitVec.ofNat 16 (0x3000 + 0x40 * i.val + 4 * w')))
      ∧ (t.k i).tag = .valid ∧ t = { s with kregs := t.kregs } ∧ ∀ j, j ≠ i → t.k j = s.k j)

/-- 20_memory.md R79, 10_state.md R45: the staging registers read back their implemented bits and nothing else
changes. -/
def Obligations.StagingWritesReadBack : Prop :=
  ∀ (s : State) (data : BusWord), s.status.busy = false →
    (∀ w, w ≤ Config.nw →
      let t := busWrite s (BitVec.ofNat 16 (0x4000 + 4 * w)) data
      busRead t (BitVec.ofNat 16 (0x4000 + 4 * w))
          = (if w = Config.nw then BitVec.ofNat 32 (data.toNat % 2) else data)
      ∧ (∀ w', w' ≤ Config.nw → w' ≠ w →
          busRead t (BitVec.ofNat 16 (0x4000 + 4 * w')) = busRead s (BitVec.ofNat 16 (0x4000 + 4 * w')))
      ∧ t = { s with staging := { s.staging with modulus := t.staging.modulus } })
    ∧ (let t := busWrite s 0x020 data
      busRead t 0x020 = BitVec.ofNat 32 (data.toNat % 2)
      ∧ t = { s with staging := { s.staging with fkind := t.staging.fkind } })
    ∧ (let t := busWrite s 0x024 data
      busRead t 0x024 = BitVec.ofNat 32 (data.toNat % 2 ^ 16)
      ∧ t = { s with staging := { s.staging with m := t.staging.m } })
    ∧ (let t := busWrite s 0x028 data
      busRead t 0x028 = BitVec.ofNat 32 (data.toNat % 2 ^ 8)
      ∧ t = { s with staging := { s.staging with mrr := t.staging.mrr } })

/-- 20_memory.md R74: word w of every multiword register holds bits 32w+31..32w of its value; bit 0 of the INF word is
`P[j].inf` (R77). -/
def Obligations.WindowsShowLittleEndianWords : Prop :=
  ∀ (s : State) (w : Nat),
    (w < Config.nw → ∀ i : FIdx,
      (busRead s (BitVec.ofNat 16 (0x1000 + 0x40 * i.val + 4 * w))).toNat
        = (s.f i).v.toNat / 2 ^ (32 * w) % 2 ^ 32)
    ∧ (w < Config.nw → ∀ j : PIdx,
      (busRead s (BitVec.ofNat 16 (0x2000 + 0x100 * j.val + 4 * w))).toNat
          = (s.p j).x.toNat / 2 ^ (32 * w) % 2 ^ 32
      ∧ (busRead s (BitVec.ofNat 16 (0x2040 + 0x100 * j.val + 4 * w))).toNat
          = (s.p j).y.toNat / 2 ^ (32 * w) % 2 ^ 32)
    ∧ (∀ j : PIdx,
      (busRead s (BitVec.ofNat 16 (0x2080 + 0x100 * j.val))).toNat = (s.p j).inf.toNat)
    ∧ (w < Config.nw → ∀ k : KIdx,
      (busRead s (BitVec.ofNat 16 (0x3000 + 0x40 * k.val + 4 * w))).toNat
        = (s.k k).v.toNat / 2 ^ (32 * w) % 2 ^ 32)
    ∧ (w ≤ Config.nw →
      (busRead s (BitVec.ofNat 16 (0x4000 + 4 * w))).toNat
          = s.staging.modulus.toNat / 2 ^ (32 * w) % 2 ^ 32
      ∧ (busRead s (BitVec.ofNat 16 (0x4100 + 4 * w))).toNat
          = s.field.pmod.toNat / 2 ^ (32 * w) % 2 ^ 32)
    ∧ (w < Config.nw →
      (busRead s (BitVec.ofNat 16 (0x4180 + 4 * w))).toNat = s.curve.ca.toNat / 2 ^ (32 * w) % 2 ^ 32
      ∧ (busRead s (BitVec.ofNat 16 (0x41C0 + 4 * w))).toNat
          = s.curve.cb.toNat / 2 ^ (32 * w) % 2 ^ 32)

/-- 10_state.md R50, R51: ID and PARAMS are constants, and ignore writes. -/
def Obligations.IdentificationRegisters : Prop :=
  ∀ (s : State) (data : BusWord),
    busRead s 0x000 = 0x45430001 ∧ busRead s 0x01C = 0x48100100
    ∧ (busRead s 0x01C).toNat % 2 ^ 16 = Config.nbits
    ∧ (busRead s 0x01C).toNat / 2 ^ 16 % 2 ^ 8 = 16
    ∧ (busRead s 0x01C).toNat / 2 ^ 24 % 2 ^ 4 = 8
    ∧ (busRead s 0x01C).toNat / 2 ^ 28 = 4
    ∧ busWrite s 0x000 data = s ∧ busWrite s 0x01C data = s

/-- 10_state.md R46: every bit of STATUS, and what a write of STATUS does, while idle or busy. -/
def Obligations.StatusRegister : Prop :=
  ∀ (s : State) (data : BusWord),
    (∀ i, i < 32 → (busRead s 0x00C).getLsbD i =
      if i = 0 then s.status.busy
      else if i = 1 then s.status.done
      else if i = 2 then s.status.err
      else if i = 3 then s.status.ovf
      else if 8 ≤ i ∧ i < 12 then s.status.errcode.getLsbD (i - 8)
      else if i = 16 then s.status.z
      else if i = 17 then s.status.lsb
      else if i = 18 then s.status.nr
      else if i = 19 then s.status.onc
      else false)
    ∧ (let t := busWrite s 0x00C data
      t.status.done = (s.status.done && !data.getLsbD 1)
      ∧ t.status.err = (s.status.err && !data.getLsbD 2)
      ∧ t.status.ovf = (s.status.ovf && !data.getLsbD 3)
      ∧ (data.getLsbD 2 = true → t.status.errcode = 0)
      ∧ (data.getLsbD 2 = false → t.status.errcode = s.status.errcode)
      ∧ t = { s with
          status :=
            { s.status with
              done := t.status.done, err := t.status.err, ovf := t.status.ovf
              errcode := t.status.errcode } })
    ∧ busRead State.reset 0x00C = 0

/-- 10_state.md R49: IRQEN reads back its three bits and its reserved bits read 0, while idle or busy. R40, R54: CMDCNT
and ERRCMD show their words and ignore writes, and clearing ERR leaves ERRCMD. -/
def Obligations.EnableAndCounterRegisters : Prop :=
  ∀ (s : State) (data : BusWord),
    busWrite s 0x010 data = { s with irqen := (busWrite s 0x010 data).irqen }
    ∧ (∀ i, i < 32 →
      (busRead (busWrite s 0x010 data) 0x010).getLsbD i = (decide (i < 3) && data.getLsbD i))
    ∧ busRead s 0x014 = s.cmdcnt ∧ busRead s 0x018 = s.errcmd
    ∧ busWrite s 0x014 data = s ∧ busWrite s 0x018 data = s
    ∧ busRead (busWrite s 0x00C data) 0x018 = s.errcmd
    ∧ busRead State.reset 0x010 = 0 ∧ busRead State.reset 0x014 = 0 ∧ busRead State.reset 0x018 = 0

/-- 10_state.md R52, R53: CFGSTAT and the tag registers show the configuration and the tags, with the codes of R35. -/
def Obligations.ConfigurationAndTagViews : Prop :=
  ∀ s : State,
    (∀ i, i < 32 → (busRead s 0x02C).getLsbD i =
      if i = 0 then s.field.valid
      else if i = 1 then decide (s.field.kind = .binary)
      else if i = 4 then s.curve.valid
      else if i = 5 then decide (s.curve.form = .montgomery)
      else if i = 6 then decide (s.curve.form = .edwards)
      else false)
    ∧ (∀ i : FIdx, (busRead s 0x030).toNat / 4 ^ i.val % 4 = tagNumber (s.f i).tag)
    ∧ (∀ j : PIdx, (busRead s 0x034).toNat / 4 ^ j.val % 4 = tagNumber (s.p j).tag)
    ∧ (∀ k : KIdx, (busRead s 0x038).toNat / 4 ^ k.val % 4 = kTagNumber (s.k k).tag)
    ∧ (busRead s 0x034).toNat < 2 ^ 16 ∧ (busRead s 0x038).toNat < 2 ^ 8
    ∧ (∀ data, busWrite s 0x02C data = s ∧ busWrite s 0x030 data = s ∧ busWrite s 0x034 data = s
      ∧ busWrite s 0x038 data = s)
    ∧ busRead State.reset 0x02C = 0 ∧ busRead State.reset 0x030 = 0 ∧ busRead State.reset 0x034 = 0
    ∧ busRead State.reset 0x038 = 0

/-- 60_exceptions.md R265: the interrupt line, from the words that the host reads in STATUS and IRQEN. -/
def Obligations.IrqLine : Prop :=
  ∀ s : State,
    s.irq =
      (((busRead s 0x00C).getLsbD 1 && (busRead s 0x010).getLsbD 0)
        || ((busRead s 0x00C).getLsbD 2 && (busRead s 0x010).getLsbD 1)
        || ((busRead s 0x00C).getLsbD 3 && (busRead s 0x010).getLsbD 2))

/-! ## Reset (70_reset_and_hazards.md) -/

/-- 70_reset_and_hazards.md R291: the values of the table, CUR_CMD apart, whose value is irrelevant. -/
def Obligations.ResetValues : Prop :=
  (∀ i, State.reset.f i = ⟨0, .empty⟩) ∧ (∀ j, State.reset.p j = ⟨0, 0, false, .empty⟩)
    ∧ (∀ k, State.reset.k k = ⟨0, .empty⟩)
    ∧ State.reset.status = ⟨false, false, false, false, 0, false, false, false, false⟩
    ∧ State.reset.cmdcnt = 0 ∧ State.reset.errcmd = 0
    ∧ State.reset.field = ⟨false, .prime, 0, 0⟩ ∧ State.reset.curve = ⟨false, .weierstrass, 0, 0⟩
    ∧ State.reset.staging = ⟨.prime, 0, 5, 0⟩ ∧ State.reset.irqen = ⟨false, false, false⟩
    ∧ busRead State.reset 0x004 = 0 ∧ busRead State.reset 0x000 = 0x45430001
    ∧ busRead State.reset 0x01C = 0x48100100 ∧ busRead State.reset 0x02C = 0
    ∧ busRead State.reset 0x030 = 0 ∧ busRead State.reset 0x034 = 0 ∧ busRead State.reset 0x038 = 0
    ∧ State.reset.irq = false

/-- 70_reset_and_hazards.md R290, R292, R293: a soft reset and a hardware reset have the same effect, from any
state, with a command in flight or not: the state after reset. The turns still to come, the held draw and its counter
are the model's own inputs and stay, and the value of CUR_CMD is the model's choice (notes/assumptions/3, 9). A write
of 0 to SRST has no effect. -/
def Obligations.ResetFromAnyState : Prop :=
  ∀ (s : State) (data : BusWord),
    let r := { State.reset with schedule := s.schedule, mrDraw := s.mrDraw, freeTurns := s.freeTurns }
    (data.getLsbD 0 = true → step (withAccess s (.write .w32 0x004 data)) = .next r)
    ∧ (data.getLsbD 0 = false →
      step (withAccess s (.write .w32 0x004 data)) = .next { s with readData := none })
    ∧ step { s with schedule := .hwReset :: s.schedule } = .next r

/-! ## Control commands (40_control.md) -/

/-- 40_control.md R130: NOP completes and changes nothing else. -/
def Obligations.NopCompletes : Prop :=
  ∀ s : State, ∃ t, exec .nop s = .next t ∧ WritesNoRegister s t ∧ SameFlags s t

/-- 40_control.md R131–R134, R132 for the draw: CFGF commits a prime candidate that passes, and refuses one that
does not. A prime is accepted whatever the draw. -/
def Obligations.CfgfPrimeField : Prop :=
  ∀ (s : State) (p : Nat), s.staging.fkind = .prime → s.staging.modulus.toNat = p →
    (3 ≤ p ∧ p % 2 = 1 ∧ p < 2 ^ Config.nbits
        ∧ (s.staging.mrr = 0 ∨ Nat.Prime p ∨ s.mrDraw = true) →
      ∃ t, exec .cfgf s = .next t ∧ Succeeds s t ∧ SameFlags s t
        ∧ t.field = ⟨true, .prime, s.staging.modulus, 0⟩ ∧ t.curve = { s.curve with valid := false }
        ∧ StaleF s t ∧ StaleP s t ∧ SameK s t)
    ∧ (p < 3 ∨ p % 2 = 0 ∨ 2 ^ Config.nbits ≤ p
        ∨ (s.staging.mrr ≠ 0 ∧ ¬Nat.Prime p ∧ s.mrDraw = false) →
      ∃ t, exec .cfgf s = .next t ∧ Raises s t 1)

/-- 40_control.md R131, R133, R134: CFGF commits a polynomial that is monic of degree m, 1 ≤ m ≤ NBITS, with an odd
number of coefficients when m > 1, and refuses every other. -/
def Obligations.CfgfBinaryField : Prop :=
  ∀ (s : State) (f m : Nat), s.staging.fkind = .binary → s.staging.modulus.toNat = f →
    s.staging.m.toNat = m →
    let good := 1 ≤ m ∧ m ≤ Config.nbits ∧ f.testBit m = true ∧ f < 2 ^ (m + 1)
      ∧ (1 < m → ((Finset.range (m + 1)).filter (fun i => f.testBit i = true)).card % 2 = 1)
    (good → ∃ t, exec .cfgf s = .next t ∧ Succeeds s t ∧ SameFlags s t
        ∧ t.field = ⟨true, .binary, s.staging.modulus, s.staging.m⟩
        ∧ t.curve = { s.curve with valid := false } ∧ StaleF s t ∧ StaleP s t ∧ SameK s t)
    ∧ (¬good → ∃ t, exec .cfgf s = .next t ∧ Raises s t 1)

/-- 40_control.md R135–R137: CFGC commits a curve that is not degenerate; it raises Unsupported for M and E over a
binary field, and InvalidCurveParameters for a degenerate curve. -/
def Obligations.CfgcResults : Prop :=
  ∀ (s : State) (form : CurveForm) (rs1 rs2 : FIdx) (c1 c2 : Nat), s.field.valid = true →
    FieldWf s.field → HoldsCanon s rs1 c1 →
    (if form = .edwards then c2 = 0 else HoldsCanon s rs2 c2) →
    (NotDegenerate s.field form c1 c2 →
      ∃ t, exec (.cfgc form rs1 rs2) s = .next t ∧ Succeeds s t ∧ SameFlags s t
        ∧ t.curve = ⟨true, form, BitVec.ofNat _ c1, BitVec.ofNat _ c2⟩ ∧ t.field = s.field
        ∧ SameF s t ∧ StaleP s t ∧ SameK s t)
    ∧ (form ≠ .weierstrass → s.field.kind = .binary →
      ∃ t, exec (.cfgc form rs1 rs2) s = .next t ∧ Raises s t 7)
    ∧ (form = .weierstrass ∨ s.field.kind = .prime → ¬NotDegenerate s.field form c1 c2 →
      ∃ t, exec (.cfgc form rs1 rs2) s = .next t ∧ Raises s t 2)

/-- 70_reset_and_hazards.md R300: after a CFGF that succeeds, a command that reads a register which was VALID raises
TypeMismatch. -/
def Obligations.ReconfigurationMakesOperandsStale : Prop :=
  ∀ (s t : State) (i : Instr) (r : FIdx) (needCanon : Bool) (post : List Operand),
    exec .cfgf s = .next t → t.status.err = false → needsField i = true →
    operands i = .f r needCanon :: post → (s.f r).tag = .valid →
    ∃ u, exec i t = .next u ∧ Raises t u 4

/-! ## Field arithmetic (41_field.md) -/

/-- 41_field.md R152–R154, R156, R162–R164, R169: the results of FADD, FSUB, FMUL and FNEG. -/
def Obligations.RingCommandResults : Prop :=
  ∀ (s : State) (rd rs1 rs2 : FIdx) (a b : Nat), s.field.valid = true → HoldsCanon s rs1 a →
    (s.field.kind = .prime →
      ∃ t, exec (.fneg rd rs1) s = .next t
        ∧ WritesF s t rd ((s.field.modulus - a) % s.field.modulus))
    ∧ (s.field.kind = .binary → ∃ t, exec (.fneg rd rs1) s = .next t ∧ WritesF s t rd a)
    ∧ (HoldsCanon s rs2 b → s.field.kind = .prime →
      (∃ t, exec (.fadd rd rs1 rs2) s = .next t ∧ WritesF s t rd ((a + b) % s.field.modulus))
      ∧ (∃ t, exec (.fsub rd rs1 rs2) s = .next t
        ∧ WritesF s t rd ((a + s.field.modulus - b) % s.field.modulus))
      ∧ ∃ t, exec (.fmul rd rs1 rs2) s = .next t ∧ WritesF s t rd (a * b % s.field.modulus))
    ∧ (HoldsCanon s rs2 b → s.field.kind = .binary →
      (∃ t, exec (.fadd rd rs1 rs2) s = .next t ∧ WritesF s t rd (a ^^^ b))
      ∧ (∃ t, exec (.fsub rd rs1 rs2) s = .next t ∧ WritesF s t rd (a ^^^ b))
      ∧ ∃ t, exec (.fmul rd rs1 rs2) s = .next t
        ∧ WritesF s t rd (pmod (clmul a b) s.field.modulus))

/-- 41_field.md R155: `pmod` gives a remainder of smaller degree, and what it takes away is a multiple of f; `clmul`
is bilinear and multiplies by x as a shift. -/
def Obligations.PolynomialHelpers : Prop :=
  ∀ a b v f : Nat, f ≠ 0 →
    (pmod v f < 2 ^ f.log2 ∧ ∃ q, v = clmul f q ^^^ pmod v f)
    ∧ clmul a 0 = 0 ∧ clmul a 1 = a ∧ clmul a (2 * b) = 2 * clmul a b
    ∧ clmul a (b ^^^ v) = clmul a b ^^^ clmul a v ∧ clmul (a ^^^ b) v = clmul a v ^^^ clmul b v
    ∧ clmul a b = clmul b a

/-- 41_field.md R158, R159, R165, R166: FINV and FDIV: Fermat's exponent over a prime field, extended Euclid over a
binary field, and their errors. -/
def Obligations.InverseAndDivisionResults : Prop :=
  ∀ (s : State) (rd rs1 rs2 : FIdx) (a b : Nat), s.field.valid = true → HoldsCanon s rs1 a →
    HoldsCanon s rs2 b →
    (a = 0 → ∃ t, exec (.finv rd rs1) s = .next t ∧ Raises s t 6)
    ∧ (b = 0 → ∃ t, exec (.fdiv rd rs1 rs2) s = .next t ∧ Raises s t 6)
    ∧ (s.field.kind = .prime → a ≠ 0 →
      ∃ t, exec (.finv rd rs1) s = .next t
        ∧ WritesF s t rd (a ^ (s.field.modulus - 2) % s.field.modulus))
    ∧ (s.field.kind = .prime → b ≠ 0 →
      ∃ t, exec (.fdiv rd rs1 rs2) s = .next t
        ∧ WritesF s t rd (a * b ^ (s.field.modulus - 2) % s.field.modulus))
    ∧ (s.field.kind = .binary → a ≠ 0 →
      if (pgcdinv a s.field.modulus).1 = 1 then
        ∃ t, exec (.finv rd rs1) s = .next t
          ∧ WritesF s t rd (pmod (pgcdinv a s.field.modulus).2 s.field.modulus)
      else ∃ t, exec (.finv rd rs1) s = .next t ∧ Raises s t 12)
    ∧ (s.field.kind = .binary → b ≠ 0 →
      if (pgcdinv b s.field.modulus).1 = 1 then
        ∃ t, exec (.fdiv rd rs1 rs2) s = .next t
          ∧ WritesF s t rd
            (fmul s.field a (pmod (pgcdinv b s.field.modulus).2 s.field.modulus))
      else ∃ t, exec (.fdiv rd rs1 rs2) s = .next t ∧ Raises s t 12)

/-- 41_field.md R157, R158, R174: an inverse multiplies back to 1, over a prime field with a prime modulus and over
a binary field with any accepted polynomial; over a binary field NotInvertible is raised exactly for those nonzero
elements that have no inverse. -/
def Obligations.InverseMultipliesBack : Prop :=
  (∀ (c : FieldCfg) (a r : Nat), FieldWf c → (c.kind = .prime → Nat.Prime c.modulus) →
    canon c a = true → finv c a = .ok r → canon c r = true ∧ fmul c a r = 1)
  ∧ ∀ (c : FieldCfg) (a : Nat), FieldWf c → c.kind = .binary → canon c a = true → a ≠ 0 →
    (finv c a = .error .notInvertible ↔ ∀ r, canon c r = true → fmul c a r ≠ 1)

/-- 41_field.md R160, R167: FPOW gives the product of e factors, FPOW.N that of the inverse, and exponent 0 gives 1
for every base and sign; a negative power of 0 raises DivisionByZero. -/
def Obligations.PowerResults : Prop :=
  ∀ (s : State) (rd rs1 : FIdx) (rs2 : KIdx) (a e : Nat), s.field.valid = true →
    FieldWf s.field → HoldsCanon s rs1 a → HoldsK s rs2 e →
    (∃ t, exec (.fpow rd rs1 rs2 false) s = .next t
      ∧ WritesF s t rd ((fun r => fmul s.field r a)^[e] 1))
    ∧ (e = 0 → ∃ t, exec (.fpow rd rs1 rs2 true) s = .next t ∧ WritesF s t rd 1)
    ∧ (e ≠ 0 → ∀ i, finv s.field a = .ok i →
      ∃ t, exec (.fpow rd rs1 rs2 true) s = .next t
        ∧ WritesF s t rd ((fun r => fmul s.field r i)^[e] 1))
    ∧ (e ≠ 0 → ∀ x, finv s.field a = .error x →
      ∃ t, exec (.fpow rd rs1 rs2 true) s = .next t ∧ Raises s t x.code.toNat)

/-- 41_field.md R161, R168: FSQRT: 0 for 0, NR for a non-residue whatever the shape of p, `a^((p+1)/4)` for a residue
when p mod 4 = 3, Unsupported for a residue when p mod 4 = 1, and `a^(2^(m−1))` over a binary field. -/
def Obligations.SquareRootResults : Prop :=
  ∀ (s : State) (rd rs1 : FIdx) (a : Nat), s.field.valid = true → FieldWf s.field →
    HoldsCanon s rs1 a →
    (s.field.kind = .prime → a = 0 →
      ∃ t, exec (.fsqrt rd rs1) s = .next t ∧ WritesRoot s t rd 0)
    ∧ (s.field.kind = .prime → a ≠ 0 →
      a ^ ((s.field.modulus - 1) / 2) % s.field.modulus ≠ 1 →
      ∃ t, exec (.fsqrt rd rs1) s = .next t ∧ WritesNoRegister s t ∧ t.status.nr = true
        ∧ t.status.z = s.status.z ∧ t.status.lsb = s.status.lsb ∧ t.status.onc = s.status.onc)
    ∧ (s.field.kind = .prime → a ≠ 0 →
      a ^ ((s.field.modulus - 1) / 2) % s.field.modulus = 1 → s.field.modulus % 4 = 3 →
      ∃ t, exec (.fsqrt rd rs1) s = .next t
        ∧ WritesRoot s t rd (a ^ ((s.field.modulus + 1) / 4) % s.field.modulus))
    ∧ (s.field.kind = .prime → a ≠ 0 →
      a ^ ((s.field.modulus - 1) / 2) % s.field.modulus = 1 → s.field.modulus % 4 = 1 →
      ∃ t, exec (.fsqrt rd rs1) s = .next t ∧ Raises s t 7)
    ∧ (s.field.kind = .binary →
      ∃ t, exec (.fsqrt rd rs1) s = .next t
        ∧ WritesRoot s t rd ((fun r => fmul s.field r r)^[s.field.degree - 1] a))

/-- 41_field.md R161: over a prime field with a prime modulus a root that FSQRT writes squares to its operand, and
NR means that there is none. -/
def Obligations.SquareRootIsARoot : Prop :=
  ∀ (c : FieldCfg) (a : Nat), FieldWf c → TruePrime c → canon c a = true →
    (∀ r, fsqrt c a = .ok (some r) → fmul c r r = a)
    ∧ (fsqrt c a = .ok none → ∀ r, fmul c r r ≠ a)

/-- 41_field.md R170–R173: FMOV, FRED, FLDI and FCMP. -/
def Obligations.MoveReduceLoadCompareResults : Prop :=
  ∀ (s : State) (rd rs1 rs2 : FIdx) (imm : BitVec 12) (v a b : Nat), s.field.valid = true →
    (HoldsF s rs1 v → ∃ t, exec (.fmov rd rs1) s = .next t ∧ WritesF s t rd v)
    ∧ (HoldsF s rs1 v → s.field.kind = .prime →
      ∃ t, exec (.fred rd rs1) s = .next t ∧ WritesF s t rd (v % s.field.modulus))
    ∧ (HoldsF s rs1 v → s.field.kind = .binary →
      ∃ t, exec (.fred rd rs1) s = .next t ∧ WritesF s t rd (pmod v s.field.modulus))
    ∧ (s.field.kind = .prime →
      ∃ t, exec (.fldi rd imm) s = .next t ∧ WritesF s t rd (imm.toNat % s.field.modulus))
    ∧ (s.field.kind = .binary →
      ∃ t, exec (.fldi rd imm) s = .next t ∧ WritesF s t rd (pmod imm.toNat s.field.modulus))
    ∧ (HoldsCanon s rs1 a → HoldsCanon s rs2 b →
      ∃ t, exec (.fcmp rs1 rs2) s = .next t ∧ WritesNoRegister s t ∧ t.status.z = decide (a = b)
        ∧ t.status.lsb = s.status.lsb ∧ t.status.nr = s.status.nr ∧ t.status.onc = s.status.onc)

/-- 10_state.md R58, 41_field.md R150–R161, 42_montmul.md R190: a command that writes an F register, FMOV apart,
writes a canonical value of the committed field. FSQRT writes only with NR = 0. -/
def Obligations.WrittenFieldValuesAreCanonical : Prop :=
  ∀ (s t : State) (i : Instr) (rd : FIdx), Inv s → destF i = some rd → (∀ a b, i ≠ .fmov a b) →
    exec i s = .next t → ¬Raised s t → ((∃ a b, i = .fsqrt a b) → t.status.nr = false) →
    (t.f rd).tag = .valid ∧ canon t.field (t.f rd).v.toNat = true

/-! ## Montgomery multiplier (42_montmul.md) -/

/-- 42_montmul.md R190–R193: the results of MMUL, MTOM and MFROM, with R = 2^NBITS, and the refusal of a binary
field, after the operand reads. -/
def Obligations.MontgomeryResults : Prop :=
  ∀ (s : State) (rd rs1 rs2 : FIdx) (a b : Nat), s.field.valid = true → FieldWf s.field →
    HoldsCanon s rs1 a → HoldsCanon s rs2 b →
    (s.field.kind = .prime →
      (∃ t r, exec (.mmul rd rs1 rs2) s = .next t ∧ WritesF s t rd r ∧ r < s.field.modulus
        ∧ r * 2 ^ Config.nbits % s.field.modulus = a * b % s.field.modulus)
      ∧ (∃ t, exec (.mtom rd rs1) s = .next t
        ∧ WritesF s t rd (a * 2 ^ Config.nbits % s.field.modulus))
      ∧ ∃ t r, exec (.mfrom rd rs1) s = .next t ∧ WritesF s t rd r ∧ r < s.field.modulus
        ∧ r * 2 ^ Config.nbits % s.field.modulus = a)
    ∧ (s.field.kind = .binary →
      (∃ t, exec (.mmul rd rs1 rs2) s = .next t ∧ Raises s t 7)
      ∧ (∃ t, exec (.mtom rd rs1) s = .next t ∧ Raises s t 7)
      ∧ ∃ t, exec (.mfrom rd rs1) s = .next t ∧ Raises s t 7)

/-- 42_montmul.md R195: the laws of the Montgomery primitives. -/
def Obligations.MontgomeryLaws : Prop :=
  ∀ (c : FieldCfg) (a b : Nat), FieldWf c → c.kind = .prime → canon c a = true →
    canon c b = true →
    mont c (mtom c a) (mtom c b) = mtom c (fmul c a b) ∧ mfrom c (mtom c a) = a
    ∧ mtom c (mfrom c a) = a ∧ mont c a b = mont c b a ∧ mont c a (mtom c b) = fmul c a b

/-! ## Points (43_point.md) -/

/-- 43_point.md R202: the membership equations, over a prime field as congruences modulo p, and over a binary field,
which has the form W alone (40_control.md R137), as a congruence of polynomials modulo f. -/
def Obligations.CurveEquations : Prop :=
  ∀ (c : FieldCfg) (e : CurveCfg) (x y : Nat), FieldWf c →
    (onCurve c e .infinity = true ↔ e.form ≠ .edwards)
    ∧ (c.kind = .prime →
      (onCurve c e (.affine x y) = true ↔
        match e.form with
        | .weierstrass => y ^ 2 % c.modulus = (x ^ 3 + e.a * x + e.b) % c.modulus
        | .montgomery => e.b * y ^ 2 % c.modulus = (x ^ 3 + e.a * x ^ 2 + x) % c.modulus
        | .edwards => (x ^ 2 + y ^ 2) % c.modulus = (1 + e.a * x ^ 2 * y ^ 2) % c.modulus))
    ∧ (c.kind = .binary → e.form = .weierstrass → canon c e.b = true →
      (onCurve c e (.affine x y) = true ↔
        pmod (clmul y y) c.modulus
          = pmod (clmul (clmul x x) x ^^^ clmul e.a x ^^^ e.b) c.modulus))

/-- 43_point.md R200, R210, R211: PSET writes a point of the curve and raises PointNotOnCurve for every other pair;
PINF writes O under W and M, and (0, 1) under E, and never raises with a committed curve. -/
def Obligations.PointCreationResults : Prop :=
  (∀ (s : State) (rd : PIdx) (rs1 rs2 : FIdx) (x y : Nat), s.curve.valid = true →
    HoldsCanon s rs1 x → HoldsCanon s rs2 y →
    (onCurve s.field s.curve (.affine x y) = true →
      ∃ t, exec (.pset rd rs1 rs2) s = .next t ∧ WritesP s t rd (.affine x y))
    ∧ (onCurve s.field s.curve (.affine x y) = false →
      ∃ t, exec (.pset rd rs1 rs2) s = .next t ∧ Raises s t 3))
  ∧ ∀ (s : State) (rd : PIdx), Inv s → s.curve.valid = true →
    (s.curve.form ≠ .edwards → ∃ t, exec (.pinf rd) s = .next t ∧ WritesP s t rd .infinity)
    ∧ (s.curve.form = .edwards → ∃ t, exec (.pinf rd) s = .next t ∧ WritesP s t rd (.affine 0 1))

/-- 43_point.md R212, R213: PGETX and PGETY write the coordinate of an affine point, and raise IdentityCoord for O. -/
def Obligations.CoordinateResults : Prop :=
  ∀ (s : State) (rd : FIdx) (rs1 : PIdx), s.curve.valid = true →
    (∀ x y, HoldsP s rs1 (.affine x y) →
      (∃ t, exec (.pgetx rd rs1) s = .next t ∧ WritesF s t rd x)
      ∧ ∃ t, exec (.pgety rd rs1) s = .next t ∧ WritesF s t rd y)
    ∧ (HoldsP s rs1 .infinity →
      (∃ t, exec (.pgetx rd rs1) s = .next t ∧ Raises s t 13)
      ∧ ∃ t, exec (.pgety rd rs1) s = .next t ∧ Raises s t 13)

/-- 43_point.md R204, R214, R215: PMOV copies and PNEG negates every point that a register holds, and neither
raises. -/
def Obligations.MoveAndNegateResults : Prop :=
  ∀ (s : State) (rd rs1 : PIdx) (pt : Point), Inv s → s.curve.valid = true → HoldsP s rs1 pt →
    (∃ t, exec (.pmov rd rs1) s = .next t ∧ WritesP s t rd pt)
    ∧ (pt = .infinity → ∃ t, exec (.pneg rd rs1) s = .next t ∧ WritesP s t rd .infinity)
    ∧ ∀ x y, pt = .affine x y →
      (s.curve.form = .weierstrass → s.field.kind = .binary →
        ∃ t, exec (.pneg rd rs1) s = .next t ∧ WritesP s t rd (.affine x y))
      ∧ (s.curve.form ≠ .edwards → s.field.kind = .prime →
        ∃ t, exec (.pneg rd rs1) s = .next t
          ∧ WritesP s t rd (.affine x ((s.field.modulus - y) % s.field.modulus)))
      ∧ (s.curve.form = .edwards →
        ∃ t, exec (.pneg rd rs1) s = .next t
          ∧ WritesP s t rd (.affine ((s.field.modulus - x) % s.field.modulus) y))

/-- 43_point.md R203, R216, R217: PADD and PDBL write the sum or the double when it is on the curve; off the curve
they raise PointNotOnCurve, and an error of the arithmetic is the command's error. R220: over a binary field every
point other than O added to itself gives O. -/
def Obligations.AddAndDoubleResults : Prop :=
  ∀ (s : State) (rd rs1 rs2 : PIdx) (a b : Point), s.curve.valid = true → HoldsP s rs1 a →
    (HoldsP s rs2 b →
      EndsWithPoint s rd (.padd rd rs1 rs2) (checked s (padd s.field s.curve a b)))
    ∧ EndsWithPoint s rd (.pdbl rd rs1) (checked s (pdbl s.field s.curve a))
    ∧ (Inv s → s.field.kind = .binary → HoldsP s rs2 a → a ≠ .infinity →
      ∃ t, exec (.padd rd rs1 rs2) s = .next t ∧ WritesP s t rd .infinity)

/-- 43_point.md R205–R207: the chord through two points of different x and the tangent at a point with y ≠ 0, for
the forms W and M over a prime field with a prime modulus, in the arithmetic of integers modulo p, and for the form W
over a binary field, in that of polynomials modulo f: the slope and the third point are those of the formulas. Over a
binary field the slope exists when its denominator has an inverse, and else the error is NotInvertible. Over every
field: O, opposite points, and equal x with y that are not opposite. -/
def Obligations.ChordAndTangentFormulas : Prop :=
  ∀ (c : FieldCfg) (e : CurveCfg) (x1 y1 x2 y2 : Nat), FieldWf c → CurveWf c e →
    e.form ≠ .edwards → CanonPoint c (.affine x1 y1) → CanonPoint c (.affine x2 y2) →
    (TruePrime c →
      (x1 ≠ x2 →
        ∃ l x3 y3, padd c e (.affine x1 y1) (.affine x2 y2) = .ok (.affine x3 y3)
          ∧ x3 < c.modulus ∧ y3 < c.modulus
          ∧ (l : ZMod c.modulus) * (x2 - x1) = y2 - y1
          ∧ (e.form = .weierstrass → (x3 : ZMod c.modulus) = l ^ 2 - x1 - x2)
          ∧ (e.form = .montgomery → (x3 : ZMod c.modulus) = e.b * l ^ 2 - e.a - x1 - x2)
          ∧ (y3 : ZMod c.modulus) = l * (x1 - x3) - y1)
      ∧ (y1 ≠ 0 →
        ∃ l x3 y3, pdbl c e (.affine x1 y1) = .ok (.affine x3 y3) ∧ x3 < c.modulus ∧ y3 < c.modulus
          ∧ (e.form = .weierstrass →
            (l : ZMod c.modulus) * (2 * y1) = 3 * x1 ^ 2 + e.a
              ∧ (x3 : ZMod c.modulus) = l ^ 2 - 2 * x1)
          ∧ (e.form = .montgomery →
            (l : ZMod c.modulus) * (2 * e.b * y1) = 3 * x1 ^ 2 + 2 * e.a * x1 + 1
              ∧ (x3 : ZMod c.modulus) = e.b * l ^ 2 - e.a - 2 * x1)
          ∧ (y3 : ZMod c.modulus) = l * (x1 - x3) - y1))
    ∧ (c.kind = .binary →
      (x1 ≠ x2 →
        (∀ i, finv c (x1 ^^^ x2) = .ok i →
          ∃ l x3 y3, padd c e (.affine x1 y1) (.affine x2 y2) = .ok (.affine x3 y3)
            ∧ canon c l = true ∧ polyMul c.modulus l (x1 ^^^ x2) = y1 ^^^ y2
            ∧ x3 = polyMul c.modulus l l ^^^ x1 ^^^ x2
            ∧ y3 = polyMul c.modulus l (x1 ^^^ x3) ^^^ y1)
        ∧ ∀ x, finv c (x1 ^^^ x2) = .error x →
          x = .notInvertible ∧ padd c e (.affine x1 y1) (.affine x2 y2) = .error .notInvertible)
      ∧ (y1 ≠ 0 →
        (∀ i, finv c y1 = .ok i →
          ∃ l x3 y3, pdbl c e (.affine x1 y1) = .ok (.affine x3 y3)
            ∧ canon c l = true ∧ polyMul c.modulus l y1 = polyMul c.modulus x1 x1 ^^^ e.a
            ∧ x3 = polyMul c.modulus l l
            ∧ y3 = polyMul c.modulus l (x1 ^^^ x3) ^^^ y1)
        ∧ ∀ x, finv c y1 = .error x →
          x = .notInvertible ∧ pdbl c e (.affine x1 y1) = .error .notInvertible)
      ∧ (x1 = x2 → y1 = y2 → padd c e (.affine x1 y1) (.affine x2 y2) = .ok .infinity)
      ∧ (x1 = x2 → y1 ≠ y2 →
        padd c e (.affine x1 y1) (.affine x2 y2) = pdbl c e (.affine x1 y1)))
    ∧ (c.kind = .prime →
      (x1 = x2 → y2 = (c.modulus - y1) % c.modulus →
        padd c e (.affine x1 y1) (.affine x2 y2) = .ok .infinity)
      ∧ (x1 = x2 → y2 ≠ (c.modulus - y1) % c.modulus →
        padd c e (.affine x1 y1) (.affine x2 y2) = pdbl c e (.affine x1 y1)))
    ∧ (y1 = 0 → pdbl c e (.affine x1 y1) = .ok .infinity)
    ∧ pdbl c e .infinity = .ok .infinity
    ∧ (∀ pt, padd c e .infinity pt = .ok pt ∧ padd c e pt .infinity = .ok pt)

/-- 43_point.md R208: the Edwards sum, over a prime field with a prime modulus: (0, 1) when a denominator is 0, and
else the quotients of the formulas; doubling is the sum with itself. -/
def Obligations.EdwardsFormulas : Prop :=
  ∀ (c : FieldCfg) (e : CurveCfg) (x1 y1 x2 y2 : Nat), FieldWf c → TruePrime c → CurveWf c e →
    e.form = .edwards →
    let t : ZMod c.modulus := e.a * x1 * x2 * y1 * y2
    (1 + t = 0 ∨ 1 - t = 0 → padd c e (.affine x1 y1) (.affine x2 y2) = .ok (.affine 0 1))
    ∧ (1 + t ≠ 0 → 1 - t ≠ 0 →
      ∃ x3 y3, padd c e (.affine x1 y1) (.affine x2 y2) = .ok (.affine x3 y3)
        ∧ x3 < c.modulus ∧ y3 < c.modulus
        ∧ (x3 : ZMod c.modulus) * (1 + t) = x1 * y2 + y1 * x2
        ∧ (y3 : ZMod c.modulus) * (1 - t) = y1 * y2 - x1 * x2)
    ∧ pdbl c e (.affine x1 y1) = padd c e (.affine x1 y1) (.affine x1 y1)

/-- 43_point.md R221: the identity, inverse, doubling and commutativity laws of the point unit on a curve over a prime
field. The inverse law for E, and commutativity for W and M, rest on a prime modulus. -/
def Obligations.PointUnitLaws : Prop :=
  ∀ (c : FieldCfg) (e : CurveCfg) (p q : Point), FieldWf c → CurveWf c e → c.kind = .prime →
    PointWf c e p → PointWf c e q →
    padd c e (ident e) p = .ok p ∧ padd c e p (ident e) = .ok p
    ∧ padd c e p p = pdbl c e p
    ∧ (e.form ≠ .edwards ∨ Nat.Prime c.modulus → padd c e p (pneg c e p) = .ok (ident e))
    ∧ (e.form = .edwards ∨ Nat.Prime c.modulus → padd c e p q = padd c e q p)

/-- 43_point.md R203, R221, 44_scalar.md R243–R245: on a curve over a prime field with a prime modulus PADD, PDBL and
the scalar multiplications never raise on VALID operands, and write a point of the curve. -/
def Obligations.PrimeCurvesAreClosed : Prop :=
  ∀ (s : State) (rd rs1 rs2 : PIdx) (kn : KIdx) (a b : Point) (k : Nat), Inv s →
    s.curve.valid = true → TruePrime s.field → HoldsP s rs1 a → HoldsP s rs2 b → HoldsK s kn k →
    ∀ i ∈ [Instr.padd rd rs1 rs2, .pdbl rd rs1, .psmul rd rs1 kn, .psmulda rd rs1 kn,
        .psmulml rd rs1 kn],
      ∃ t r, exec i s = .next t ∧ WritesP s t rd r ∧ PointWf s.field s.curve r

/-- 43_point.md R218, R219: PONC finds every point that a register holds on the curve, and PISINF tests for the
identity; each writes its one flag and nothing else. -/
def Obligations.PointTestResults : Prop :=
  ∀ (s : State) (rs1 : PIdx) (pt : Point), s.curve.valid = true → HoldsP s rs1 pt →
    (Inv s → ∃ t, exec (.ponc rs1) s = .next t ∧ WritesNoRegister s t ∧ t.status.onc = true
      ∧ t.status.z = s.status.z ∧ t.status.lsb = s.status.lsb ∧ t.status.nr = s.status.nr)
    ∧ ∃ t, exec (.pisinf rs1) s = .next t ∧ WritesNoRegister s t
      ∧ (t.status.z = true ↔
        (s.curve.form ≠ .edwards ∧ pt = .infinity) ∨ (s.curve.form = .edwards ∧ pt = .affine 0 1))
      ∧ t.status.lsb = s.status.lsb ∧ t.status.nr = s.status.nr ∧ t.status.onc = s.status.onc

/-! ## Scalars (44_scalar.md) -/

/-- 44_scalar.md R240, R241: double-and-add and the ladder are the loops over the bits of the scalar, with `chk` after
every sum and double, for every form and field. R242–R245: PSMUL takes the ladder under M and double-and-add under W
and E; PSMULDA and PSMULML take the one they name under every form. The scalar is the value of the K register, not
reduced. -/
def Obligations.ScalarMultiplicationResults : Prop :=
  ∀ (s : State) (rd rs1 : PIdx) (rs2 : KIdx) (pt : Point) (k : Nat), s.curve.valid = true →
    HoldsP s rs1 pt → HoldsK s rs2 k →
    smulDa s.field s.curve pt k = doubleAndAdd s pt k
    ∧ smulMl s.field s.curve pt k = ladder s pt k
    ∧ EndsWithPoint s rd (.psmulda rd rs1 rs2) (smulDa s.field s.curve pt k)
    ∧ EndsWithPoint s rd (.psmulml rd rs1 rs2) (smulMl s.field s.curve pt k)
    ∧ (s.curve.form = .montgomery →
      EndsWithPoint s rd (.psmul rd rs1 rs2) (smulMl s.field s.curve pt k))
    ∧ (s.curve.form ≠ .montgomery →
      EndsWithPoint s rd (.psmul rd rs1 rs2) (smulDa s.field s.curve pt k))

/-- 44_scalar.md R240, R241, R249: on a W or M curve over a prime field with a prime modulus, double-and-add and the
Montgomery ladder give the same point, and it is that of adding the point k times to the identity. The form E is
left out: notes/assumptions/14. -/
def Obligations.BothAlgorithmsAreRepeatedAddition : Prop :=
  ∀ (c : FieldCfg) (e : CurveCfg) (p : Point) (k : Nat), FieldWf c → TruePrime c → CurveWf c e →
    e.form ≠ .edwards → PointWf c e p → k < 2 ^ Config.nbits →
    ∃ r, PointWf c e r ∧ smulDa c e p k = .ok r ∧ smulMl c e p k = .ok r
      ∧ (fun acc => Except.bind acc (padd c e p))^[k] (.ok (ident e)) = .ok r

/-- 44_scalar.md R240, R241, R243: over every field, with a zero scalar each of the three commands gives the identity,
and with a scalar of 1 PSMULDA, and PSMUL under W and E, give the point back. The ladder, which doubles the point in
its last pass, gives the point back when the double is on the curve, as over a prime field with a prime modulus it
always is, and else the error of the double. -/
def Obligations.ZeroAndOneScalars : Prop :=
  ∀ (s : State) (rd rs1 : PIdx) (rs2 : KIdx) (pt : Point), Inv s → s.curve.valid = true →
    HoldsP s rs1 pt →
    (HoldsK s rs2 0 →
      ∀ i ∈ [Instr.psmul rd rs1 rs2, .psmulda rd rs1 rs2, .psmulml rd rs1 rs2],
        ∃ t, exec i s = .next t ∧ WritesP s t rd (ident s.curve))
    ∧ (HoldsK s rs2 1 →
      (∃ t, exec (.psmulda rd rs1 rs2) s = .next t ∧ WritesP s t rd pt)
      ∧ (s.curve.form ≠ .montgomery → ∃ t, exec (.psmul rd rs1 rs2) s = .next t ∧ WritesP s t rd pt)
      ∧ (TruePrime s.field → ∀ i ∈ [Instr.psmul rd rs1 rs2, .psmulml rd rs1 rs2],
        ∃ t, exec i s = .next t ∧ WritesP s t rd pt)
      ∧ (∀ q, checked s (pdbl s.field s.curve pt) = .ok q →
        ∃ t, exec (.psmulml rd rs1 rs2) s = .next t ∧ WritesP s t rd pt)
      ∧ ∀ x, checked s (pdbl s.field s.curve pt) = .error x →
        ∃ t, exec (.psmulml rd rs1 rs2) s = .next t ∧ Raises s t x.code.toNat)

/-- 44_scalar.md R246–R248: KLDI, KFROMF and FFROMK. -/
def Obligations.ScalarRegisterResults : Prop :=
  ∀ (s : State) (kd kn : KIdx) (fd fs : FIdx) (imm : BitVec 12) (v : Nat),
    (∃ t, exec (.kldi kd imm) s = .next t ∧ WritesK s t kd imm.toNat)
    ∧ (s.field.valid = true → HoldsF s fs v →
      ∃ t, exec (.kfromf kd fs) s = .next t ∧ WritesK s t kd v)
    ∧ (s.field.valid = true → HoldsK s kn v → s.field.kind = .prime →
      ∃ t, exec (.ffromk fd kn) s = .next t ∧ WritesF s t fd (v % s.field.modulus))
    ∧ (s.field.valid = true → HoldsK s kn v → s.field.kind = .binary →
      ∃ t, exec (.ffromk fd kn) s = .next t ∧ WritesF s t fd (pmod v s.field.modulus))

/-! ## Errors (60_exceptions.md) and whole-machine rules -/

/-- 60_exceptions.md R261, R264: without the configuration it needs, a command raises NotConfigured before it reads
an operand. -/
def Obligations.NotConfiguredComesFirst : Prop :=
  ∀ (s : State) (i : Instr), ¬Configured s i → ∃ t, exec i s = .next t ∧ Raises s t 11

/-- 10_state.md R36–R38, 60_exceptions.md R264: of the operands, in the order they are read, the first that is EMPTY,
STALE or not canonical decides the error. -/
def Obligations.FirstOperandErrorDecides : Prop :=
  ∀ (s : State) (i : Instr) (pre post : List Operand) (o : Operand) (code : Nat), Configured s i →
    operands i = pre ++ o :: post → (∀ q ∈ pre, operandError s q = none) →
    operandError s o = some code → ∃ t, exec i s = .next t ∧ Raises s t code

/-- 60_exceptions.md R262, R263, 00_scope.md R17: every command ends in a next state: without an error, leaving the
error latch and all that commands do not write as it was, or with an error, changing the error latch, DONE and BUSY
and nothing else; and so does every engine step with a word in flight, legal or not. -/
def Obligations.CommandsEndWholeOrNotAtAll : Prop :=
  (∀ (s : State) (i : Instr), ∃ t, exec i s = .next t ∧ (Succeeds s t ∨ Raised s t))
  ∧ ∀ (s : State) (draw : Bool), s.status.busy = true →
    ∃ t, step (withEngine s draw) = .next t
      ∧ (Succeeds { s with mrDraw := draw } t ∨ Raised { s with mrDraw := draw } t)

/-- 60_exceptions.md R261: the errors each command can raise, in states that meet the invariant. Whatever the error
latch held before, a command either ends without an error or raises one error of its row: that the latch may be
anything tells a command that raises again what is latched already from one that leaves the latch. One error more,
DivisionByZero of the commands that add or double points on a curve of form M over a composite modulus, is the model's
deduction (notes/assumptions/13). -/
def Obligations.ErrorMatrix : Prop :=
  ∀ (s : State) (i : Instr), Inv s →
    (∀ err code cmd, ∃ t, exec i (withLatch s err code cmd) = .next t
      ∧ Succeeds (withLatch s err code cmd) t)
    ∨ ∃ n, (n ∈ errorCodes i ∨ (n = 6 ∧ addsPoints i ∧ CompositeMontgomery s))
      ∧ ∀ err code cmd, ∃ t, exec i (withLatch s err code cmd) = .next t
        ∧ Raises (withLatch s err code cmd) t n

/-- 10_state.md R47: a command writes no flag but those that its rule names, and one that raises writes none. -/
def Obligations.FlagsWritten : Prop :=
  ∀ (s t : State) (i : Instr), exec i s = .next t →
    (∀ f, f ∉ flagsWritten i → flagOf t.status f = flagOf s.status f)
    ∧ (t.status.err = true → s.status.err = false → SameFlags s t)

/-- 10_state.md R39, R43, R44, R59: a command changes no register but its destination, CFGF and CFGC apart, which
change tags; no command but CFGF writes the committed field, and none but CFGF and CFGC the committed curve. -/
def Obligations.RegistersWritten : Prop :=
  ∀ (s t : State) (i : Instr), exec i s = .next t →
    (∀ r, destF i ≠ some r → (t.f r).v = (s.f r).v ∧ (i ≠ .cfgf → t.f r = s.f r))
    ∧ (∀ r, destP i ≠ some r →
      (t.p r).x = (s.p r).x ∧ (t.p r).y = (s.p r).y ∧ (t.p r).inf = (s.p r).inf
      ∧ (i ≠ .cfgf → (∀ form a b, i ≠ .cfgc form a b) → t.p r = s.p r))
    ∧ (∀ r, destK i ≠ some r → t.k r = s.k r)
    ∧ (i ≠ .cfgf → t.field = s.field)
    ∧ (i ≠ .cfgf → (∀ form a b, i ≠ .cfgc form a b) → t.curve = s.curve)

/-- 10_state.md R47: no command reads a flag: from two states that differ in flags alone, a command gives states that
differ in flags alone, and agree in the flags that it wrote in either. -/
def Obligations.NoCommandReadsAFlag : Prop :=
  ∀ (s t : State) (i : Instr) (z lsb nr onc : Bool), exec i s = .next t →
    ∃ z' lsb' nr' onc', exec i (withFlags s z lsb nr onc) = .next (withFlags t z' lsb' nr' onc')
      ∧ (z' = t.status.z ∨ z' = z) ∧ (lsb' = t.status.lsb ∨ lsb' = lsb)
      ∧ (nr' = t.status.nr ∨ nr' = nr) ∧ (onc' = t.status.onc ∨ onc' = onc)

/-- The state after reset meets the invariant. -/
def Obligations.ResetMeetsTheInvariant : Prop := Inv State.reset

/-- 10_state.md R59, R39, R43, R44, R46: every step keeps the invariant: a committed field and curve have passed
their checks, and every VALID point register holds a point of the committed curve. -/
def Obligations.StepKeepsTheInvariant : Prop :=
  ∀ s s' : State, Inv s → step s = .next s' → Inv s'
end

