-- ==== Sys2Proof/Laws/Arith.lean ====
section
/-! SUPPORT. What the arithmetic primitives answer: canonical results, and the closed forms over a prime field. -/

namespace Sys2Proof.Machine

/-! ### Polynomials -/

/-- The top bit of a nonzero number. -/
theorem testBit_log2 {v : Nat} (h : v ≠ 0) : v.testBit v.log2 = true := by
  have h1 := Nat.log2_self_le h
  have h2 : v < 2 ^ (v.log2 + 1) := Nat.lt_log2_self
  rw [Nat.testBit_eq_decide_div_mod_eq]
  have : v / 2 ^ v.log2 = 1 := by
    apply Nat.div_eq_of_lt_le <;> omega
  simp [this]

/-- Cancelling the top bit of `v` with a shifted `f` leaves a smaller number. -/
theorem xor_shift_lt {v f : Nat} (hv : v ≠ 0) (hf : f ≠ 0) (hd : f.log2 ≤ v.log2) :
    v ^^^ (f <<< (v.log2 - f.log2)) < 2 ^ v.log2 := by
  apply Nat.lt_of_testBit v.log2
  · rw [Nat.testBit_xor, testBit_log2 hv, Nat.testBit_shiftLeft]
    have : v.log2 - (v.log2 - f.log2) = f.log2 := by omega
    simp [this, testBit_log2 hf]
  · simp [Nat.testBit_two_pow_self]
  · intro j hj
    rw [Nat.testBit_two_pow_of_ne (by omega), Nat.testBit_xor, Nat.testBit_shiftLeft]
    have h1 : v.testBit j = false := Nat.testBit_lt_two_pow (lt_of_lt_of_le Nat.lt_log2_self (Nat.pow_le_pow_right (by norm_num) hj))
    have h2 : f.testBit (j - (v.log2 - f.log2)) = false :=
      Nat.testBit_lt_two_pow (lt_of_lt_of_le Nat.lt_log2_self (Nat.pow_le_pow_right (by norm_num) (by omega)))
    simp [h1, h2]

theorem pmodLoop_lt {f : Nat} (hf : f ≠ 0) :
    ∀ n v, v < 2 ^ n → pmodLoop n v f < 2 ^ f.log2
  | 0, v, h => by
    simp only [pmodLoop]
    have : v = 0 := by simpa using h
    simp [this]
  | n + 1, v, h => by
    simp only [pmodLoop]
    split
    · rename_i hc
      apply pmodLoop_lt hf n
      refine lt_of_lt_of_le (xor_shift_lt hc.1 hf hc.2) (Nat.pow_le_pow_right (by norm_num) ?_)
      exact Nat.lt_succ_iff.mp ((Nat.log2_lt hc.1).mpr h)
    · rename_i hc
      by_cases hv : v = 0
      · simp [hv]
      · have : v.log2 < f.log2 := by
          by_contra hh
          exact hc ⟨hv, by omega⟩
        exact lt_of_lt_of_le Nat.lt_log2_self (Nat.pow_le_pow_right (by norm_num) this)

/-- A remainder has a smaller degree than the modulus. -/
theorem pmod_lt {f : Nat} (hf : f ≠ 0) (v : Nat) : pmod v f < 2 ^ f.log2 :=
  pmodLoop_lt hf _ _ Nat.lt_log2_self

theorem pmod_of_lt {v f : Nat} (h : v.log2 < f.log2 ∨ v = 0) : pmod v f = v := by
  have hc : ¬(v ≠ 0 ∧ f.log2 ≤ v.log2) := by omega
  simp [pmod, pmodLoop, hc]

/-! ### Canonical results -/

section
variable {c : FieldCfg}

theorem canon_prime (hk : c.kind = .prime) (v : Nat) : canon c v = true ↔ v < c.modulus := by
  simp [canon, hk]

theorem canon_binary (hk : c.kind = .binary) (v : Nat) : canon c v = true ↔ v < 2 ^ c.degree := by
  simp [canon, hk]

/-- The degree of the committed polynomial is m (41_field.md R155). -/
theorem FieldWf.log2_modulus (h : FieldWf c) (hk : c.kind = .binary) :
    c.modulus.log2 = c.degree ∧ c.modulus ≠ 0 := by
  simp only [FieldWf, hk] at h
  obtain ⟨-, -, hb, hlt, -⟩ := h
  have hge := Nat.ge_two_pow_of_testBit hb
  have hne : c.modulus ≠ 0 := by
    have := Nat.two_pow_pos c.degree
    omega
  refine ⟨?_, hne⟩
  have h1 := (Nat.log2_lt hne).mpr hlt
  have h2 := (Nat.le_log2 hne).mpr hge
  omega

theorem FieldWf.modulus_pos (h : FieldWf c) : 0 < c.modulus := by
  cases hk : c.kind with
  | prime => simp only [FieldWf, hk] at h; omega
  | binary => exact Nat.pos_of_ne_zero (h.log2_modulus hk).2

theorem canon_pmod (h : FieldWf c) (hk : c.kind = .binary) (v : Nat) :
    canon c (pmod v c.modulus) = true := by
  obtain ⟨hl, hne⟩ := h.log2_modulus hk
  rw [canon_binary hk, ← hl]
  exact pmod_lt hne v

theorem canon_fnorm (h : FieldWf c) (v : Nat) : canon c (fnorm c v) = true := by
  cases hk : c.kind with
  | prime =>
    rw [canon_prime hk]
    simpa [fnorm, hk] using Nat.mod_lt _ h.modulus_pos
  | binary => simpa [fnorm, hk] using canon_pmod h hk v

theorem canon_fadd (h : FieldWf c) {a b : Nat} (ha : canon c a = true) (hb : canon c b = true) :
    canon c (fadd c a b) = true := by
  cases hk : c.kind with
  | prime =>
    rw [canon_prime hk]
    simpa [fadd, hk] using Nat.mod_lt _ h.modulus_pos
  | binary =>
    rw [canon_binary hk] at *
    simpa [fadd, hk] using Nat.xor_lt_two_pow ha hb

theorem canon_fsub (h : FieldWf c) {a b : Nat} (ha : canon c a = true) (hb : canon c b = true) :
    canon c (fsub c a b) = true := by
  cases hk : c.kind with
  | prime =>
    have hp := h.modulus_pos
    have := Int.emod_lt_of_pos ((a : Int) - b) (by exact_mod_cast hp : (0 : Int) < c.modulus)
    have := Int.emod_nonneg ((a : Int) - b) (by omega : (c.modulus : Int) ≠ 0)
    rw [canon_prime hk]
    simp only [fsub, hk]
    omega
  | binary =>
    rw [canon_binary hk] at *
    simpa [fsub, hk] using Nat.xor_lt_two_pow ha hb

theorem canon_fneg (h : FieldWf c) {a : Nat} (ha : canon c a = true) : canon c (fneg c a) = true := by
  cases hk : c.kind with
  | prime =>
    have hp := h.modulus_pos
    have := Int.emod_lt_of_pos ((c.modulus : Int) - a) (by exact_mod_cast hp : (0 : Int) < c.modulus)
    have := Int.emod_nonneg ((c.modulus : Int) - a) (by omega : (c.modulus : Int) ≠ 0)
    rw [canon_prime hk]
    simp only [fneg, hk]
    omega
  | binary => simpa [fneg, hk] using ha

theorem canon_fmul (h : FieldWf c) (a b : Nat) : canon c (fmul c a b) = true := by
  cases hk : c.kind with
  | prime =>
    rw [canon_prime hk]
    simpa [fmul, hk] using Nat.mod_lt _ h.modulus_pos
  | binary => simpa [fmul, hk] using canon_pmod h hk _

theorem canon_zero (h : FieldWf c) : canon c 0 = true := by
  cases hk : c.kind with
  | prime => simpa [canon_prime hk] using h.modulus_pos
  | binary => simp [canon_binary hk]

theorem canon_one (h : FieldWf c) : canon c 1 = true := by
  cases hk : c.kind with
  | prime => simp only [FieldWf, hk] at h; rw [canon_prime hk]; omega
  | binary =>
    simp only [FieldWf, hk] at h
    rw [canon_binary hk]
    exact Nat.one_lt_two_pow (by omega)

theorem canon_powLoop (h : FieldWf c) :
    ∀ n e base r, canon c r = true → canon c (powLoop c n e base r) = true
  | 0, _, _, _, hr => hr
  | n + 1, e, base, r, hr => by
    simp only [powLoop]
    apply canon_powLoop h n
    split
    · exact canon_fmul h _ _
    · exact hr

theorem canon_powNat (h : FieldWf c) (a e : Nat) : canon c (powNat c a e) = true := by
  simp only [powNat]
  split
  · exact canon_one h
  · exact canon_powLoop h _ _ _ _ (canon_one h)

theorem canon_finv (h : FieldWf c) {a r : Nat} (hr : finv c a = .ok r) : canon c r = true := by
  simp only [finv] at hr
  cases hk : c.kind <;> rw [hk] at hr <;> split at hr <;> simp at hr
  · subst hr; exact canon_powNat h _ _
  · split at hr <;> simp at hr
    subst hr; exact canon_pmod h hk _

theorem fdiv_ok {a b r : Nat} (hr : fdiv c a b = .ok r) : ∃ i, finv c b = .ok i ∧ r = fmul c a i := by
  simp only [fdiv] at hr
  cases hi : finv c b with
  | error e => rw [hi] at hr; cases hr
  | ok i => rw [hi] at hr; cases hr; exact ⟨i, rfl, rfl⟩

theorem canon_fdiv (h : FieldWf c) {a b r : Nat} (hr : fdiv c a b = .ok r) : canon c r = true := by
  obtain ⟨i, -, rfl⟩ := fdiv_ok hr
  exact canon_fmul h _ _

theorem canon_fpow (h : FieldWf c) {a e r : Nat} {neg : Bool} (hr : fpow c a e neg = .ok r) :
    canon c r = true := by
  simp only [fpow] at hr
  split at hr
  · cases hr; exact canon_one h
  · split at hr
    · cases hi : finv c a with
      | error e => rw [hi] at hr; cases hr
      | ok i => rw [hi] at hr; cases hr; exact canon_powNat h _ _
    · cases hr; exact canon_powNat h _ _

theorem canon_fsqrt (h : FieldWf c) {a r : Nat} (hr : fsqrt c a = .ok (some r)) : canon c r = true := by
  simp only [fsqrt] at hr
  split at hr
  · cases hr; exact canon_powNat h _ _
  · split at hr
    · cases hr; exact canon_zero h
    · split at hr
      · cases hr
      · split at hr
        · cases hr; exact canon_powNat h _ _
        · cases hr

/-- A canonical value fits a register. -/
theorem canon_lt (h : FieldWf c) {v : Nat} (hv : canon c v = true) : v < 2 ^ Config.nbits := by
  cases hk : c.kind with
  | prime => simp only [FieldWf, hk] at h; rw [canon_prime hk] at hv; omega
  | binary =>
    simp only [FieldWf, hk] at h
    rw [canon_binary hk] at hv
    exact lt_of_lt_of_le hv (Nat.pow_le_pow_right (by norm_num) h.2.1)

/-! ### Closed forms over a prime field -/

theorem powLoop_prime (hk : c.kind = .prime) :
    ∀ n e base r, e < 2 ^ n → r < c.modulus → powLoop c n e base r = r * base ^ e % c.modulus
  | 0, e, base, r, he, hr => by
    have : e = 0 := by simpa using he
    simp [powLoop, this, Nat.mod_eq_of_lt hr]
  | n + 1, e, base, r, he, hr => by
    have hp : 0 < c.modulus := by omega
    simp only [powLoop]
    rw [powLoop_prime hk n _ _ _ (by omega)]
    · have hsq : (fmul c base base) ^ (e / 2) % c.modulus = base ^ (2 * (e / 2)) % c.modulus := by
        simp only [fmul, hk]
        rw [← Nat.pow_mod, pow_mul, pow_two]
      have key : ∀ x, x * (fmul c base base) ^ (e / 2) % c.modulus = x * base ^ (2 * (e / 2)) % c.modulus := by
        intro x
        rw [Nat.mul_mod, hsq, ← Nat.mul_mod]
      rw [key]
      split
      · rename_i hodd
        have he2 : e = 2 * (e / 2) + 1 := by omega
        conv_rhs => rw [he2, pow_succ]
        simp only [fmul, hk, Nat.mod_mul_mod]
        ring_nf
      · have he2 : e = 2 * (e / 2) := by omega
        conv_rhs => rw [he2]
    · split
      · simpa [fmul, hk] using Nat.mod_lt _ hp
      · exact hr

/-- Over a prime field the power is `a^e mod p` (41_field.md R158, R160). -/
theorem powNat_prime (hk : c.kind = .prime) (hp : 1 < c.modulus) (a e : Nat) :
    powNat c a e = a ^ e % c.modulus := by
  simp only [powNat]
  split
  · subst_vars; simp [Nat.mod_eq_of_lt hp]
  · rw [powLoop_prime hk _ _ _ _ Nat.lt_log2_self hp, one_mul]

theorem fsub_prime (hk : c.kind = .prime) {a b : Nat} (hb : b ≤ c.modulus) :
    fsub c a b = (a + c.modulus - b) % c.modulus := by
  have h : ((a : Int) - b) % c.modulus = ((a + c.modulus - b : Nat) : Int) % c.modulus := by
    rw [Nat.cast_sub (by omega), Nat.cast_add, add_sub_right_comm, Int.add_emod_right]
  simp only [fsub, hk]
  rw [h, ← Int.natCast_mod, Int.toNat_natCast]

theorem fneg_prime (hk : c.kind = .prime) {a : Nat} (ha : a ≤ c.modulus) :
    fneg c a = (c.modulus - a) % c.modulus := by
  simp only [fneg, hk]
  rw [← Nat.cast_sub ha, ← Int.natCast_mod, Int.toNat_natCast]

end

end Sys2Proof.Machine
end

