-- ==== Sys2Proof/Laws/State.lean ====
section
/-! SUPPORT. One lemma for each field of State under each update, and the registers under each write, so that no
later proof unfolds an update. -/

namespace Sys2Proof.Machine

/-! ### writeF -/

@[simp] theorem State.writeF_fregs (s : State) (i : FIdx) (v : Nat) :
    (s.writeF i v).fregs = s.fregs.set i ⟨BitVec.ofNat _ v, .valid⟩ := rfl
@[simp] theorem State.writeF_pregs (s : State) (i : FIdx) (v : Nat) : (s.writeF i v).pregs = s.pregs := rfl
@[simp] theorem State.writeF_kregs (s : State) (i : FIdx) (v : Nat) : (s.writeF i v).kregs = s.kregs := rfl
@[simp] theorem State.writeF_status (s : State) (i : FIdx) (v : Nat) : (s.writeF i v).status = s.status := rfl
@[simp] theorem State.writeF_curCmd (s : State) (i : FIdx) (v : Nat) : (s.writeF i v).curCmd = s.curCmd := rfl
@[simp] theorem State.writeF_cmdcnt (s : State) (i : FIdx) (v : Nat) : (s.writeF i v).cmdcnt = s.cmdcnt := rfl
@[simp] theorem State.writeF_errcmd (s : State) (i : FIdx) (v : Nat) : (s.writeF i v).errcmd = s.errcmd := rfl
@[simp] theorem State.writeF_field (s : State) (i : FIdx) (v : Nat) : (s.writeF i v).field = s.field := rfl
@[simp] theorem State.writeF_curve (s : State) (i : FIdx) (v : Nat) : (s.writeF i v).curve = s.curve := rfl
@[simp] theorem State.writeF_staging (s : State) (i : FIdx) (v : Nat) : (s.writeF i v).staging = s.staging := rfl
@[simp] theorem State.writeF_irqen (s : State) (i : FIdx) (v : Nat) : (s.writeF i v).irqen = s.irqen := rfl
@[simp] theorem State.writeF_schedule (s : State) (i : FIdx) (v : Nat) : (s.writeF i v).schedule = s.schedule := rfl
@[simp] theorem State.writeF_mrDraw (s : State) (i : FIdx) (v : Nat) : (s.writeF i v).mrDraw = s.mrDraw := rfl
@[simp] theorem State.writeF_freeTurns (s : State) (i : FIdx) (v : Nat) : (s.writeF i v).freeTurns = s.freeTurns := rfl
@[simp] theorem State.writeF_readData (s : State) (i : FIdx) (v : Nat) : (s.writeF i v).readData = s.readData := rfl

/-! ### writeP -/

@[simp] theorem State.writeP_fregs (s : State) (j : PIdx) (pt : Point) : (s.writeP j pt).fregs = s.fregs := rfl
@[simp] theorem State.writeP_pregs (s : State) (j : PIdx) (pt : Point) :
    (s.writeP j pt).pregs = s.pregs.set j pt.toReg := rfl
@[simp] theorem State.writeP_kregs (s : State) (j : PIdx) (pt : Point) : (s.writeP j pt).kregs = s.kregs := rfl
@[simp] theorem State.writeP_status (s : State) (j : PIdx) (pt : Point) : (s.writeP j pt).status = s.status := rfl
@[simp] theorem State.writeP_curCmd (s : State) (j : PIdx) (pt : Point) : (s.writeP j pt).curCmd = s.curCmd := rfl
@[simp] theorem State.writeP_cmdcnt (s : State) (j : PIdx) (pt : Point) : (s.writeP j pt).cmdcnt = s.cmdcnt := rfl
@[simp] theorem State.writeP_errcmd (s : State) (j : PIdx) (pt : Point) : (s.writeP j pt).errcmd = s.errcmd := rfl
@[simp] theorem State.writeP_field (s : State) (j : PIdx) (pt : Point) : (s.writeP j pt).field = s.field := rfl
@[simp] theorem State.writeP_curve (s : State) (j : PIdx) (pt : Point) : (s.writeP j pt).curve = s.curve := rfl
@[simp] theorem State.writeP_staging (s : State) (j : PIdx) (pt : Point) : (s.writeP j pt).staging = s.staging := rfl
@[simp] theorem State.writeP_irqen (s : State) (j : PIdx) (pt : Point) : (s.writeP j pt).irqen = s.irqen := rfl
@[simp] theorem State.writeP_schedule (s : State) (j : PIdx) (pt : Point) : (s.writeP j pt).schedule = s.schedule := rfl
@[simp] theorem State.writeP_mrDraw (s : State) (j : PIdx) (pt : Point) : (s.writeP j pt).mrDraw = s.mrDraw := rfl
@[simp] theorem State.writeP_freeTurns (s : State) (j : PIdx) (pt : Point) : (s.writeP j pt).freeTurns = s.freeTurns := rfl
@[simp] theorem State.writeP_readData (s : State) (j : PIdx) (pt : Point) : (s.writeP j pt).readData = s.readData := rfl

/-! ### writeK -/

@[simp] theorem State.writeK_fregs (s : State) (k : KIdx) (v : Nat) : (s.writeK k v).fregs = s.fregs := rfl
@[simp] theorem State.writeK_pregs (s : State) (k : KIdx) (v : Nat) : (s.writeK k v).pregs = s.pregs := rfl
@[simp] theorem State.writeK_kregs (s : State) (k : KIdx) (v : Nat) :
    (s.writeK k v).kregs = s.kregs.set k ⟨BitVec.ofNat _ v, .valid⟩ := rfl
@[simp] theorem State.writeK_status (s : State) (k : KIdx) (v : Nat) : (s.writeK k v).status = s.status := rfl
@[simp] theorem State.writeK_curCmd (s : State) (k : KIdx) (v : Nat) : (s.writeK k v).curCmd = s.curCmd := rfl
@[simp] theorem State.writeK_cmdcnt (s : State) (k : KIdx) (v : Nat) : (s.writeK k v).cmdcnt = s.cmdcnt := rfl
@[simp] theorem State.writeK_errcmd (s : State) (k : KIdx) (v : Nat) : (s.writeK k v).errcmd = s.errcmd := rfl
@[simp] theorem State.writeK_field (s : State) (k : KIdx) (v : Nat) : (s.writeK k v).field = s.field := rfl
@[simp] theorem State.writeK_curve (s : State) (k : KIdx) (v : Nat) : (s.writeK k v).curve = s.curve := rfl
@[simp] theorem State.writeK_staging (s : State) (k : KIdx) (v : Nat) : (s.writeK k v).staging = s.staging := rfl
@[simp] theorem State.writeK_irqen (s : State) (k : KIdx) (v : Nat) : (s.writeK k v).irqen = s.irqen := rfl
@[simp] theorem State.writeK_schedule (s : State) (k : KIdx) (v : Nat) : (s.writeK k v).schedule = s.schedule := rfl
@[simp] theorem State.writeK_mrDraw (s : State) (k : KIdx) (v : Nat) : (s.writeK k v).mrDraw = s.mrDraw := rfl
@[simp] theorem State.writeK_freeTurns (s : State) (k : KIdx) (v : Nat) : (s.writeK k v).freeTurns = s.freeTurns := rfl
@[simp] theorem State.writeK_readData (s : State) (k : KIdx) (v : Nat) : (s.writeK k v).readData = s.readData := rfl

/-! ### setZL -/

@[simp] theorem State.setZL_fregs (s : State) (v : Nat) : (s.setZL v).fregs = s.fregs := rfl
@[simp] theorem State.setZL_pregs (s : State) (v : Nat) : (s.setZL v).pregs = s.pregs := rfl
@[simp] theorem State.setZL_kregs (s : State) (v : Nat) : (s.setZL v).kregs = s.kregs := rfl
@[simp] theorem State.setZL_status (s : State) (v : Nat) :
    (s.setZL v).status = { s.status with z := v == 0, lsb := v.testBit 0 } := rfl
@[simp] theorem State.setZL_curCmd (s : State) (v : Nat) : (s.setZL v).curCmd = s.curCmd := rfl
@[simp] theorem State.setZL_cmdcnt (s : State) (v : Nat) : (s.setZL v).cmdcnt = s.cmdcnt := rfl
@[simp] theorem State.setZL_errcmd (s : State) (v : Nat) : (s.setZL v).errcmd = s.errcmd := rfl
@[simp] theorem State.setZL_field (s : State) (v : Nat) : (s.setZL v).field = s.field := rfl
@[simp] theorem State.setZL_curve (s : State) (v : Nat) : (s.setZL v).curve = s.curve := rfl
@[simp] theorem State.setZL_staging (s : State) (v : Nat) : (s.setZL v).staging = s.staging := rfl
@[simp] theorem State.setZL_irqen (s : State) (v : Nat) : (s.setZL v).irqen = s.irqen := rfl
@[simp] theorem State.setZL_schedule (s : State) (v : Nat) : (s.setZL v).schedule = s.schedule := rfl
@[simp] theorem State.setZL_mrDraw (s : State) (v : Nat) : (s.setZL v).mrDraw = s.mrDraw := rfl
@[simp] theorem State.setZL_freeTurns (s : State) (v : Nat) : (s.setZL v).freeTurns = s.freeTurns := rfl
@[simp] theorem State.setZL_readData (s : State) (v : Nat) : (s.setZL v).readData = s.readData := rfl

/-! ### setZLp -/

@[simp] theorem State.setZLp_fregs (s : State) (pt : Point) : (s.setZLp pt).fregs = s.fregs := rfl
@[simp] theorem State.setZLp_pregs (s : State) (pt : Point) : (s.setZLp pt).pregs = s.pregs := rfl
@[simp] theorem State.setZLp_kregs (s : State) (pt : Point) : (s.setZLp pt).kregs = s.kregs := rfl
@[simp] theorem State.setZLp_status (s : State) (pt : Point) :
    (s.setZLp pt).status = { s.status with z := isId s.curve pt, lsb := pt.lsb } := rfl
@[simp] theorem State.setZLp_curCmd (s : State) (pt : Point) : (s.setZLp pt).curCmd = s.curCmd := rfl
@[simp] theorem State.setZLp_cmdcnt (s : State) (pt : Point) : (s.setZLp pt).cmdcnt = s.cmdcnt := rfl
@[simp] theorem State.setZLp_errcmd (s : State) (pt : Point) : (s.setZLp pt).errcmd = s.errcmd := rfl
@[simp] theorem State.setZLp_field (s : State) (pt : Point) : (s.setZLp pt).field = s.field := rfl
@[simp] theorem State.setZLp_curve (s : State) (pt : Point) : (s.setZLp pt).curve = s.curve := rfl
@[simp] theorem State.setZLp_staging (s : State) (pt : Point) : (s.setZLp pt).staging = s.staging := rfl
@[simp] theorem State.setZLp_irqen (s : State) (pt : Point) : (s.setZLp pt).irqen = s.irqen := rfl
@[simp] theorem State.setZLp_schedule (s : State) (pt : Point) : (s.setZLp pt).schedule = s.schedule := rfl
@[simp] theorem State.setZLp_mrDraw (s : State) (pt : Point) : (s.setZLp pt).mrDraw = s.mrDraw := rfl
@[simp] theorem State.setZLp_freeTurns (s : State) (pt : Point) : (s.setZLp pt).freeTurns = s.freeTurns := rfl
@[simp] theorem State.setZLp_readData (s : State) (pt : Point) : (s.setZLp pt).readData = s.readData := rfl

/-! ### setZ -/

@[simp] theorem State.setZ_fregs (s : State) (b : Bool) : (s.setZ b).fregs = s.fregs := rfl
@[simp] theorem State.setZ_pregs (s : State) (b : Bool) : (s.setZ b).pregs = s.pregs := rfl
@[simp] theorem State.setZ_kregs (s : State) (b : Bool) : (s.setZ b).kregs = s.kregs := rfl
@[simp] theorem State.setZ_status (s : State) (b : Bool) :
    (s.setZ b).status = { s.status with z := b } := rfl
@[simp] theorem State.setZ_curCmd (s : State) (b : Bool) : (s.setZ b).curCmd = s.curCmd := rfl
@[simp] theorem State.setZ_cmdcnt (s : State) (b : Bool) : (s.setZ b).cmdcnt = s.cmdcnt := rfl
@[simp] theorem State.setZ_errcmd (s : State) (b : Bool) : (s.setZ b).errcmd = s.errcmd := rfl
@[simp] theorem State.setZ_field (s : State) (b : Bool) : (s.setZ b).field = s.field := rfl
@[simp] theorem State.setZ_curve (s : State) (b : Bool) : (s.setZ b).curve = s.curve := rfl
@[simp] theorem State.setZ_staging (s : State) (b : Bool) : (s.setZ b).staging = s.staging := rfl
@[simp] theorem State.setZ_irqen (s : State) (b : Bool) : (s.setZ b).irqen = s.irqen := rfl
@[simp] theorem State.setZ_schedule (s : State) (b : Bool) : (s.setZ b).schedule = s.schedule := rfl
@[simp] theorem State.setZ_mrDraw (s : State) (b : Bool) : (s.setZ b).mrDraw = s.mrDraw := rfl
@[simp] theorem State.setZ_freeTurns (s : State) (b : Bool) : (s.setZ b).freeTurns = s.freeTurns := rfl
@[simp] theorem State.setZ_readData (s : State) (b : Bool) : (s.setZ b).readData = s.readData := rfl

/-! ### setNR -/

@[simp] theorem State.setNR_fregs (s : State) (b : Bool) : (s.setNR b).fregs = s.fregs := rfl
@[simp] theorem State.setNR_pregs (s : State) (b : Bool) : (s.setNR b).pregs = s.pregs := rfl
@[simp] theorem State.setNR_kregs (s : State) (b : Bool) : (s.setNR b).kregs = s.kregs := rfl
@[simp] theorem State.setNR_status (s : State) (b : Bool) :
    (s.setNR b).status = { s.status with nr := b } := rfl
@[simp] theorem State.setNR_curCmd (s : State) (b : Bool) : (s.setNR b).curCmd = s.curCmd := rfl
@[simp] theorem State.setNR_cmdcnt (s : State) (b : Bool) : (s.setNR b).cmdcnt = s.cmdcnt := rfl
@[simp] theorem State.setNR_errcmd (s : State) (b : Bool) : (s.setNR b).errcmd = s.errcmd := rfl
@[simp] theorem State.setNR_field (s : State) (b : Bool) : (s.setNR b).field = s.field := rfl
@[simp] theorem State.setNR_curve (s : State) (b : Bool) : (s.setNR b).curve = s.curve := rfl
@[simp] theorem State.setNR_staging (s : State) (b : Bool) : (s.setNR b).staging = s.staging := rfl
@[simp] theorem State.setNR_irqen (s : State) (b : Bool) : (s.setNR b).irqen = s.irqen := rfl
@[simp] theorem State.setNR_schedule (s : State) (b : Bool) : (s.setNR b).schedule = s.schedule := rfl
@[simp] theorem State.setNR_mrDraw (s : State) (b : Bool) : (s.setNR b).mrDraw = s.mrDraw := rfl
@[simp] theorem State.setNR_freeTurns (s : State) (b : Bool) : (s.setNR b).freeTurns = s.freeTurns := rfl
@[simp] theorem State.setNR_readData (s : State) (b : Bool) : (s.setNR b).readData = s.readData := rfl

/-! ### setONC -/

@[simp] theorem State.setONC_fregs (s : State) (b : Bool) : (s.setONC b).fregs = s.fregs := rfl
@[simp] theorem State.setONC_pregs (s : State) (b : Bool) : (s.setONC b).pregs = s.pregs := rfl
@[simp] theorem State.setONC_kregs (s : State) (b : Bool) : (s.setONC b).kregs = s.kregs := rfl
@[simp] theorem State.setONC_status (s : State) (b : Bool) :
    (s.setONC b).status = { s.status with onc := b } := rfl
@[simp] theorem State.setONC_curCmd (s : State) (b : Bool) : (s.setONC b).curCmd = s.curCmd := rfl
@[simp] theorem State.setONC_cmdcnt (s : State) (b : Bool) : (s.setONC b).cmdcnt = s.cmdcnt := rfl
@[simp] theorem State.setONC_errcmd (s : State) (b : Bool) : (s.setONC b).errcmd = s.errcmd := rfl
@[simp] theorem State.setONC_field (s : State) (b : Bool) : (s.setONC b).field = s.field := rfl
@[simp] theorem State.setONC_curve (s : State) (b : Bool) : (s.setONC b).curve = s.curve := rfl
@[simp] theorem State.setONC_staging (s : State) (b : Bool) : (s.setONC b).staging = s.staging := rfl
@[simp] theorem State.setONC_irqen (s : State) (b : Bool) : (s.setONC b).irqen = s.irqen := rfl
@[simp] theorem State.setONC_schedule (s : State) (b : Bool) : (s.setONC b).schedule = s.schedule := rfl
@[simp] theorem State.setONC_mrDraw (s : State) (b : Bool) : (s.setONC b).mrDraw = s.mrDraw := rfl
@[simp] theorem State.setONC_freeTurns (s : State) (b : Bool) : (s.setONC b).freeTurns = s.freeTurns := rfl
@[simp] theorem State.setONC_readData (s : State) (b : Bool) : (s.setONC b).readData = s.readData := rfl

/-! ### complete -/

@[simp] theorem State.complete_fregs (s : State) : s.complete.fregs = s.fregs := rfl
@[simp] theorem State.complete_pregs (s : State) : s.complete.pregs = s.pregs := rfl
@[simp] theorem State.complete_kregs (s : State) : s.complete.kregs = s.kregs := rfl
@[simp] theorem State.complete_status (s : State) :
    s.complete.status = { s.status with done := true, busy := false } := rfl
@[simp] theorem State.complete_curCmd (s : State) : s.complete.curCmd = s.curCmd := rfl
@[simp] theorem State.complete_cmdcnt (s : State) : s.complete.cmdcnt = s.cmdcnt := rfl
@[simp] theorem State.complete_errcmd (s : State) : s.complete.errcmd = s.errcmd := rfl
@[simp] theorem State.complete_field (s : State) : s.complete.field = s.field := rfl
@[simp] theorem State.complete_curve (s : State) : s.complete.curve = s.curve := rfl
@[simp] theorem State.complete_staging (s : State) : s.complete.staging = s.staging := rfl
@[simp] theorem State.complete_irqen (s : State) : s.complete.irqen = s.irqen := rfl
@[simp] theorem State.complete_schedule (s : State) : s.complete.schedule = s.schedule := rfl
@[simp] theorem State.complete_mrDraw (s : State) : s.complete.mrDraw = s.mrDraw := rfl
@[simp] theorem State.complete_freeTurns (s : State) : s.complete.freeTurns = s.freeTurns := rfl
@[simp] theorem State.complete_readData (s : State) : s.complete.readData = s.readData := rfl

/-! ### raiseError -/

@[simp] theorem State.raiseError_fregs (s : State) (e : Err) : (s.raiseError e).fregs = s.fregs := rfl
@[simp] theorem State.raiseError_pregs (s : State) (e : Err) : (s.raiseError e).pregs = s.pregs := rfl
@[simp] theorem State.raiseError_kregs (s : State) (e : Err) : (s.raiseError e).kregs = s.kregs := rfl
@[simp] theorem State.raiseError_status (s : State) (e : Err) :
    (s.raiseError e).status = { s.status with err := true, errcode := e.code, done := true, busy := false } := rfl
@[simp] theorem State.raiseError_curCmd (s : State) (e : Err) : (s.raiseError e).curCmd = s.curCmd := rfl
@[simp] theorem State.raiseError_cmdcnt (s : State) (e : Err) : (s.raiseError e).cmdcnt = s.cmdcnt := rfl
@[simp] theorem State.raiseError_errcmd (s : State) (e : Err) :
    (s.raiseError e).errcmd = s.curCmd := rfl
@[simp] theorem State.raiseError_field (s : State) (e : Err) : (s.raiseError e).field = s.field := rfl
@[simp] theorem State.raiseError_curve (s : State) (e : Err) : (s.raiseError e).curve = s.curve := rfl
@[simp] theorem State.raiseError_staging (s : State) (e : Err) : (s.raiseError e).staging = s.staging := rfl
@[simp] theorem State.raiseError_irqen (s : State) (e : Err) : (s.raiseError e).irqen = s.irqen := rfl
@[simp] theorem State.raiseError_schedule (s : State) (e : Err) : (s.raiseError e).schedule = s.schedule := rfl
@[simp] theorem State.raiseError_mrDraw (s : State) (e : Err) : (s.raiseError e).mrDraw = s.mrDraw := rfl
@[simp] theorem State.raiseError_freeTurns (s : State) (e : Err) : (s.raiseError e).freeTurns = s.freeTurns := rfl
@[simp] theorem State.raiseError_readData (s : State) (e : Err) : (s.raiseError e).readData = s.readData := rfl

/-! ### staleF -/

@[simp] theorem State.staleF_pregs (s : State) : s.staleF.pregs = s.pregs := rfl
@[simp] theorem State.staleF_kregs (s : State) : s.staleF.kregs = s.kregs := rfl
@[simp] theorem State.staleF_status (s : State) : s.staleF.status = s.status := rfl
@[simp] theorem State.staleF_curCmd (s : State) : s.staleF.curCmd = s.curCmd := rfl
@[simp] theorem State.staleF_cmdcnt (s : State) : s.staleF.cmdcnt = s.cmdcnt := rfl
@[simp] theorem State.staleF_errcmd (s : State) : s.staleF.errcmd = s.errcmd := rfl
@[simp] theorem State.staleF_field (s : State) : s.staleF.field = s.field := rfl
@[simp] theorem State.staleF_curve (s : State) : s.staleF.curve = s.curve := rfl
@[simp] theorem State.staleF_staging (s : State) : s.staleF.staging = s.staging := rfl
@[simp] theorem State.staleF_irqen (s : State) : s.staleF.irqen = s.irqen := rfl
@[simp] theorem State.staleF_schedule (s : State) : s.staleF.schedule = s.schedule := rfl
@[simp] theorem State.staleF_mrDraw (s : State) : s.staleF.mrDraw = s.mrDraw := rfl
@[simp] theorem State.staleF_freeTurns (s : State) : s.staleF.freeTurns = s.freeTurns := rfl
@[simp] theorem State.staleF_readData (s : State) : s.staleF.readData = s.readData := rfl

/-! ### staleP -/

@[simp] theorem State.staleP_fregs (s : State) : s.staleP.fregs = s.fregs := rfl
@[simp] theorem State.staleP_kregs (s : State) : s.staleP.kregs = s.kregs := rfl
@[simp] theorem State.staleP_status (s : State) : s.staleP.status = s.status := rfl
@[simp] theorem State.staleP_curCmd (s : State) : s.staleP.curCmd = s.curCmd := rfl
@[simp] theorem State.staleP_cmdcnt (s : State) : s.staleP.cmdcnt = s.cmdcnt := rfl
@[simp] theorem State.staleP_errcmd (s : State) : s.staleP.errcmd = s.errcmd := rfl
@[simp] theorem State.staleP_field (s : State) : s.staleP.field = s.field := rfl
@[simp] theorem State.staleP_curve (s : State) : s.staleP.curve = s.curve := rfl
@[simp] theorem State.staleP_staging (s : State) : s.staleP.staging = s.staging := rfl
@[simp] theorem State.staleP_irqen (s : State) : s.staleP.irqen = s.irqen := rfl
@[simp] theorem State.staleP_schedule (s : State) : s.staleP.schedule = s.schedule := rfl
@[simp] theorem State.staleP_mrDraw (s : State) : s.staleP.mrDraw = s.mrDraw := rfl
@[simp] theorem State.staleP_freeTurns (s : State) : s.staleP.freeTurns = s.freeTurns := rfl
@[simp] theorem State.staleP_readData (s : State) : s.staleP.readData = s.readData := rfl

/-! ### commitField -/

@[simp] theorem State.commitField_kregs (s : State) (c : FieldCfg) : (s.commitField c).kregs = s.kregs := rfl
@[simp] theorem State.commitField_status (s : State) (c : FieldCfg) : (s.commitField c).status = s.status := rfl
@[simp] theorem State.commitField_curCmd (s : State) (c : FieldCfg) : (s.commitField c).curCmd = s.curCmd := rfl
@[simp] theorem State.commitField_cmdcnt (s : State) (c : FieldCfg) : (s.commitField c).cmdcnt = s.cmdcnt := rfl
@[simp] theorem State.commitField_errcmd (s : State) (c : FieldCfg) : (s.commitField c).errcmd = s.errcmd := rfl
@[simp] theorem State.commitField_field (s : State) (c : FieldCfg) :
    (s.commitField c).field = c := rfl
@[simp] theorem State.commitField_curve (s : State) (c : FieldCfg) :
    (s.commitField c).curve = { s.curve with valid := false } := rfl
@[simp] theorem State.commitField_staging (s : State) (c : FieldCfg) : (s.commitField c).staging = s.staging := rfl
@[simp] theorem State.commitField_irqen (s : State) (c : FieldCfg) : (s.commitField c).irqen = s.irqen := rfl
@[simp] theorem State.commitField_schedule (s : State) (c : FieldCfg) : (s.commitField c).schedule = s.schedule := rfl
@[simp] theorem State.commitField_mrDraw (s : State) (c : FieldCfg) : (s.commitField c).mrDraw = s.mrDraw := rfl
@[simp] theorem State.commitField_freeTurns (s : State) (c : FieldCfg) : (s.commitField c).freeTurns = s.freeTurns := rfl
@[simp] theorem State.commitField_readData (s : State) (c : FieldCfg) : (s.commitField c).readData = s.readData := rfl

/-! ### commitCurve -/

@[simp] theorem State.commitCurve_fregs (s : State) (e : CurveCfg) : (s.commitCurve e).fregs = s.fregs := rfl
@[simp] theorem State.commitCurve_kregs (s : State) (e : CurveCfg) : (s.commitCurve e).kregs = s.kregs := rfl
@[simp] theorem State.commitCurve_status (s : State) (e : CurveCfg) : (s.commitCurve e).status = s.status := rfl
@[simp] theorem State.commitCurve_curCmd (s : State) (e : CurveCfg) : (s.commitCurve e).curCmd = s.curCmd := rfl
@[simp] theorem State.commitCurve_cmdcnt (s : State) (e : CurveCfg) : (s.commitCurve e).cmdcnt = s.cmdcnt := rfl
@[simp] theorem State.commitCurve_errcmd (s : State) (e : CurveCfg) : (s.commitCurve e).errcmd = s.errcmd := rfl
@[simp] theorem State.commitCurve_field (s : State) (e : CurveCfg) : (s.commitCurve e).field = s.field := rfl
@[simp] theorem State.commitCurve_curve (s : State) (e : CurveCfg) :
    (s.commitCurve e).curve = e := rfl
@[simp] theorem State.commitCurve_staging (s : State) (e : CurveCfg) : (s.commitCurve e).staging = s.staging := rfl
@[simp] theorem State.commitCurve_irqen (s : State) (e : CurveCfg) : (s.commitCurve e).irqen = s.irqen := rfl
@[simp] theorem State.commitCurve_schedule (s : State) (e : CurveCfg) : (s.commitCurve e).schedule = s.schedule := rfl
@[simp] theorem State.commitCurve_mrDraw (s : State) (e : CurveCfg) : (s.commitCurve e).mrDraw = s.mrDraw := rfl
@[simp] theorem State.commitCurve_freeTurns (s : State) (e : CurveCfg) : (s.commitCurve e).freeTurns = s.freeTurns := rfl
@[simp] theorem State.commitCurve_readData (s : State) (e : CurveCfg) : (s.commitCurve e).readData = s.readData := rfl

/-! ### accept -/

@[simp] theorem State.accept_fregs (s : State) (w : BusWord) : (s.accept w).fregs = s.fregs := rfl
@[simp] theorem State.accept_pregs (s : State) (w : BusWord) : (s.accept w).pregs = s.pregs := rfl
@[simp] theorem State.accept_kregs (s : State) (w : BusWord) : (s.accept w).kregs = s.kregs := rfl
@[simp] theorem State.accept_status (s : State) (w : BusWord) :
    (s.accept w).status = { s.status with busy := true } := rfl
@[simp] theorem State.accept_curCmd (s : State) (w : BusWord) :
    (s.accept w).curCmd = w := rfl
@[simp] theorem State.accept_cmdcnt (s : State) (w : BusWord) :
    (s.accept w).cmdcnt = s.cmdcnt + 1 := rfl
@[simp] theorem State.accept_errcmd (s : State) (w : BusWord) : (s.accept w).errcmd = s.errcmd := rfl
@[simp] theorem State.accept_field (s : State) (w : BusWord) : (s.accept w).field = s.field := rfl
@[simp] theorem State.accept_curve (s : State) (w : BusWord) : (s.accept w).curve = s.curve := rfl
@[simp] theorem State.accept_staging (s : State) (w : BusWord) : (s.accept w).staging = s.staging := rfl
@[simp] theorem State.accept_irqen (s : State) (w : BusWord) : (s.accept w).irqen = s.irqen := rfl
@[simp] theorem State.accept_schedule (s : State) (w : BusWord) : (s.accept w).schedule = s.schedule := rfl
@[simp] theorem State.accept_mrDraw (s : State) (w : BusWord) : (s.accept w).mrDraw = s.mrDraw := rfl
@[simp] theorem State.accept_freeTurns (s : State) (w : BusWord) : (s.accept w).freeTurns = s.freeTurns := rfl
@[simp] theorem State.accept_readData (s : State) (w : BusWord) : (s.accept w).readData = s.readData := rfl

/-! ### dropWrite -/

@[simp] theorem State.dropWrite_fregs (s : State) : s.dropWrite.fregs = s.fregs := rfl
@[simp] theorem State.dropWrite_pregs (s : State) : s.dropWrite.pregs = s.pregs := rfl
@[simp] theorem State.dropWrite_kregs (s : State) : s.dropWrite.kregs = s.kregs := rfl
@[simp] theorem State.dropWrite_status (s : State) :
    s.dropWrite.status = { s.status with ovf := true } := rfl
@[simp] theorem State.dropWrite_curCmd (s : State) : s.dropWrite.curCmd = s.curCmd := rfl
@[simp] theorem State.dropWrite_cmdcnt (s : State) : s.dropWrite.cmdcnt = s.cmdcnt := rfl
@[simp] theorem State.dropWrite_errcmd (s : State) : s.dropWrite.errcmd = s.errcmd := rfl
@[simp] theorem State.dropWrite_field (s : State) : s.dropWrite.field = s.field := rfl
@[simp] theorem State.dropWrite_curve (s : State) : s.dropWrite.curve = s.curve := rfl
@[simp] theorem State.dropWrite_staging (s : State) : s.dropWrite.staging = s.staging := rfl
@[simp] theorem State.dropWrite_irqen (s : State) : s.dropWrite.irqen = s.irqen := rfl
@[simp] theorem State.dropWrite_schedule (s : State) : s.dropWrite.schedule = s.schedule := rfl
@[simp] theorem State.dropWrite_mrDraw (s : State) : s.dropWrite.mrDraw = s.mrDraw := rfl
@[simp] theorem State.dropWrite_freeTurns (s : State) : s.dropWrite.freeTurns = s.freeTurns := rfl
@[simp] theorem State.dropWrite_readData (s : State) : s.dropWrite.readData = s.readData := rfl

/-! ### The registers under a write -/

@[simp] theorem State.f_writeF (s : State) (i j : FIdx) (v : Nat) :
    (s.writeF i v).f j = if i = j then ⟨BitVec.ofNat _ v, .valid⟩ else s.f j := by
  simp [State.f, Vector.getElem_set, Fin.ext_iff]

@[simp] theorem State.p_writeP (s : State) (i j : PIdx) (pt : Point) :
    (s.writeP i pt).p j = if i = j then pt.toReg else s.p j := by
  simp [State.p, Vector.getElem_set, Fin.ext_iff]

@[simp] theorem State.k_writeK (s : State) (i j : KIdx) (v : Nat) :
    (s.writeK i v).k j = if i = j then ⟨BitVec.ofNat _ v, .valid⟩ else s.k j := by
  simp [State.k, Vector.getElem_set, Fin.ext_iff]

/-- Each register of a mapped file is the image of the register. -/
@[simp] theorem getElem_mapFile {α : Type} {n : Nat} (g : α → α) (file : Vector α n) (i : Fin n) :
    (mapFile g file)[i] = g file[i] := by
  simp [mapFile]

@[simp] theorem State.f_staleF (s : State) (i : FIdx) :
    s.staleF.f i = { s.f i with tag := (s.f i).tag.toStale } := by
  simp only [State.f, State.staleF, getElem_mapFile]

@[simp] theorem State.p_staleP (s : State) (j : PIdx) :
    s.staleP.p j = { s.p j with tag := (s.p j).tag.toStale } := by
  simp only [State.p, State.staleP, getElem_mapFile]

@[simp] theorem State.f_commitField (s : State) (c : FieldCfg) (i : FIdx) :
    (s.commitField c).f i = { s.f i with tag := (s.f i).tag.toStale } := by
  simp only [State.f, State.commitField, State.staleF, State.staleP, getElem_mapFile]

@[simp] theorem State.p_commitField (s : State) (c : FieldCfg) (j : PIdx) :
    (s.commitField c).p j = { s.p j with tag := (s.p j).tag.toStale } := by
  simp only [State.p, State.commitField, State.staleF, State.staleP, getElem_mapFile]

@[simp] theorem State.p_commitCurve (s : State) (e : CurveCfg) (j : PIdx) :
    (s.commitCurve e).p j = { s.p j with tag := (s.p j).tag.toStale } := by
  simp only [State.p, State.commitCurve, State.staleP, getElem_mapFile]

/-! ### The files that an update does not touch -/

@[simp] theorem State.p_writeF (s : State) (i : FIdx) (v : Nat) (r : PIdx) : (s.writeF i v).p r = s.p r := rfl
@[simp] theorem State.k_writeF (s : State) (i : FIdx) (v : Nat) (r : KIdx) : (s.writeF i v).k r = s.k r := rfl
@[simp] theorem State.f_writeP (s : State) (j : PIdx) (pt : Point) (r : FIdx) : (s.writeP j pt).f r = s.f r := rfl
@[simp] theorem State.k_writeP (s : State) (j : PIdx) (pt : Point) (r : KIdx) : (s.writeP j pt).k r = s.k r := rfl
@[simp] theorem State.f_writeK (s : State) (k : KIdx) (v : Nat) (r : FIdx) : (s.writeK k v).f r = s.f r := rfl
@[simp] theorem State.p_writeK (s : State) (k : KIdx) (v : Nat) (r : PIdx) : (s.writeK k v).p r = s.p r := rfl
@[simp] theorem State.f_setZL (s : State) (v : Nat) (r : FIdx) : (s.setZL v).f r = s.f r := rfl
@[simp] theorem State.p_setZL (s : State) (v : Nat) (r : PIdx) : (s.setZL v).p r = s.p r := rfl
@[simp] theorem State.k_setZL (s : State) (v : Nat) (r : KIdx) : (s.setZL v).k r = s.k r := rfl
@[simp] theorem State.f_setZLp (s : State) (pt : Point) (r : FIdx) : (s.setZLp pt).f r = s.f r := rfl
@[simp] theorem State.p_setZLp (s : State) (pt : Point) (r : PIdx) : (s.setZLp pt).p r = s.p r := rfl
@[simp] theorem State.k_setZLp (s : State) (pt : Point) (r : KIdx) : (s.setZLp pt).k r = s.k r := rfl
@[simp] theorem State.f_setZ (s : State) (b : Bool) (r : FIdx) : (s.setZ b).f r = s.f r := rfl
@[simp] theorem State.p_setZ (s : State) (b : Bool) (r : PIdx) : (s.setZ b).p r = s.p r := rfl
@[simp] theorem State.k_setZ (s : State) (b : Bool) (r : KIdx) : (s.setZ b).k r = s.k r := rfl
@[simp] theorem State.f_setNR (s : State) (b : Bool) (r : FIdx) : (s.setNR b).f r = s.f r := rfl
@[simp] theorem State.p_setNR (s : State) (b : Bool) (r : PIdx) : (s.setNR b).p r = s.p r := rfl
@[simp] theorem State.k_setNR (s : State) (b : Bool) (r : KIdx) : (s.setNR b).k r = s.k r := rfl
@[simp] theorem State.f_setONC (s : State) (b : Bool) (r : FIdx) : (s.setONC b).f r = s.f r := rfl
@[simp] theorem State.p_setONC (s : State) (b : Bool) (r : PIdx) : (s.setONC b).p r = s.p r := rfl
@[simp] theorem State.k_setONC (s : State) (b : Bool) (r : KIdx) : (s.setONC b).k r = s.k r := rfl
@[simp] theorem State.f_complete (s : State) (r : FIdx) : s.complete.f r = s.f r := rfl
@[simp] theorem State.p_complete (s : State) (r : PIdx) : s.complete.p r = s.p r := rfl
@[simp] theorem State.k_complete (s : State) (r : KIdx) : s.complete.k r = s.k r := rfl
@[simp] theorem State.f_raiseError (s : State) (e : Err) (r : FIdx) : (s.raiseError e).f r = s.f r := rfl
@[simp] theorem State.p_raiseError (s : State) (e : Err) (r : PIdx) : (s.raiseError e).p r = s.p r := rfl
@[simp] theorem State.k_raiseError (s : State) (e : Err) (r : KIdx) : (s.raiseError e).k r = s.k r := rfl
@[simp] theorem State.p_staleF (s : State) (r : PIdx) : s.staleF.p r = s.p r := rfl
@[simp] theorem State.k_staleF (s : State) (r : KIdx) : s.staleF.k r = s.k r := rfl
@[simp] theorem State.f_staleP (s : State) (r : FIdx) : s.staleP.f r = s.f r := rfl
@[simp] theorem State.k_staleP (s : State) (r : KIdx) : s.staleP.k r = s.k r := rfl
@[simp] theorem State.k_commitField (s : State) (c : FieldCfg) (r : KIdx) : (s.commitField c).k r = s.k r := rfl
@[simp] theorem State.f_commitCurve (s : State) (e : CurveCfg) (r : FIdx) : (s.commitCurve e).f r = s.f r := rfl
@[simp] theorem State.k_commitCurve (s : State) (e : CurveCfg) (r : KIdx) : (s.commitCurve e).k r = s.k r := rfl
@[simp] theorem State.f_accept (s : State) (w : BusWord) (r : FIdx) : (s.accept w).f r = s.f r := rfl
@[simp] theorem State.p_accept (s : State) (w : BusWord) (r : PIdx) : (s.accept w).p r = s.p r := rfl
@[simp] theorem State.k_accept (s : State) (w : BusWord) (r : KIdx) : (s.accept w).k r = s.k r := rfl
@[simp] theorem State.f_dropWrite (s : State) (r : FIdx) : s.dropWrite.f r = s.f r := rfl
@[simp] theorem State.p_dropWrite (s : State) (r : PIdx) : s.dropWrite.p r = s.p r := rfl
@[simp] theorem State.k_dropWrite (s : State) (r : KIdx) : s.dropWrite.k r = s.k r := rfl

@[simp] theorem Tag.toStale_ne_valid (t : Tag) : t.toStale ≠ .valid := by cases t <;> decide

end Sys2Proof.Machine
end

