-- ==== Sys2Proof/Laws/Bus.lean ====
section
/-! SUPPORT. The port: the words of a register, the slots of the windows, and what an access can do. -/

namespace Sys2Proof.Machine

/-! ### Words -/

section
variable {n : Nat} (v : BitVec n) (w w' : Nat) (data : BusWord)

/-- Word w holds bits 32w+31..32w (20_memory.md R74). -/
theorem toNat_getWord : (getWord v w).toNat = v.toNat / 2 ^ (32 * w) % 2 ^ 32 := by
  rw [getWord, BitVec.extractLsb'_toNat, Nat.shiftRight_eq_div_pow]

theorem getLsbD_setWord (i : Nat) :
    (setWord v w data).getLsbD i =
      if 32 * w ≤ i ∧ i < 32 * w + 32 ∧ i < n then data.getLsbD (i - 32 * w) else v.getLsbD i := by
  have ho : ∀ j, (BitVec.allOnes 32).getLsbD j = decide (j < 32) := fun _ => BitVec.getLsbD_allOnes
  unfold setWord
  generalize BitVec.allOnes 32 = o at ho ⊢
  rw [BitVec.getLsbD_or, BitVec.getLsbD_and, BitVec.getLsbD_not, BitVec.getLsbD_shiftLeft,
    BitVec.getLsbD_shiftLeft, BitVec.getLsbD_setWidth, BitVec.getLsbD_setWidth, ho]
  by_cases hn : i < n
  · have hw : i - 32 * w < n := by omega
    by_cases hl : 32 * w ≤ i
    · by_cases hu : i < 32 * w + 32
      · simp [hn, hl, hu, hw, Nat.not_lt.mpr hl, show i - 32 * w < 32 by omega]
      · simp [hn, hl, hu, hw, Nat.not_lt.mpr hl, show ¬i - 32 * w < 32 by omega,
          BitVec.getLsbD_of_ge data (i - 32 * w) (by omega)]
    · simp [hn, hl, Nat.lt_of_not_le hl]
  · simp [hn, BitVec.getLsbD_of_ge v i (by omega)]

/-- A word that a register has reads back as it was written (20_memory.md R76). -/
theorem getWord_setWord (h : 32 * w + 32 ≤ n) : getWord (setWord v w data) w = data := by
  apply BitVec.eq_of_getLsbD_eq
  intro i hi
  rw [getWord, BitVec.getLsbD_extractLsb', getLsbD_setWord]
  simp [hi, show 32 * w + i < n by omega]

/-- Writing a word leaves the other words (20_memory.md R76). -/
theorem getWord_setWord_of_ne (h : w' ≠ w) : getWord (setWord v w data) w' = getWord v w' := by
  apply BitVec.eq_of_getLsbD_eq
  intro i hi
  rw [getWord, BitVec.getLsbD_extractLsb', getLsbD_setWord, getWord, BitVec.getLsbD_extractLsb']
  rw [if_neg (by omega)]

end

/-! ### Slots -/

theorem slotAt_f (i : FIdx) {w : Nat} (h : w < Config.nw) :
    slotAt (BitVec.ofNat 16 (0x1000 + 0x40 * i.val + 4 * w)) = .f i w := by
  revert i
  interval_cases w <;> decide

theorem slotAt_px (j : PIdx) {w : Nat} (h : w < Config.nw) :
    slotAt (BitVec.ofNat 16 (0x2000 + 0x100 * j.val + 4 * w)) = .px j w := by
  revert j
  interval_cases w <;> decide

theorem slotAt_py (j : PIdx) {w : Nat} (h : w < Config.nw) :
    slotAt (BitVec.ofNat 16 (0x2040 + 0x100 * j.val + 4 * w)) = .py j w := by
  revert j
  interval_cases w <;> decide

theorem slotAt_pinf (j : PIdx) : slotAt (BitVec.ofNat 16 (0x2080 + 0x100 * j.val)) = .pinf j := by
  revert j
  decide

theorem slotAt_k (k : KIdx) {w : Nat} (h : w < Config.nw) :
    slotAt (BitVec.ofNat 16 (0x3000 + 0x40 * k.val + 4 * w)) = .k k w := by
  revert k
  interval_cases w <;> decide

theorem slotAt_cfgMod {w : Nat} (h : w ≤ Config.nw) : slotAt (BitVec.ofNat 16 (0x4000 + 4 * w)) = .cfgMod w := by
  interval_cases w <;> decide

theorem slotAt_pmod {w : Nat} (h : w ≤ Config.nw) : slotAt (BitVec.ofNat 16 (0x4100 + 4 * w)) = .pmod w := by
  interval_cases w <;> decide

theorem slotAt_ca {w : Nat} (h : w < Config.nw) : slotAt (BitVec.ofNat 16 (0x4180 + 4 * w)) = .ca w := by
  interval_cases w <;> decide

theorem slotAt_cb {w : Nat} (h : w < Config.nw) : slotAt (BitVec.ofNat 16 (0x41C0 + 4 * w)) = .cb w := by
  interval_cases w <;> decide

/-! ### Accesses -/

variable {s t : State}

theorem busWrite_of_idle (h : s.status.busy = false) (off : Offset) (data : BusWord) :
    busWrite s off data = writeSlot s data (slotAt off) := by
  simp [busWrite, h]

theorem busWrite_of_drops (h : s.status.busy = true) {off : Offset}
    (hd : (slotAt off).dropsWhenBusy = true) (data : BusWord) : busWrite s off data = s.dropWrite := by
  simp [busWrite, h, hd]

theorem busWrite_of_not_drops {off : Offset} (hd : (slotAt off).dropsWhenBusy = false) (data : BusWord) :
    busWrite s off data = writeSlot s data (slotAt off) := by
  simp [busWrite, hd]

/-- An accepted MemRead changes nothing but the answer of the port (20_memory.md R82). -/
theorem hostAccess_read {off : Offset} (h : off.toNat % 4 = 0) :
    hostAccess (.read .w32 off) s = .next { s with readData := some (busRead s off) } := by
  simp [hostAccess, accepts, h]

theorem hostAccess_write {off : Offset} (h : off.toNat % 4 = 0) (data : BusWord) :
    hostAccess (.write .w32 off data) s = .next { busWrite s off data with readData := none } := by
  simp [hostAccess, accepts, h]

/-- EVERYTHING THAT A WRITE CAN DO: nothing, the drop that sets OVF, a reset, a command's acceptance, the W1C write
of STATUS, or the write of one register. -/
theorem writeSlot_cases (s : State) (data : BusWord) (sl : Slot) :
    writeSlot s data sl = s ∨ writeSlot s data sl = s.resetBlock ∨ writeSlot s data sl = s.accept data
      ∨ writeSlot s data sl = s.clearStatus data ∨ (∃ q, writeSlot s data sl = { s with irqen := q })
      ∨ (∃ g, writeSlot s data sl = { s with staging := g })
      ∨ (∃ i w, sl = .f i w ∧
        writeSlot s data sl = { s with fregs := s.fregs.set i ⟨setWord (s.f i).v w data, .valid⟩ })
      ∨ ∃ k w, sl = .k k w ∧
        writeSlot s data sl = { s with kregs := s.kregs.set k ⟨setWord (s.k k).v w data, .valid⟩ } := by
  cases sl <;> simp only [writeSlot, true_or, or_true]
  case ctrl => split <;> simp
  case irqen => exact .inr (.inr (.inr (.inr (.inl ⟨_, rfl⟩))))
  case cfgFkind | cfgM | cfgMrr | cfgMod => exact .inr (.inr (.inr (.inr (.inr (.inl ⟨_, rfl⟩)))))
  case f => exact .inr (.inr (.inr (.inr (.inr (.inr (.inl ⟨_, _, rfl, rfl⟩))))))
  case k => exact .inr (.inr (.inr (.inr (.inr (.inr (.inr ⟨_, _, rfl, rfl⟩))))))

/-! ### The step -/

theorem step_turn {x : Turn} {rest : List Turn} (h : s.schedule = x :: rest) :
    step s = takeTurn x { s with schedule := rest } := by
  simp [step, h]

theorem engineStep_busy (h : s.status.busy = true) (draw : Bool) :
    engineStep draw s = completeCommand { s with mrDraw := draw } := by
  simp [engineStep, h]

theorem engineStep_idle (h : s.status.busy = false) (draw : Bool) : engineStep draw s = .next s := by
  simp [engineStep, h]

theorem completeCommand_of_decode {i : Instr} (h : decode s.curCmd = .ok i) :
    completeCommand s = exec i s := by
  simp [completeCommand, h]

theorem completeCommand_of_illegal {e : DecodeError} (h : decode s.curCmd = .error e) :
    completeCommand s = .next (s.raiseError .illegalCommand) := by
  simp [completeCommand, h]

end Sys2Proof.Machine
end

