-- ==== Sys2Proof/Laws/Exec.lean ====
section
/-! SUPPORT. What the shared operations of the commands do: reading operands, the shapes of a command, and the two
ways a command ends. `exec_cases` says once everything that a command can do. -/

namespace Sys2Proof.Machine

variable {s t : State}

/-! ### Ending a command -/

@[simp] theorem finish_ok (s u : State) : finish s (.ok u) = .next u.complete := rfl
@[simp] theorem finish_error (s : State) (e : Err) : finish s (.error e) = .next (s.raiseError e) := rfl

/-- A command ends without an error, or with one. -/
theorem finish_next {o : Except Err State} (h : finish s o = .next t) :
    (∃ u, o = .ok u ∧ t = u.complete) ∨ ∃ e, o = .error e ∧ t = s.raiseError e := by
  cases o with
  | ok u => exact .inl ⟨u, rfl, by simpa using h.symm⟩
  | error e => exact .inr ⟨e, rfl, by simpa using h.symm⟩

theorem exists_finish (s : State) (o : Except Err State) : ∃ t, finish s o = .next t := by
  cases o <;> exact ⟨_, rfl⟩

theorem raises_raiseError (s : State) (e : Err) : Raises s (s.raiseError e) e.code.toNat := by
  cases e <;> rfl

/-- The error codes are 1 to 13 (60_exceptions.md R260). -/
theorem Err.code_bounds (e : Err) : 1 ≤ e.code.toNat ∧ e.code.toNat ≤ 13 := by
  cases e <;> decide

theorem Err.code_injective {e e' : Err} (h : e.code = e'.code) : e = e' := by
  cases e <;> cases e' <;> first | rfl | exact absurd h (by decide)

/-- The bind of an outcome that ends without an error. -/
theorem bind_ok_iff {α β : Type} {o : Except Err α} {g : α → Except Err β} {b : β} :
    (o >>= g) = .ok b ↔ ∃ a, o = .ok a ∧ g a = .ok b := by
  cases o with
  | ok a =>
    constructor
    · intro h; exact ⟨a, rfl, h⟩
    · rintro ⟨_, h, h'⟩; cases h; exact h'
  | error e =>
    constructor
    · intro h; cases h
    · rintro ⟨_, h, _⟩; cases h

/-- The bind of an outcome that ends with an error. -/
theorem bind_error_iff {α β : Type} {o : Except Err α} {g : α → Except Err β} {e : Err} :
    (o >>= g) = .error e ↔ o = .error e ∨ ∃ a, o = .ok a ∧ g a = .error e := by
  cases o with
  | ok a =>
    constructor
    · intro h; exact .inr ⟨a, rfl, h⟩
    · rintro (h | ⟨_, h, h'⟩)
      · cases h
      · cases h; exact h'
  | error e' =>
    constructor
    · intro h; cases h; exact .inl rfl
    · rintro (h | ⟨_, h, _⟩)
      · cases h; rfl
      · cases h

@[simp] theorem ok_bind {α β : Type} (a : α) (g : α → Except Err β) :
    ((Except.ok a : Except Err α) >>= g) = g a := rfl
@[simp] theorem error_bind {α β : Type} (e : Err) (g : α → Except Err β) :
    ((Except.error e : Except Err α) >>= g) = .error e := rfl

/-! ### Configuration and operands -/

@[simp] theorem needField_valid (h : s.field.valid = true) : needField s = .ok () := by
  simp [needField, h]
@[simp] theorem needField_invalid (h : s.field.valid = false) : needField s = .error .notConfigured := by
  simp [needField, h]
@[simp] theorem needCurve_valid (h : s.curve.valid = true) : needCurve s = .ok () := by
  simp [needCurve, h]
@[simp] theorem needCurve_invalid (h : s.curve.valid = false) : needCurve s = .error .notConfigured := by
  simp [needCurve, h]

theorem needField_ok_iff {u : Unit} : needField s = .ok u ↔ s.field.valid = true := by
  cases h : s.field.valid <;> simp [needField, h]

theorem needCurve_ok_iff {u : Unit} : needCurve s = .ok u ↔ s.curve.valid = true := by
  cases h : s.curve.valid <;> simp [needCurve, h]

/-- Reading an F register that need not be canonical. -/
theorem srcF_holds {i : FIdx} {v : Nat} (h : HoldsF s i v) : srcF s i false = .ok v := by
  simp [srcF, h.1, h.2]

/-- Reading an F register that must be canonical. -/
theorem srcF_canon {i : FIdx} {v : Nat} (h : HoldsCanon s i v) : srcF s i true = .ok v := by
  simp [srcF, h.1.1, h.1.2, h.2]

theorem srcF_ok {i : FIdx} {b : Bool} {v : Nat} (h : srcF s i b = .ok v) :
    HoldsF s i v ∧ (b = true → canon s.field v = true) := by
  unfold srcF at h
  split at h
  · cases h
  · cases h
  · split at h
    · cases h
    · rename_i ht hc
      cases h
      exact ⟨⟨ht, rfl⟩, fun hb => by simpa [hb] using hc⟩

theorem srcF_lt {i : FIdx} {b : Bool} {v : Nat} (h : srcF s i b = .ok v) : v < 2 ^ Config.nbits := by
  rw [← (srcF_ok h).1.2]
  exact (s.f i).v.isLt

theorem srcP_holds {j : PIdx} {pt : Point} (h : HoldsP s j pt) : srcP s j = .ok pt := by
  simp [srcP, h.1, h.2]

theorem srcP_ok {j : PIdx} {pt : Point} (h : srcP s j = .ok pt) : HoldsP s j pt := by
  unfold srcP at h
  split at h
  · cases h
  · cases h
  · rename_i ht
    cases h
    exact ⟨ht, rfl⟩

theorem srcK_holds {k : KIdx} {v : Nat} (h : HoldsK s k v) : srcK s k = .ok v := by
  simp [srcK, h.1, h.2]

theorem srcK_ok {k : KIdx} {v : Nat} (h : srcK s k = .ok v) : HoldsK s k v := by
  unfold srcK at h
  split at h
  · cases h
  · rename_i ht
    cases h
    exact ⟨ht, rfl⟩

theorem srcK_lt {k : KIdx} {v : Nat} (h : srcK s k = .ok v) : v < 2 ^ Config.nbits := by
  rw [← (srcK_ok h).2]
  exact (s.k k).v.isLt

/-! ### Results -/

theorem succeeds_of_status {u : State} (hs : u.status.err = s.status.err)
    (hc : u.status.errcode = s.status.errcode) (he : u.errcmd = s.errcmd) (ho : SameOutside s u) :
    Succeeds s u.complete where
  done := rfl
  busy := rfl
  err := hs
  errcode := hc
  errcmd := he
  outside := ⟨ho.curCmd, ho.cmdcnt, ho.staging, ho.irqen, ho.ovf, ho.schedule, ho.mrDraw, ho.freeTurns,
    ho.readData⟩

theorem sameOutside_putF (s : State) (rd : FIdx) (v : Nat) : SameOutside s (s.putF rd v) :=
  ⟨rfl, rfl, rfl, rfl, rfl, rfl, rfl, rfl, rfl⟩

theorem flagsOfValue_iff (s : State) (v : Nat) : FlagsOfValue s (s.setZL v).complete v := by
  refine ⟨?_, ?_, rfl, rfl⟩
  · show (v == 0) = decide (v = 0)
    rfl
  · show v.testBit 0 = decide (v % 2 = 1)
    simp

theorem flagsOfPoint_iff (s : State) (pt : Point) : FlagsOfPoint s (s.setZLp pt).complete pt := by
  refine ⟨?_, ?_, rfl, rfl⟩
  · show isId s.curve pt = true ↔ _
    cases hf : s.curve.form <;> simp [isId, ident, hf]
  · show pt.lsb = true ↔ _
    cases pt <;> simp [Point.lsb]

/-- What writing an F register does. -/
theorem writesF_putF (s : State) (rd : FIdx) (v : Nat) : WritesF s (s.putF rd v).complete rd v where
  succeeds := succeeds_of_status rfl rfl rfl (sameOutside_putF s rd v)
  value := by simp [State.putF]
  others := fun i hi => by simp [State.putF, hi.symm]
  points := fun _ => rfl
  scalars := fun _ => rfl
  config := ⟨rfl, rfl⟩
  flags := flagsOfValue_iff (s.writeF rd v) v

/-- What writing a K register does. -/
theorem writesK_putK (s : State) (rd : KIdx) (v : Nat) : WritesK s (s.putK rd v).complete rd v where
  succeeds := succeeds_of_status rfl rfl rfl ⟨rfl, rfl, rfl, rfl, rfl, rfl, rfl, rfl, rfl⟩
  value := by simp [State.putK]
  others := fun i hi => by simp [State.putK, hi.symm]
  fields := fun _ => rfl
  points := fun _ => rfl
  config := ⟨rfl, rfl⟩
  flags := flagsOfValue_iff (s.writeK rd v) v

/-- What writing a P register does. -/
theorem writesP_putP (s : State) (rd : PIdx) (pt : Point) : WritesP s (s.putP rd pt).complete rd pt where
  succeeds := succeeds_of_status rfl rfl rfl ⟨rfl, rfl, rfl, rfl, rfl, rfl, rfl, rfl, rfl⟩
  infinity := fun h => by subst h; simp [State.putP, Point.toReg]
  affine := fun x y h => by subst h; simp [State.putP, Point.toReg]
  others := fun i hi => by simp [State.putP, hi.symm]
  fields := fun _ => rfl
  scalars := fun _ => rfl
  config := ⟨rfl, rfl⟩
  flags := flagsOfPoint_iff (s.writeP rd pt) pt

/-- What a command does that changes flags alone. -/
theorem writesNoRegister_of {u : State} (h : u = { s with status := u.status })
    (he : u.status.err = s.status.err) (hc : u.status.errcode = s.status.errcode)
    (ho : u.status.ovf = s.status.ovf) : WritesNoRegister s u.complete := by
  generalize u.status = st at *
  subst h
  exact ⟨succeeds_of_status he hc rfl ⟨rfl, rfl, rfl, rfl, ho, rfl, rfl, rfl, rfl⟩, fun _ => rfl,
    fun _ => rfl, fun _ => rfl, rfl, rfl⟩

/-! ### The arm of each command, by its shape -/

theorem exec_nop (s : State) :
    exec .nop s = finish s (.ok s) := rfl
theorem exec_cfgf (s : State) :
    exec .cfgf s = finish s (cfgfOutcome s) := rfl
theorem exec_cfgc (form : CurveForm) (rs1 rs2 : FIdx) (s : State) :
    exec (.cfgc form rs1 rs2) s = finish s (cfgcOutcome form rs1 rs2 s) := rfl
theorem exec_fadd (rd rs1 rs2 : FIdx) (s : State) :
    exec (.fadd rd rs1 rs2) s = binaryF (fun c a b => .ok (fadd c a b)) rd rs1 rs2 s := rfl
theorem exec_fsub (rd rs1 rs2 : FIdx) (s : State) :
    exec (.fsub rd rs1 rs2) s = binaryF (fun c a b => .ok (fsub c a b)) rd rs1 rs2 s := rfl
theorem exec_fmul (rd rs1 rs2 : FIdx) (s : State) :
    exec (.fmul rd rs1 rs2) s = binaryF (fun c a b => .ok (fmul c a b)) rd rs1 rs2 s := rfl
theorem exec_fdiv (rd rs1 rs2 : FIdx) (s : State) :
    exec (.fdiv rd rs1 rs2) s = binaryF fdiv rd rs1 rs2 s := rfl
theorem exec_mmul (rd rs1 rs2 : FIdx) (s : State) :
    exec (.mmul rd rs1 rs2) s = binaryF (fun c a b => primeOnly c (mont c a b)) rd rs1 rs2 s := rfl
theorem exec_finv (rd rs1 : FIdx) (s : State) :
    exec (.finv rd rs1) s = unaryF finv true rd rs1 s := rfl
theorem exec_fneg (rd rs1 : FIdx) (s : State) :
    exec (.fneg rd rs1) s = unaryF (fun c a => .ok (fneg c a)) true rd rs1 s := rfl
theorem exec_fmov (rd rs1 : FIdx) (s : State) :
    exec (.fmov rd rs1) s = unaryF (fun _ v => .ok v) false rd rs1 s := rfl
theorem exec_fred (rd rs1 : FIdx) (s : State) :
    exec (.fred rd rs1) s = unaryF (fun c v => .ok (fnorm c v)) false rd rs1 s := rfl
theorem exec_mtom (rd rs1 : FIdx) (s : State) :
    exec (.mtom rd rs1) s = unaryF (fun c a => primeOnly c (mtom c a)) true rd rs1 s := rfl
theorem exec_mfrom (rd rs1 : FIdx) (s : State) :
    exec (.mfrom rd rs1) s = unaryF (fun c a => primeOnly c (mfrom c a)) true rd rs1 s := rfl
theorem exec_pgetx (rd : FIdx) (rs1 : PIdx) (s : State) :
    exec (.pgetx rd rs1) s = getCoord (fun x _ => x) rd rs1 s := rfl
theorem exec_pgety (rd : FIdx) (rs1 : PIdx) (s : State) :
    exec (.pgety rd rs1) s = getCoord (fun _ y => y) rd rs1 s := rfl
theorem exec_pmov (rd rs1 : PIdx) (s : State) :
    exec (.pmov rd rs1) s = unaryP chk rd rs1 s := rfl
theorem exec_pneg (rd rs1 : PIdx) (s : State) :
    exec (.pneg rd rs1) s = unaryP (fun c e pt => chk c e (pneg c e pt)) rd rs1 s := rfl
theorem exec_pdbl (rd rs1 : PIdx) (s : State) :
    exec (.pdbl rd rs1) s = unaryP pdblChk rd rs1 s := rfl
theorem exec_psmul (rd rs1 : PIdx) (rs2 : KIdx) (s : State) :
    exec (.psmul rd rs1 rs2) s = scalarMul smul rd rs1 rs2 s := rfl
theorem exec_psmulda (rd rs1 : PIdx) (rs2 : KIdx) (s : State) :
    exec (.psmulda rd rs1 rs2) s = scalarMul smulDa rd rs1 rs2 s := rfl
theorem exec_psmulml (rd rs1 : PIdx) (rs2 : KIdx) (s : State) :
    exec (.psmulml rd rs1 rs2) s = scalarMul smulMl rd rs1 rs2 s := rfl
theorem exec_kldi (rd : KIdx) (imm : BitVec 12) (s : State) :
    exec (.kldi rd imm) s = finish s (.ok (s.putK rd (immValue imm))) := rfl

/-! ### The shapes of the commands, on operands that can be read -/

theorem binaryF_holds {op : FieldCfg → Nat → Nat → Except Err Nat} {rd rs1 rs2 : FIdx} {a b : Nat}
    (hv : s.field.valid = true) (ha : HoldsCanon s rs1 a) (hb : HoldsCanon s rs2 b) :
    binaryF op rd rs1 rs2 s = finish s (op s.field a b >>= fun r => .ok (s.putF rd r)) := by
  simp only [binaryF, needField_valid hv, srcF_canon ha, srcF_canon hb, ok_bind]
  rfl

theorem unaryF_canon {op : FieldCfg → Nat → Except Err Nat} {rd rs1 : FIdx} {a : Nat}
    (hv : s.field.valid = true) (ha : HoldsCanon s rs1 a) :
    unaryF op true rd rs1 s = finish s (op s.field a >>= fun r => .ok (s.putF rd r)) := by
  simp only [unaryF, needField_valid hv, srcF_canon ha, ok_bind]
  rfl

theorem unaryF_holds {op : FieldCfg → Nat → Except Err Nat} {rd rs1 : FIdx} {a : Nat}
    (hv : s.field.valid = true) (ha : HoldsF s rs1 a) :
    unaryF op false rd rs1 s = finish s (op s.field a >>= fun r => .ok (s.putF rd r)) := by
  simp only [unaryF, needField_valid hv, srcF_holds ha, ok_bind]
  rfl

theorem unaryP_holds {op : FieldCfg → CurveCfg → Point → Except Err Point} {rd rs1 : PIdx} {a : Point}
    (hv : s.curve.valid = true) (ha : HoldsP s rs1 a) :
    unaryP op rd rs1 s = finish s (op s.field s.curve a >>= fun r => .ok (s.putP rd r)) := by
  simp only [unaryP, needCurve_valid hv, srcP_holds ha, ok_bind]
  rfl

theorem scalarMul_holds {op : FieldCfg → CurveCfg → Point → Nat → Except Err Point} {rd rs1 : PIdx}
    {rs2 : KIdx} {a : Point} {k : Nat} (hv : s.curve.valid = true) (ha : HoldsP s rs1 a)
    (hk : HoldsK s rs2 k) :
    scalarMul op rd rs1 rs2 s = finish s (op s.field s.curve a k >>= fun r => .ok (s.putP rd r)) := by
  simp only [scalarMul, needCurve_valid hv, srcP_holds ha, srcK_holds hk, ok_bind]
  rfl

theorem getCoord_affine {sel : Nat → Nat → Nat} {rd : FIdx} {rs1 : PIdx} {x y : Nat}
    (hv : s.curve.valid = true) (ha : HoldsP s rs1 (.affine x y)) :
    getCoord sel rd rs1 s = .next (s.putF rd (sel x y)).complete := by
  simp only [getCoord, needCurve_valid hv, srcP_holds ha, ok_bind]
  rfl

theorem getCoord_infinity {sel : Nat → Nat → Nat} {rd : FIdx} {rs1 : PIdx}
    (hv : s.curve.valid = true) (ha : HoldsP s rs1 .infinity) :
    getCoord sel rd rs1 s = .next (s.raiseError .identityCoord) := by
  simp only [getCoord, needCurve_valid hv, srcP_holds ha, ok_bind]
  rfl

theorem execPadd_holds {rd rs1 rs2 : PIdx} {a b : Point} (hv : s.curve.valid = true)
    (ha : HoldsP s rs1 a) (hb : HoldsP s rs2 b) :
    execPadd rd rs1 rs2 s = finish s (paddChk s.field s.curve a b >>= fun r => .ok (s.putP rd r)) := by
  simp only [execPadd, needCurve_valid hv, srcP_holds ha, srcP_holds hb, ok_bind]
  rfl

end Sys2Proof.Machine
end

