-- ==== Sys2Proof/Laws/Point.lean ====
section
/-! SUPPORT. What the point primitives answer: points with canonical coordinates, on the curve wherever `chk` has
looked at them (43_point.md R201–R203). -/

namespace Sys2Proof.Machine

variable {c : FieldCfg} {e : CurveCfg}

/-! ### chk -/

theorem chk_ok_iff {pt r : Point} : chk c e pt = .ok r ↔ r = pt ∧ onCurve c e pt = true := by
  unfold chk
  split <;> rename_i h <;> simp [h, eq_comm]

theorem chk_of_onCurve {pt : Point} (h : onCurve c e pt = true) : chk c e pt = .ok pt :=
  chk_ok_iff.mpr ⟨rfl, h⟩

theorem chk_of_not_onCurve {pt : Point} (h : onCurve c e pt = false) :
    chk c e pt = .error .pointNotOnCurve := by
  simp [chk, h]

theorem chk_error {pt : Point} {x : Err} (h : chk c e pt = .error x) : x = .pointNotOnCurve := by
  unfold chk at h
  split at h <;> cases h
  rfl

theorem paddChk_eq (p q : Point) : paddChk c e p q = padd c e p q >>= chk c e := rfl
theorem pdblChk_eq (p : Point) : pdblChk c e p = pdbl c e p >>= chk c e := rfl

/-! ### Registers that hold points -/

/-- A point with canonical coordinates is read back from the register it was written to. -/
theorem toPoint_toReg (h : FieldWf c) {pt : Point} (hc : CanonPoint c pt) : pt.toReg.toPoint = pt := by
  cases pt with
  | infinity => rfl
  | affine x y =>
    simp [Point.toReg, PReg.toPoint, Nat.mod_eq_of_lt (canon_lt h hc.1),
      Nat.mod_eq_of_lt (canon_lt h hc.2)]

/-! ### Canonical coordinates -/

theorem canonPoint_ident (h : FieldWf c) : CanonPoint c (ident e) := by
  unfold ident
  split
  · exact ⟨canon_zero h, canon_one h⟩
  · trivial

theorem canonPoint_pneg (h : FieldWf c) {pt : Point} (hp : CanonPoint c pt) :
    CanonPoint c (pneg c e pt) := by
  unfold pneg
  split
  · exact canonPoint_ident h
  · cases pt with
    | infinity => trivial
    | affine x y =>
      dsimp only
      split
      · exact ⟨hp.1, canon_fneg h hp.2⟩
      · exact hp
      · exact ⟨hp.1, canon_fneg h hp.2⟩
      · exact ⟨canon_fneg h hp.1, hp.2⟩

/-- The third point of a line has canonical coordinates. -/
theorem canonPoint_lineThird (h : FieldWf c) {l x1 y1 x2 : Nat} (hx1 : canon c x1 = true)
    (hy1 : canon c y1 = true) (hx2 : canon c x2 = true) (ha : e.form = .montgomery → canon c e.a = true) :
    CanonPoint c (lineThird c e l x1 y1 x2) := by
  have hx3 : ∀ x3, (x3 = fsub c (fsub c (fsub c (fmul c e.b (fmul c l l)) e.a) x1) x2 ∧ e.form = .montgomery
      ∨ x3 = fsub c (fsub c (fmul c l l) x1) x2) → canon c x3 = true := by
    rintro x3 (⟨rfl, hf⟩ | rfl)
    · exact canon_fsub h (canon_fsub h (canon_fsub h (canon_fmul h _ _) (ha hf)) hx1) hx2
    · exact canon_fsub h (canon_fsub h (canon_fmul h _ _) hx1) hx2
  have key : canon c (match e.form with
      | .montgomery => fsub c (fsub c (fsub c (fmul c e.b (fmul c l l)) e.a) x1) x2
      | _ => fsub c (fsub c (fmul c l l) x1) x2) = true := by
    apply hx3
    split
    · exact .inl ⟨rfl, by assumption⟩
    · exact .inr rfl
  exact ⟨key, canon_fsub h (canon_fmul h _ _) hy1⟩

theorem canonPoint_paddE (h : FieldWf c) {p q r : Point} (hr : paddE c e p q = .ok r) :
    CanonPoint c r := by
  unfold paddE at hr
  split at hr
  · dsimp only at hr
    split at hr
    · cases hr; exact ⟨canon_zero h, canon_one h⟩
    · obtain ⟨x3, h3, hr⟩ := bind_ok_iff.mp hr
      obtain ⟨y3, h4, hr⟩ := bind_ok_iff.mp hr
      cases hr
      exact ⟨canon_fdiv h h3, canon_fdiv h h4⟩
  · cases hr; trivial

theorem canonPoint_pdbl (h : FieldWf c) (hw : CurveWf c e) {p r : Point} (hp : CanonPoint c p)
    (hr : pdbl c e p = .ok r) : CanonPoint c r := by
  unfold pdbl at hr
  split at hr
  · cases p with
    | infinity => cases hr; trivial
    | affine x y =>
      simp only [pdblW] at hr
      split at hr
      · cases hr; trivial
      · obtain ⟨l, -, hr⟩ := bind_ok_iff.mp hr
        cases hr
        exact canonPoint_lineThird h hp.1 hp.2 hp.1 fun _ => hw.canonA
  · cases p with
    | infinity => cases hr; trivial
    | affine x y =>
      simp only [pdblM] at hr
      split at hr
      · cases hr; trivial
      · obtain ⟨l, -, hr⟩ := bind_ok_iff.mp hr
        cases hr
        exact canonPoint_lineThird h hp.1 hp.2 hp.1 fun _ => hw.canonA
  · exact canonPoint_paddE h hr

theorem canonPoint_paddWM (h : FieldWf c) (hw : CurveWf c e) {p q r : Point} (hp : CanonPoint c p)
    (hq : CanonPoint c q) (hr : paddWM c e p q = .ok r) : CanonPoint c r := by
  unfold paddWM at hr
  split at hr
  · cases hr; exact hq
  · cases hr; exact hp
  · split at hr
    · split at hr
      · cases hr; trivial
      · exact canonPoint_pdbl h hw hp hr
    · obtain ⟨l, -, hr⟩ := bind_ok_iff.mp hr
      cases hr
      exact canonPoint_lineThird h hp.1 hp.2 hq.1 fun _ => hw.canonA

theorem canonPoint_padd (h : FieldWf c) (hw : CurveWf c e) {p q r : Point} (hp : CanonPoint c p)
    (hq : CanonPoint c q) (hr : padd c e p q = .ok r) : CanonPoint c r := by
  unfold padd at hr
  split at hr
  · exact canonPoint_paddWM h hw hp hq hr
  · exact canonPoint_paddWM h hw hp hq hr
  · exact canonPoint_paddE h hr

/-! ### Points of the curve -/

theorem pointWf_chk {pt r : Point} (hp : CanonPoint c pt) (hr : chk c e pt = .ok r) : PointWf c e r := by
  obtain ⟨rfl, ho⟩ := chk_ok_iff.mp hr
  exact ⟨hp, ho⟩

theorem pointWf_paddChk (h : FieldWf c) (hw : CurveWf c e) {p q r : Point} (hp : CanonPoint c p)
    (hq : CanonPoint c q) (hr : paddChk c e p q = .ok r) : PointWf c e r := by
  obtain ⟨u, hu, hr⟩ := bind_ok_iff.mp ((paddChk_eq p q).symm.trans hr)
  exact pointWf_chk (canonPoint_padd h hw hp hq hu) hr

theorem pointWf_pdblChk (h : FieldWf c) (hw : CurveWf c e) {p r : Point} (hp : CanonPoint c p)
    (hr : pdblChk c e p = .ok r) : PointWf c e r := by
  obtain ⟨u, hu, hr⟩ := bind_ok_iff.mp ((pdblChk_eq p).symm.trans hr)
  exact pointWf_chk (canonPoint_pdbl h hw hp hu) hr

/-- The identity is a point of the curve (43_point.md R211). -/
theorem onCurve_ident (h : FieldWf c) (hw : CurveWf c e) : onCurve c e (ident e) = true := by
  cases hf : e.form with
  | edwards =>
    have hk := hw.primeForm (by simp [hf])
    have h3 : 3 ≤ c.modulus := by simp only [FieldWf, hk] at h; exact h.1
    have h1 : 1 % c.modulus = 1 := Nat.mod_eq_of_lt (by omega)
    simp [ident, onCurve, hf, fmul, fadd, fnorm, hk, h1]
  | weierstrass => simp [ident, onCurve, hf]
  | montgomery => simp [ident, onCurve, hf]

theorem pointWf_ident (h : FieldWf c) (hw : CurveWf c e) : PointWf c e (ident e) :=
  ⟨canonPoint_ident h, onCurve_ident h hw⟩

theorem pointWf_smulDaLoop (h : FieldWf c) (hw : CurveWf c e) :
    ∀ (n k : Nat) (a r u : Point), CanonPoint c a → PointWf c e r →
      smulDaLoop c e n k a r = .ok u → PointWf c e u
  | 0, _, _, _, _, _, hr, hu => by cases hu; exact hr
  | n + 1, k, a, r, u, ha, hr, hu => by
    simp only [smulDaLoop] at hu
    obtain ⟨r', hr', hu⟩ := bind_ok_iff.mp hu
    have hw' : PointWf c e r' := by
      unfold addBit at hr'
      split at hr'
      · exact pointWf_paddChk h hw hr.1 ha hr'
      · cases hr'; exact hr
    split at hu
    · cases hu; exact hw'
    · obtain ⟨a', ha', hu⟩ := bind_ok_iff.mp hu
      exact pointWf_smulDaLoop h hw n _ a' r' u (pointWf_pdblChk h hw ha ha').1 hw' hu

theorem pointWf_smulDa (h : FieldWf c) (hw : CurveWf c e) {p u : Point} {k : Nat} (hp : CanonPoint c p)
    (hu : smulDa c e p k = .ok u) : PointWf c e u := by
  simp only [smulDa] at hu
  split at hu
  · cases hu; exact pointWf_ident h hw
  · exact pointWf_smulDaLoop h hw _ _ _ _ _ hp (pointWf_ident h hw) hu

theorem pointWf_smulMlLoop (h : FieldWf c) (hw : CurveWf c e) {k : Nat} :
    ∀ (i : Nat) (r0 r1 u : Point), PointWf c e r0 → CanonPoint c r1 →
      smulMlLoop c e k i r0 r1 = .ok u → PointWf c e u
  | 0, _, _, _, h0, _, hu => by cases hu; exact h0
  | i + 1, r0, r1, u, h0, h1, hu => by
    simp only [smulMlLoop] at hu
    obtain ⟨sum, hs, hu⟩ := bind_ok_iff.mp hu
    have hsum := pointWf_paddChk h hw h0.1 h1 hs
    split at hu
    · obtain ⟨d, hd, hu⟩ := bind_ok_iff.mp hu
      exact pointWf_smulMlLoop h hw i _ _ u hsum (pointWf_pdblChk h hw h1 hd).1 hu
    · obtain ⟨d, hd, hu⟩ := bind_ok_iff.mp hu
      exact pointWf_smulMlLoop h hw i _ _ u (pointWf_pdblChk h hw h0.1 hd) hsum.1 hu

theorem pointWf_smulMl (h : FieldWf c) (hw : CurveWf c e) {p u : Point} {k : Nat} (hp : CanonPoint c p)
    (hu : smulMl c e p k = .ok u) : PointWf c e u :=
  pointWf_smulMlLoop h hw _ _ _ _ (pointWf_ident h hw) hp hu

theorem pointWf_smul (h : FieldWf c) (hw : CurveWf c e) {p u : Point} {k : Nat} (hp : CanonPoint c p)
    (hu : smul c e p k = .ok u) : PointWf c e u := by
  unfold smul at hu
  split at hu
  · exact pointWf_smulMl h hw hp hu
  · exact pointWf_smulDa h hw hp hu
  · exact pointWf_smulDa h hw hp hu

end Sys2Proof.Machine
end

