-- ==== Sys2Proof/Laws/Cases.lean ====
section
/-! SUPPORT. Everything that a command can do, said once: `exec_cases`. The lemmas about what commands leave alone,
and about the invariant, go through it and unfold no command. -/

namespace Sys2Proof.Machine

/-- What a command that ends without an error does to the state, before DONE and BUSY are written. -/
inductive Effect (s : State) (i : Instr) : State → Prop where
  | nothing (h : i = .nop) : Effect s i s
  | field (c : FieldCfg) (h : i = .cfgf) (hv : c.valid = true) (hw : FieldWf c) :
    Effect s i (s.commitField c)
  | curve (e : CurveCfg) (h : ∃ form rs1 rs2, i = .cfgc form rs1 rs2) (hv : e.valid = true)
    (hf : s.field.valid = true) (hw : FieldWf s.field → CurveWf s.field e) : Effect s i (s.commitCurve e)
  | fval (rd : FIdx) (v : Nat) (h : destF i = some rd) (hz : flagsWritten i = [.z, .lsb])
    (hw : Inv s → FieldWf s.field) (hc : Inv s → (∀ a b, i ≠ .fmov a b) → canon s.field v = true) :
    Effect s i (s.putF rd v)
  | root (rd rs1 : FIdx) (r : Option Nat) (h : i = .fsqrt rd rs1)
    (hw : Inv s → FieldWf s.field) (hc : Inv s → ∀ v, r = some v → canon s.field v = true) : Effect s i (s.putRoot rd r)
  | kval (rd : KIdx) (v : Nat) (h : destK i = some rd) (hz : flagsWritten i = [.z, .lsb]) :
    Effect s i (s.putK rd v)
  | pval (rd : PIdx) (pt : Point) (h : destP i = some rd) (hz : flagsWritten i = [.z, .lsb])
    (hv : s.curve.valid = true) (hp : Inv s → PointWf s.field s.curve pt) : Effect s i (s.putP rd pt)
  | zflag (b : Bool) (h : flagsWritten i = [.z]) : Effect s i (s.setZ b)
  | oncflag (b : Bool) (h : flagsWritten i = [.onc]) : Effect s i (s.setONC b)

variable {s t u : State}

theorem Inv.fieldWf (h : Inv s) (hv : s.field.valid = true) : FieldWf s.field := h.field hv

theorem Inv.fieldWf_of_curve (h : Inv s) (hv : s.curve.valid = true) : FieldWf s.field :=
  h.field (h.curve hv).1

theorem Inv.curveWf (h : Inv s) (hv : s.curve.valid = true) : CurveWf s.field s.curve := (h.curve hv).2

/-- A point that a register holds is a point of the committed curve (10_state.md R59). -/
theorem Inv.pointWf (h : Inv s) {j : PIdx} {pt : Point} (hp : HoldsP s j pt) :
    PointWf s.field s.curve pt := by
  obtain ⟨ht, rfl⟩ := hp
  exact (h.points j ht).2

/-- The number of coefficients of a polynomial of degree m (40_control.md R133). -/
theorem popcount_eq_countP {f m : Nat} (hb : f.testBit m = true) (hlt : f < 2 ^ (m + 1)) :
    popcount f = (List.range (m + 1)).countP (fun i => f.testBit i) := by
  have h0 : f ≠ 0 := by rintro rfl; simp at hb
  have hl : f.log2 = m := Nat.le_antisymm (Nat.lt_succ_iff.mp ((Nat.log2_lt h0).mpr hlt))
    ((Nat.le_log2 h0).mpr (Nat.ge_two_pow_of_testBit hb))
  rw [popcount, hl, List.countP_eq_length_filter]

/-- CFGF commits a field that passed its checks. -/
theorem cfgfOutcome_ok (h : cfgfOutcome s = .ok u) :
    ∃ c : FieldCfg, u = s.commitField c ∧ c.valid = true ∧ FieldWf c := by
  unfold cfgfOutcome at h
  split at h <;> split at h <;> cases h
  · rename_i hp
    refine ⟨_, rfl, rfl, ?_⟩
    unfold primeOk at hp
    split at hp
    · cases hp
    · split at hp
      · cases hp
      · simp only [FieldWf, FieldCfg.modulus, FieldCfg.degree]
        simp
        omega
  · rename_i hp
    refine ⟨_, rfl, rfl, ?_⟩
    unfold polyOk at hp
    split at hp
    · cases hp
    · split at hp
      · cases hp
      · split at hp
        · cases hp
        · split at hp
          · cases hp
          · rename_i h1 h2 h3 h4
            simp only [FieldWf, FieldCfg.modulus, FieldCfg.degree]
            have h2' : s.staging.modulus.toNat.testBit s.staging.m.toNat = true := by simpa using h2
            have h3' : s.staging.modulus.toNat >>> (s.staging.m.toNat + 1) = 0 := by simpa using h3
            rw [Nat.shiftRight_eq_div_pow] at h3'
            have hlt := (Nat.div_eq_zero_iff_lt (Nat.two_pow_pos _)).mp h3'
            refine ⟨by omega, by omega, h2', hlt, fun hm => ?_⟩
            rw [← popcount_eq_countP h2' hlt]
            omega

/-- CFGC commits a curve that passed its checks. -/
theorem cfgcOutcome_ok {form : CurveForm} {rs1 rs2 : FIdx} (h : cfgcOutcome form rs1 rs2 s = .ok u) :
    ∃ e : CurveCfg, u = s.commitCurve e ∧ e.valid = true ∧ s.field.valid = true
      ∧ (FieldWf s.field → CurveWf s.field e) := by
  unfold cfgcOutcome at h
  obtain ⟨⟨⟩, hf, h⟩ := bind_ok_iff.mp h
  obtain ⟨c1, h1, h⟩ := bind_ok_iff.mp h
  obtain ⟨c2, h2, h⟩ := bind_ok_iff.mp h
  split at h
  · cases h
  split at h
  · rename_i hu hok
    cases h
    refine ⟨_, rfl, rfl, needField_ok_iff.mp hf, fun hw => ?_⟩
    have hc2 : canon s.field c2 = true ∧ c2 < 2 ^ Config.nbits ∧ (form = .edwards → c2 = 0) := by
      unfold cfgcSecond at h2
      split at h2
      · cases h2; exact ⟨canon_zero hw, by positivity, fun _ => rfl⟩
      · rename_i hne
        exact ⟨(srcF_ok h2).2 rfl, srcF_lt h2, fun hE => absurd hE hne⟩
    have hc1 := (srcF_ok h1).2 rfl
    have e1 : (BitVec.ofNat Config.nbits c1).toNat = c1 := by simp [Nat.mod_eq_of_lt (srcF_lt h1)]
    have e2 : (BitVec.ofNat Config.nbits c2).toNat = c2 := by simp [Nat.mod_eq_of_lt hc2.2.1]
    constructor
    · simpa only [CurveCfg.a, e1] using hc1
    · simpa only [CurveCfg.b, e2] using hc2.1
    · simpa only [CurveCfg.a, CurveCfg.b, e1, e2] using hok
    · intro hne
      cases hk : s.field.kind
      · rfl
      · exact absurd ⟨hne, hk⟩ hu
    · intro hE
      simpa only [CurveCfg.b, e2] using hc2.2.2 hE
  · cases h

/-! ### The shapes -/

theorem binaryF_cases {op : FieldCfg → Nat → Nat → Except Err Nat} {rd rs1 rs2 : FIdx}
    (h : binaryF op rd rs1 rs2 s = .next t) :
    (∃ a b r, HoldsCanon s rs1 a ∧ HoldsCanon s rs2 b ∧ s.field.valid = true ∧ op s.field a b = .ok r
      ∧ t = (s.putF rd r).complete) ∨ ∃ e, t = s.raiseError e := by
  obtain ⟨u, hu, rfl⟩ | ⟨e, -, rfl⟩ := finish_next h
  · obtain ⟨⟨⟩, hf, hu⟩ := bind_ok_iff.mp hu
    obtain ⟨a, ha, hu⟩ := bind_ok_iff.mp hu
    obtain ⟨b, hb, hu⟩ := bind_ok_iff.mp hu
    obtain ⟨r, hr, hu⟩ := bind_ok_iff.mp hu
    cases hu
    exact .inl ⟨a, b, r, ⟨(srcF_ok ha).1, (srcF_ok ha).2 rfl⟩, ⟨(srcF_ok hb).1, (srcF_ok hb).2 rfl⟩,
      needField_ok_iff.mp hf, hr, rfl⟩
  · exact .inr ⟨e, rfl⟩

theorem unaryF_cases {op : FieldCfg → Nat → Except Err Nat} {nc : Bool} {rd rs1 : FIdx}
    (h : unaryF op nc rd rs1 s = .next t) :
    (∃ a r, HoldsF s rs1 a ∧ (nc = true → canon s.field a = true) ∧ s.field.valid = true
      ∧ op s.field a = .ok r ∧ t = (s.putF rd r).complete) ∨ ∃ e, t = s.raiseError e := by
  obtain ⟨u, hu, rfl⟩ | ⟨e, -, rfl⟩ := finish_next h
  · obtain ⟨⟨⟩, hf, hu⟩ := bind_ok_iff.mp hu
    obtain ⟨a, ha, hu⟩ := bind_ok_iff.mp hu
    obtain ⟨r, hr, hu⟩ := bind_ok_iff.mp hu
    cases hu
    exact .inl ⟨a, r, (srcF_ok ha).1, (srcF_ok ha).2, needField_ok_iff.mp hf, hr, rfl⟩
  · exact .inr ⟨e, rfl⟩

theorem unaryP_cases {op : FieldCfg → CurveCfg → Point → Except Err Point} {rd rs1 : PIdx}
    (h : unaryP op rd rs1 s = .next t) :
    (∃ a r, HoldsP s rs1 a ∧ s.curve.valid = true ∧ op s.field s.curve a = .ok r
      ∧ t = (s.putP rd r).complete) ∨ ∃ e, t = s.raiseError e := by
  obtain ⟨u, hu, rfl⟩ | ⟨e, -, rfl⟩ := finish_next h
  · obtain ⟨⟨⟩, hf, hu⟩ := bind_ok_iff.mp hu
    obtain ⟨a, ha, hu⟩ := bind_ok_iff.mp hu
    obtain ⟨r, hr, hu⟩ := bind_ok_iff.mp hu
    cases hu
    exact .inl ⟨a, r, srcP_ok ha, needCurve_ok_iff.mp hf, hr, rfl⟩
  · exact .inr ⟨e, rfl⟩

theorem scalarMul_cases {op : FieldCfg → CurveCfg → Point → Nat → Except Err Point} {rd rs1 : PIdx}
    {rs2 : KIdx} (h : scalarMul op rd rs1 rs2 s = .next t) :
    (∃ a k r, HoldsP s rs1 a ∧ HoldsK s rs2 k ∧ s.curve.valid = true ∧ op s.field s.curve a k = .ok r
      ∧ t = (s.putP rd r).complete) ∨ ∃ e, t = s.raiseError e := by
  obtain ⟨u, hu, rfl⟩ | ⟨e, -, rfl⟩ := finish_next h
  · obtain ⟨⟨⟩, hf, hu⟩ := bind_ok_iff.mp hu
    obtain ⟨a, ha, hu⟩ := bind_ok_iff.mp hu
    obtain ⟨k, hk, hu⟩ := bind_ok_iff.mp hu
    obtain ⟨r, hr, hu⟩ := bind_ok_iff.mp hu
    cases hu
    exact .inl ⟨a, k, r, srcP_ok ha, srcK_ok hk, needCurve_ok_iff.mp hf, hr, rfl⟩
  · exact .inr ⟨e, rfl⟩

theorem getCoord_cases {sel : Nat → Nat → Nat} {rd : FIdx} {rs1 : PIdx} (h : getCoord sel rd rs1 s = .next t) :
    (∃ x y, HoldsP s rs1 (.affine x y) ∧ s.curve.valid = true ∧ t = (s.putF rd (sel x y)).complete)
      ∨ ∃ e, t = s.raiseError e := by
  obtain ⟨u, hu, rfl⟩ | ⟨e, -, rfl⟩ := finish_next h
  · obtain ⟨⟨⟩, hf, hu⟩ := bind_ok_iff.mp hu
    obtain ⟨pt, hp, hu⟩ := bind_ok_iff.mp hu
    split at hu <;> cases hu
    exact .inl ⟨_, _, srcP_ok hp, needCurve_ok_iff.mp hf, rfl⟩
  · exact .inr ⟨e, rfl⟩

/-! ### All commands -/

theorem binaryF_effect {op : FieldCfg → Nat → Nat → Except Err Nat} {rd rs1 rs2 : FIdx} {i : Instr}
    (hd : destF i = some rd) (hz : flagsWritten i = [.z, .lsb])
    (hop : ∀ a b r, FieldWf s.field → canon s.field a = true → canon s.field b = true →
      op s.field a b = .ok r → canon s.field r = true)
    (h : binaryF op rd rs1 rs2 s = .next t) :
    (∃ u, Effect s i u ∧ t = u.complete) ∨ ∃ e, t = s.raiseError e :=
  (binaryF_cases h).imp_left fun ⟨a, b, r, ha, hb, hv, hr, ht⟩ =>
    ⟨_, .fval rd r hd hz (·.fieldWf hv) fun hI _ => hop a b r (hI.fieldWf hv) ha.2 hb.2 hr, ht⟩

theorem unaryF_effect {op : FieldCfg → Nat → Except Err Nat} {nc : Bool} {rd rs1 : FIdx} {i : Instr}
    (hd : destF i = some rd) (hz : flagsWritten i = [.z, .lsb])
    (hop : (∀ a b, i ≠ .fmov a b) → ∀ a r, FieldWf s.field → (nc = true → canon s.field a = true) →
      op s.field a = .ok r → canon s.field r = true)
    (h : unaryF op nc rd rs1 s = .next t) :
    (∃ u, Effect s i u ∧ t = u.complete) ∨ ∃ e, t = s.raiseError e :=
  (unaryF_cases h).imp_left fun ⟨a, r, _, hc, hv, hr, ht⟩ =>
    ⟨_, .fval rd r hd hz (·.fieldWf hv) fun hI hm => hop hm a r (hI.fieldWf hv) hc hr, ht⟩

theorem unaryP_effect {op : FieldCfg → CurveCfg → Point → Except Err Point} {rd rs1 : PIdx} {i : Instr}
    (hd : destP i = some rd) (hz : flagsWritten i = [.z, .lsb])
    (hop : ∀ a r, FieldWf s.field → CurveWf s.field s.curve → PointWf s.field s.curve a →
      op s.field s.curve a = .ok r → PointWf s.field s.curve r)
    (h : unaryP op rd rs1 s = .next t) :
    (∃ u, Effect s i u ∧ t = u.complete) ∨ ∃ e, t = s.raiseError e :=
  (unaryP_cases h).imp_left fun ⟨a, r, ha, hv, hr, ht⟩ =>
    ⟨_, .pval rd r hd hz hv fun hI =>
      hop a r (hI.fieldWf_of_curve hv) (hI.curveWf hv) (hI.pointWf ha) hr, ht⟩

theorem scalarMul_effect {op : FieldCfg → CurveCfg → Point → Nat → Except Err Point} {rd rs1 : PIdx}
    {rs2 : KIdx} {i : Instr} (hd : destP i = some rd) (hz : flagsWritten i = [.z, .lsb])
    (hop : ∀ a k r, FieldWf s.field → CurveWf s.field s.curve → CanonPoint s.field a →
      op s.field s.curve a k = .ok r → PointWf s.field s.curve r)
    (h : scalarMul op rd rs1 rs2 s = .next t) :
    (∃ u, Effect s i u ∧ t = u.complete) ∨ ∃ e, t = s.raiseError e :=
  (scalarMul_cases h).imp_left fun ⟨a, k, r, ha, _, hv, hr, ht⟩ =>
    ⟨_, .pval rd r hd hz hv fun hI =>
      hop a k r (hI.fieldWf_of_curve hv) (hI.curveWf hv) (hI.pointWf ha).1 hr, ht⟩

theorem getCoord_effect {sel : Nat → Nat → Nat} {rd : FIdx} {rs1 : PIdx} {i : Instr}
    (hd : destF i = some rd) (hz : flagsWritten i = [.z, .lsb])
    (hsel : ∀ x y, sel x y = x ∨ sel x y = y) (h : getCoord sel rd rs1 s = .next t) :
    (∃ u, Effect s i u ∧ t = u.complete) ∨ ∃ e, t = s.raiseError e :=
  (getCoord_cases h).imp_left fun ⟨x, y, hp, hv, ht⟩ =>
    ⟨_, .fval rd _ hd hz (·.fieldWf_of_curve hv) fun hI _ => by
      obtain ⟨hx, hy⟩ := (hI.pointWf hp).1
      obtain h | h := hsel x y <;> rwa [h], ht⟩

theorem canon_primeOnly {c : FieldCfg} {r v : Nat} (hr : c.kind = .prime → canon c r = true)
    (h : primeOnly c r = .ok v) : canon c v = true := by
  unfold primeOnly at h
  split at h <;> cases h
  exact hr (by assumption)

theorem canon_mod {c : FieldCfg} (h : FieldWf c) (hk : c.kind = .prime) (v : Nat) :
    canon c (v % c.modulus) = true :=
  (canon_prime hk _).mpr (Nat.mod_lt _ h.modulus_pos)

/-- EVERYTHING THAT A COMMAND CAN DO: it ends without an error and has one of the effects, or it ends with an error
and writes the error latch alone (60_exceptions.md R262). -/
theorem exec_cases {i : Instr} (h : exec i s = .next t) :
    (∃ u, Effect s i u ∧ t = u.complete) ∨ ∃ e, t = s.raiseError e := by
  cases i with
  | nop =>
    obtain ⟨u, hu, rfl⟩ | ⟨e, -, rfl⟩ := finish_next (exec_nop s ▸ h)
    · cases hu; exact .inl ⟨_, .nothing rfl, rfl⟩
    · exact .inr ⟨e, rfl⟩
  | cfgf =>
    obtain ⟨u, hu, rfl⟩ | ⟨e, -, rfl⟩ := finish_next h
    · obtain ⟨c, rfl, hv, hw⟩ := cfgfOutcome_ok hu
      exact .inl ⟨_, .field c rfl hv hw, rfl⟩
    · exact .inr ⟨e, rfl⟩
  | cfgc form rs1 rs2 =>
    obtain ⟨u, hu, rfl⟩ | ⟨e, -, rfl⟩ := finish_next h
    · obtain ⟨c, rfl, hv, hf, hw⟩ := cfgcOutcome_ok hu
      exact .inl ⟨_, .curve c ⟨_, _, _, rfl⟩ hv hf hw, rfl⟩
    · exact .inr ⟨e, rfl⟩
  | fadd => exact binaryF_effect rfl rfl (fun a b r hw ha hb hr => by cases hr; exact canon_fadd hw ha hb) (exec_fadd .. ▸ h)
  | fsub => exact binaryF_effect rfl rfl (fun a b r hw ha hb hr => by cases hr; exact canon_fsub hw ha hb) (exec_fsub .. ▸ h)
  | fmul => exact binaryF_effect rfl rfl (fun a b r hw _ _ hr => by cases hr; exact canon_fmul hw _ _) (exec_fmul .. ▸ h)
  | fdiv => exact binaryF_effect rfl rfl (fun a b r hw _ _ hr => canon_fdiv hw hr) (exec_fdiv .. ▸ h)
  | finv => exact unaryF_effect rfl rfl (fun _ a r hw _ hr => canon_finv hw hr) (exec_finv .. ▸ h)
  | fneg => exact unaryF_effect rfl rfl (fun _ a r hw ha hr => by cases hr; exact canon_fneg hw (ha rfl)) (exec_fneg .. ▸ h)
  | fpow rd rs1 rs2 neg =>
    obtain ⟨u, hu, rfl⟩ | ⟨e, -, rfl⟩ := finish_next h
    · obtain ⟨⟨⟩, hf, hu⟩ := bind_ok_iff.mp hu
      obtain ⟨a, ha, hu⟩ := bind_ok_iff.mp hu
      obtain ⟨k, hk, hu⟩ := bind_ok_iff.mp hu
      obtain ⟨r, hr, hu⟩ := bind_ok_iff.mp hu
      cases hu
      exact .inl ⟨_, .fval rd r rfl rfl (·.fieldWf (needField_ok_iff.mp hf))
        fun hI _ => canon_fpow (hI.fieldWf (needField_ok_iff.mp hf)) hr, rfl⟩
    · exact .inr ⟨e, rfl⟩
  | fsqrt rd rs1 =>
    obtain ⟨u, hu, rfl⟩ | ⟨e, -, rfl⟩ := finish_next h
    · obtain ⟨⟨⟩, hf, hu⟩ := bind_ok_iff.mp hu
      obtain ⟨a, ha, hu⟩ := bind_ok_iff.mp hu
      obtain ⟨r, hr, hu⟩ := bind_ok_iff.mp hu
      cases hu
      refine .inl ⟨_, .root rd rs1 r rfl (·.fieldWf (needField_ok_iff.mp hf)) fun hI v hv => ?_, rfl⟩
      subst hv
      exact canon_fsqrt (hI.fieldWf (needField_ok_iff.mp hf)) hr
    · exact .inr ⟨e, rfl⟩
  | fmov rd rs1 => exact unaryF_effect rfl rfl (fun hm => absurd rfl (hm rd rs1)) (exec_fmov .. ▸ h)
  | fred => exact unaryF_effect rfl rfl (fun _ a r hw _ hr => by cases hr; exact canon_fnorm hw _) (exec_fred .. ▸ h)
  | fldi rd imm =>
    obtain ⟨u, hu, rfl⟩ | ⟨e, -, rfl⟩ := finish_next h
    · obtain ⟨⟨⟩, hf, hu⟩ := bind_ok_iff.mp hu
      cases hu
      exact .inl ⟨_, .fval rd _ rfl rfl (·.fieldWf (needField_ok_iff.mp hf))
        fun hI _ => canon_fnorm (hI.fieldWf (needField_ok_iff.mp hf)) _, rfl⟩
    · exact .inr ⟨e, rfl⟩
  | fcmp =>
    obtain ⟨u, hu, rfl⟩ | ⟨e, -, rfl⟩ := finish_next h
    · obtain ⟨⟨⟩, hf, hu⟩ := bind_ok_iff.mp hu
      obtain ⟨a, ha, hu⟩ := bind_ok_iff.mp hu
      obtain ⟨b, hb, hu⟩ := bind_ok_iff.mp hu
      cases hu
      exact .inl ⟨_, .zflag _ rfl, rfl⟩
    · exact .inr ⟨e, rfl⟩
  | mmul =>
    exact binaryF_effect rfl rfl
      (fun a b r hw _ _ hr => canon_primeOnly (fun hk => canon_mod hw hk _) hr) (exec_mmul .. ▸ h)
  | mtom =>
    exact unaryF_effect rfl rfl (fun _ a r hw _ hr => canon_primeOnly (fun hk => canon_mod hw hk _) hr) (exec_mtom .. ▸ h)
  | mfrom =>
    exact unaryF_effect rfl rfl (fun _ a r hw _ hr => canon_primeOnly (fun hk => canon_mod hw hk _) hr) (exec_mfrom .. ▸ h)
  | pset rd rs1 rs2 =>
    obtain ⟨u, hu, rfl⟩ | ⟨e, -, rfl⟩ := finish_next h
    · obtain ⟨⟨⟩, hf, hu⟩ := bind_ok_iff.mp hu
      obtain ⟨a, ha, hu⟩ := bind_ok_iff.mp hu
      obtain ⟨b, hb, hu⟩ := bind_ok_iff.mp hu
      obtain ⟨r, hr, hu⟩ := bind_ok_iff.mp hu
      cases hu
      have hc : CanonPoint s.field (.affine a b) := ⟨(srcF_ok ha).2 rfl, (srcF_ok hb).2 rfl⟩
      exact .inl ⟨_, .pval rd r rfl rfl (needCurve_ok_iff.mp hf) fun _ => pointWf_chk hc hr, rfl⟩
    · exact .inr ⟨e, rfl⟩
  | pinf rd =>
    obtain ⟨u, hu, rfl⟩ | ⟨e, -, rfl⟩ := finish_next h
    · obtain ⟨⟨⟩, hf, hu⟩ := bind_ok_iff.mp hu
      obtain ⟨r, hr, hu⟩ := bind_ok_iff.mp hu
      cases hu
      have hv := needCurve_ok_iff.mp hf
      exact .inl ⟨_, .pval rd r rfl rfl hv fun hI =>
        pointWf_chk (canonPoint_ident (hI.fieldWf_of_curve hv)) hr, rfl⟩
    · exact .inr ⟨e, rfl⟩
  | pgetx => exact getCoord_effect rfl rfl (fun _ _ => .inl rfl) (exec_pgetx .. ▸ h)
  | pgety => exact getCoord_effect rfl rfl (fun _ _ => .inr rfl) (exec_pgety .. ▸ h)
  | pmov => exact unaryP_effect rfl rfl (fun a r _ _ ha hr => pointWf_chk ha.1 hr) (exec_pmov .. ▸ h)
  | pneg => exact unaryP_effect rfl rfl (fun a r hw _ ha hr => pointWf_chk (canonPoint_pneg hw ha.1) hr) (exec_pneg .. ▸ h)
  | padd rd rs1 rs2 =>
    obtain ⟨u, hu, rfl⟩ | ⟨e, -, rfl⟩ := finish_next h
    · obtain ⟨⟨⟩, hf, hu⟩ := bind_ok_iff.mp hu
      obtain ⟨a, ha, hu⟩ := bind_ok_iff.mp hu
      obtain ⟨b, hb, hu⟩ := bind_ok_iff.mp hu
      obtain ⟨r, hr, hu⟩ := bind_ok_iff.mp hu
      cases hu
      have hv := needCurve_ok_iff.mp hf
      exact .inl ⟨_, .pval rd r rfl rfl hv fun hI =>
        pointWf_paddChk (hI.fieldWf_of_curve hv) (hI.curveWf hv) (hI.pointWf (srcP_ok ha)).1
          (hI.pointWf (srcP_ok hb)).1 hr, rfl⟩
    · exact .inr ⟨e, rfl⟩
  | pdbl => exact unaryP_effect rfl rfl (fun a r hw hc ha hr => pointWf_pdblChk hw hc ha.1 hr) (exec_pdbl .. ▸ h)
  | ponc =>
    obtain ⟨u, hu, rfl⟩ | ⟨e, -, rfl⟩ := finish_next h
    · obtain ⟨⟨⟩, hf, hu⟩ := bind_ok_iff.mp hu
      obtain ⟨a, ha, hu⟩ := bind_ok_iff.mp hu
      cases hu
      exact .inl ⟨_, .oncflag _ rfl, rfl⟩
    · exact .inr ⟨e, rfl⟩
  | pisinf =>
    obtain ⟨u, hu, rfl⟩ | ⟨e, -, rfl⟩ := finish_next h
    · obtain ⟨⟨⟩, hf, hu⟩ := bind_ok_iff.mp hu
      obtain ⟨a, ha, hu⟩ := bind_ok_iff.mp hu
      cases hu
      exact .inl ⟨_, .zflag _ rfl, rfl⟩
    · exact .inr ⟨e, rfl⟩
  | psmul => exact scalarMul_effect rfl rfl (fun a k r hw hc ha hr => pointWf_smul hw hc ha hr) (exec_psmul .. ▸ h)
  | psmulda => exact scalarMul_effect rfl rfl (fun a k r hw hc ha hr => pointWf_smulDa hw hc ha hr) (exec_psmulda .. ▸ h)
  | psmulml => exact scalarMul_effect rfl rfl (fun a k r hw hc ha hr => pointWf_smulMl hw hc ha hr) (exec_psmulml .. ▸ h)
  | kldi rd imm =>
    obtain ⟨u, hu, rfl⟩ | ⟨e, -, rfl⟩ := finish_next (exec_kldi rd imm s ▸ h)
    · cases hu; exact .inl ⟨_, .kval rd _ rfl rfl, rfl⟩
    · exact .inr ⟨e, rfl⟩
  | kfromf rd rs1 =>
    obtain ⟨u, hu, rfl⟩ | ⟨e, -, rfl⟩ := finish_next h
    · obtain ⟨⟨⟩, hf, hu⟩ := bind_ok_iff.mp hu
      obtain ⟨a, ha, hu⟩ := bind_ok_iff.mp hu
      cases hu
      exact .inl ⟨_, .kval rd a rfl rfl, rfl⟩
    · exact .inr ⟨e, rfl⟩
  | ffromk rd rs1 =>
    obtain ⟨u, hu, rfl⟩ | ⟨e, -, rfl⟩ := finish_next h
    · obtain ⟨⟨⟩, hf, hu⟩ := bind_ok_iff.mp hu
      obtain ⟨a, ha, hu⟩ := bind_ok_iff.mp hu
      cases hu
      exact .inl ⟨_, .fval rd _ rfl rfl (·.fieldWf (needField_ok_iff.mp hf))
        fun hI _ => canon_fnorm (hI.fieldWf (needField_ok_iff.mp hf)) _, rfl⟩
    · exact .inr ⟨e, rfl⟩

/-- A command that ends without an error leaves alone what no command writes. -/
theorem Effect.succeeds {i : Instr} (h : Effect s i u) : Succeeds s u.complete := by
  obtain _ | _ | _ | _ | ⟨_, _, r, _, _, _⟩ | _ | _ | _ | _ := h
  case root => cases r <;> exact succeeds_of_status rfl rfl rfl ⟨rfl, rfl, rfl, rfl, rfl, rfl, rfl, rfl, rfl⟩
  all_goals exact succeeds_of_status rfl rfl rfl ⟨rfl, rfl, rfl, rfl, rfl, rfl, rfl, rfl, rfl⟩

/-- A command always ends in a next state. -/
theorem exec_next (i : Instr) (s : State) : ∃ t, exec i s = .next t := by
  cases i <;> first
    | exact exists_finish _ _
    | exact ⟨_, rfl⟩

end Sys2Proof.Machine
end

