-- ==== Sys2Proof/Laws/Codec.lean ====
section
/-! SUPPORT. Reading the fields of an encoded word (30_encoding.md R100): each field of `encodeFields` is read back
where the decoder reads it. -/

namespace Sys2Proof

section
variable {o d a b m : Nat}

/-- The value of a word with fields in their ranges. -/
theorem toNat_encodeFields (ho : o < 256) (hd : d < 16) (ha : a < 16) (hb : b < 16) (hm : m < 4096) :
    (encodeFields o d a b m).toNat = o + d * 2 ^ 8 + a * 2 ^ 12 + b * 2 ^ 16 + m * 2 ^ 20 := by
  rw [encodeFields, BitVec.toNat_ofNat]
  apply Nat.mod_eq_of_lt
  omega

theorem opc_encodeFields (ho : o < 256) (hd : d < 16) (ha : a < 16) (hb : b < 16) (hm : m < 4096) :
    Decode.opc (encodeFields o d a b m) = o := by
  rw [Decode.opc, toNat_encodeFields ho hd ha hb hm]
  omega

theorem rd_encodeFields (ho : o < 256) (hd : d < 16) (ha : a < 16) (hb : b < 16) (hm : m < 4096) :
    Decode.rd (encodeFields o d a b m) = d := by
  rw [Decode.rd, toNat_encodeFields ho hd ha hb hm]
  omega

theorem rs1_encodeFields (ho : o < 256) (hd : d < 16) (ha : a < 16) (hb : b < 16) (hm : m < 4096) :
    Decode.rs1 (encodeFields o d a b m) = a := by
  rw [Decode.rs1, toNat_encodeFields ho hd ha hb hm]
  omega

theorem rs2_encodeFields (ho : o < 256) (hd : d < 16) (ha : a < 16) (hb : b < 16) (hm : m < 4096) :
    Decode.rs2 (encodeFields o d a b m) = b := by
  rw [Decode.rs2, toNat_encodeFields ho hd ha hb hm]
  omega

theorem imm_encodeFields (ho : o < 256) (hd : d < 16) (ha : a < 16) (hb : b < 16) (hm : m < 4096) :
    Decode.imm (encodeFields o d a b m) = m := by
  rw [Decode.imm, toNat_encodeFields ho hd ha hb hm]
  omega

end

/-- A word is the word of its own fields: no bit of a word lies outside the five fields. -/
theorem encodeFields_fields (w : BusWord) :
    encodeFields (Decode.opc w) (Decode.rd w) (Decode.rs1 w) (Decode.rs2 w) (Decode.imm w) = w := by
  apply BitVec.eq_of_toNat_eq
  have hw := w.isLt
  simp only [encodeFields, BitVec.toNat_ofNat, Decode.opc, Decode.rd, Decode.rs1, Decode.rs2, Decode.imm]
  omega

theorem guardZero_ok {ok : Bool} {i j : Instr} (h : Decode.guardZero ok i = .ok j) : ok = true ∧ i = j := by
  unfold Decode.guardZero at h
  split at h
  · rename_i hk
    injection h with h
    exact ⟨hk, h⟩
  · injection h

@[simp] theorem fField_val (i : FIdx) : Decode.fField i.val = i := Fin.ofNat_val_eq_self i
@[simp] theorem pField_val (j : PIdx) : Decode.pField j.val = j := Fin.ofNat_val_eq_self j
@[simp] theorem kField_val (k : KIdx) : Decode.kField k.val = k := Fin.ofNat_val_eq_self k

theorem CurveForm.code_lt (f : CurveForm) : f.code < 3 := by cases f <;> decide

end Sys2Proof
end

