-- ==== Sys2Proof/Laws/PerInstr.lean ====
section
/-! SUPPORT. Facts about every command as syntax, one lemma for each constructor of Instr. -/

namespace Sys2Proof.Laws

/-! ### The opcode of an encoded command -/

/-- OPC of the command's row in the opcode map (30_encoding.md R104). -/
def opcodeOf : Instr → Nat
  | .nop => 0x00
  | .cfgf => 0x01
  | .cfgc _ _ _ => 0x02
  | .fadd _ _ _ => 0x10
  | .fsub _ _ _ => 0x11
  | .fmul _ _ _ => 0x12
  | .fdiv _ _ _ => 0x13
  | .finv _ _ => 0x14
  | .fneg _ _ => 0x15
  | .fpow _ _ _ _ => 0x16
  | .fsqrt _ _ => 0x17
  | .fmov _ _ => 0x18
  | .fred _ _ => 0x19
  | .fldi _ _ => 0x1A
  | .fcmp _ _ => 0x1B
  | .mmul _ _ _ => 0x1C
  | .mtom _ _ => 0x1D
  | .mfrom _ _ => 0x1E
  | .pset _ _ _ => 0x20
  | .pinf _ => 0x21
  | .pgetx _ _ => 0x22
  | .pgety _ _ => 0x23
  | .pmov _ _ => 0x24
  | .pneg _ _ => 0x25
  | .padd _ _ _ => 0x26
  | .pdbl _ _ => 0x27
  | .ponc _ => 0x28
  | .pisinf _ => 0x29
  | .psmul _ _ _ => 0x30
  | .psmulda _ _ _ => 0x31
  | .psmulml _ _ _ => 0x32
  | .kldi _ _ => 0x38
  | .kfromf _ _ => 0x39
  | .ffromk _ _ => 0x3A

/-- The encoded command carries the opcode of its row, whatever its operands. -/
def OpcodeField.Statement (i : Instr) : Prop := Decode.opc (encode i) = opcodeOf i

namespace OpcodeField

theorem nop : Statement .nop :=
  opc_encodeFields (by decide) (by decide) (by decide) (by decide) (by decide)
theorem cfgf : Statement .cfgf :=
  opc_encodeFields (by decide) (by decide) (by decide) (by decide) (by decide)
theorem cfgc (form : CurveForm) (rs1 : FIdx) (rs2 : FIdx) : Statement (.cfgc form rs1 rs2) :=
  opc_encodeFields (by decide) (form.code_lt.trans (by decide)) (rs1.isLt) (rs2.isLt) (by decide)
theorem fadd (rd : FIdx) (rs1 : FIdx) (rs2 : FIdx) : Statement (.fadd rd rs1 rs2) :=
  opc_encodeFields (by decide) (rd.isLt) (rs1.isLt) (rs2.isLt) (by decide)
theorem fsub (rd : FIdx) (rs1 : FIdx) (rs2 : FIdx) : Statement (.fsub rd rs1 rs2) :=
  opc_encodeFields (by decide) (rd.isLt) (rs1.isLt) (rs2.isLt) (by decide)
theorem fmul (rd : FIdx) (rs1 : FIdx) (rs2 : FIdx) : Statement (.fmul rd rs1 rs2) :=
  opc_encodeFields (by decide) (rd.isLt) (rs1.isLt) (rs2.isLt) (by decide)
theorem fdiv (rd : FIdx) (rs1 : FIdx) (rs2 : FIdx) : Statement (.fdiv rd rs1 rs2) :=
  opc_encodeFields (by decide) (rd.isLt) (rs1.isLt) (rs2.isLt) (by decide)
theorem finv (rd : FIdx) (rs1 : FIdx) : Statement (.finv rd rs1) :=
  opc_encodeFields (by decide) (rd.isLt) (rs1.isLt) (by decide) (by decide)
theorem fneg (rd : FIdx) (rs1 : FIdx) : Statement (.fneg rd rs1) :=
  opc_encodeFields (by decide) (rd.isLt) (rs1.isLt) (by decide) (by decide)
theorem fpow (rd : FIdx) (rs1 : FIdx) (rs2 : KIdx) (neg : Bool) : Statement (.fpow rd rs1 rs2 neg) :=
  opc_encodeFields (by decide) (rd.isLt) (rs1.isLt) (rs2.isLt.trans (by decide)) ((Bool.toNat_lt neg).trans (by decide))
theorem fsqrt (rd : FIdx) (rs1 : FIdx) : Statement (.fsqrt rd rs1) :=
  opc_encodeFields (by decide) (rd.isLt) (rs1.isLt) (by decide) (by decide)
theorem fmov (rd : FIdx) (rs1 : FIdx) : Statement (.fmov rd rs1) :=
  opc_encodeFields (by decide) (rd.isLt) (rs1.isLt) (by decide) (by decide)
theorem fred (rd : FIdx) (rs1 : FIdx) : Statement (.fred rd rs1) :=
  opc_encodeFields (by decide) (rd.isLt) (rs1.isLt) (by decide) (by decide)
theorem fldi (rd : FIdx) (imm : BitVec 12) : Statement (.fldi rd imm) :=
  opc_encodeFields (by decide) (rd.isLt) (by decide) (by decide) (imm.isLt)
theorem fcmp (rs1 : FIdx) (rs2 : FIdx) : Statement (.fcmp rs1 rs2) :=
  opc_encodeFields (by decide) (by decide) (rs1.isLt) (rs2.isLt) (by decide)
theorem mmul (rd : FIdx) (rs1 : FIdx) (rs2 : FIdx) : Statement (.mmul rd rs1 rs2) :=
  opc_encodeFields (by decide) (rd.isLt) (rs1.isLt) (rs2.isLt) (by decide)
theorem mtom (rd : FIdx) (rs1 : FIdx) : Statement (.mtom rd rs1) :=
  opc_encodeFields (by decide) (rd.isLt) (rs1.isLt) (by decide) (by decide)
theorem mfrom (rd : FIdx) (rs1 : FIdx) : Statement (.mfrom rd rs1) :=
  opc_encodeFields (by decide) (rd.isLt) (rs1.isLt) (by decide) (by decide)
theorem pset (rd : PIdx) (rs1 : FIdx) (rs2 : FIdx) : Statement (.pset rd rs1 rs2) :=
  opc_encodeFields (by decide) (rd.isLt.trans (by decide)) (rs1.isLt) (rs2.isLt) (by decide)
theorem pinf (rd : PIdx) : Statement (.pinf rd) :=
  opc_encodeFields (by decide) (rd.isLt.trans (by decide)) (by decide) (by decide) (by decide)
theorem pgetx (rd : FIdx) (rs1 : PIdx) : Statement (.pgetx rd rs1) :=
  opc_encodeFields (by decide) (rd.isLt) (rs1.isLt.trans (by decide)) (by decide) (by decide)
theorem pgety (rd : FIdx) (rs1 : PIdx) : Statement (.pgety rd rs1) :=
  opc_encodeFields (by decide) (rd.isLt) (rs1.isLt.trans (by decide)) (by decide) (by decide)
theorem pmov (rd : PIdx) (rs1 : PIdx) : Statement (.pmov rd rs1) :=
  opc_encodeFields (by decide) (rd.isLt.trans (by decide)) (rs1.isLt.trans (by decide)) (by decide) (by decide)
theorem pneg (rd : PIdx) (rs1 : PIdx) : Statement (.pneg rd rs1) :=
  opc_encodeFields (by decide) (rd.isLt.trans (by decide)) (rs1.isLt.trans (by decide)) (by decide) (by decide)
theorem padd (rd : PIdx) (rs1 : PIdx) (rs2 : PIdx) : Statement (.padd rd rs1 rs2) :=
  opc_encodeFields (by decide) (rd.isLt.trans (by decide)) (rs1.isLt.trans (by decide)) (rs2.isLt.trans (by decide)) (by decide)
theorem pdbl (rd : PIdx) (rs1 : PIdx) : Statement (.pdbl rd rs1) :=
  opc_encodeFields (by decide) (rd.isLt.trans (by decide)) (rs1.isLt.trans (by decide)) (by decide) (by decide)
theorem ponc (rs1 : PIdx) : Statement (.ponc rs1) :=
  opc_encodeFields (by decide) (by decide) (rs1.isLt.trans (by decide)) (by decide) (by decide)
theorem pisinf (rs1 : PIdx) : Statement (.pisinf rs1) :=
  opc_encodeFields (by decide) (by decide) (rs1.isLt.trans (by decide)) (by decide) (by decide)
theorem psmul (rd : PIdx) (rs1 : PIdx) (rs2 : KIdx) : Statement (.psmul rd rs1 rs2) :=
  opc_encodeFields (by decide) (rd.isLt.trans (by decide)) (rs1.isLt.trans (by decide)) (rs2.isLt.trans (by decide)) (by decide)
theorem psmulda (rd : PIdx) (rs1 : PIdx) (rs2 : KIdx) : Statement (.psmulda rd rs1 rs2) :=
  opc_encodeFields (by decide) (rd.isLt.trans (by decide)) (rs1.isLt.trans (by decide)) (rs2.isLt.trans (by decide)) (by decide)
theorem psmulml (rd : PIdx) (rs1 : PIdx) (rs2 : KIdx) : Statement (.psmulml rd rs1 rs2) :=
  opc_encodeFields (by decide) (rd.isLt.trans (by decide)) (rs1.isLt.trans (by decide)) (rs2.isLt.trans (by decide)) (by decide)
theorem kldi (rd : KIdx) (imm : BitVec 12) : Statement (.kldi rd imm) :=
  opc_encodeFields (by decide) (rd.isLt.trans (by decide)) (by decide) (by decide) (imm.isLt)
theorem kfromf (rd : KIdx) (rs1 : FIdx) : Statement (.kfromf rd rs1) :=
  opc_encodeFields (by decide) (rd.isLt.trans (by decide)) (rs1.isLt) (by decide) (by decide)
theorem ffromk (rd : FIdx) (rs1 : KIdx) : Statement (.ffromk rd rs1) :=
  opc_encodeFields (by decide) (rd.isLt) (rs1.isLt.trans (by decide)) (by decide) (by decide)

end OpcodeField

end Sys2Proof.Laws
end

