-- ==== Sys2Proof/Laws/Prime.lean ====
section
/-! SUPPORT. Over a prime field each primitive is the operation of the integers modulo p, and a canonical value is
determined by its residue. -/

namespace Sys2Proof.Machine

variable {c : FieldCfg} (hk : c.kind = .prime)

include hk

@[simp] theorem cast_fnorm (v : Nat) : ((fnorm c v : Nat) : ZMod c.modulus) = v := by
  simp [fnorm, hk]

@[simp] theorem cast_fadd (a b : Nat) : ((fadd c a b : Nat) : ZMod c.modulus) = a + b := by
  simp [fadd, hk]

@[simp] theorem cast_fmul (a b : Nat) : ((fmul c a b : Nat) : ZMod c.modulus) = a * b := by
  simp [fmul, hk]

omit hk in
theorem cast_toNat_emod (hp : 0 < c.modulus) (z : Int) :
    (((z % (c.modulus : Int)).toNat : Nat) : ZMod c.modulus) = (z : ZMod c.modulus) := by
  have h := Int.emod_nonneg z (by omega : (c.modulus : Int) ≠ 0)
  calc (((z % (c.modulus : Int)).toNat : Nat) : ZMod c.modulus)
      = (((z % (c.modulus : Int)).toNat : Int) : ZMod c.modulus) := by push_cast; rfl
    _ = ((z % (c.modulus : Int) : Int) : ZMod c.modulus) := by rw [Int.toNat_of_nonneg h]
    _ = (z : ZMod c.modulus) := by simp

theorem cast_fsub (hp : 0 < c.modulus) (a b : Nat) : ((fsub c a b : Nat) : ZMod c.modulus) = a - b := by
  simp only [fsub, hk]
  rw [cast_toNat_emod hp]
  push_cast
  rfl

theorem cast_fneg (hp : 0 < c.modulus) (a : Nat) : ((fneg c a : Nat) : ZMod c.modulus) = -a := by
  simp only [fneg, hk]
  rw [cast_toNat_emod hp]
  push_cast
  simp

@[simp] theorem cast_powNat (hp : 1 < c.modulus) (a e : Nat) :
    ((powNat c a e : Nat) : ZMod c.modulus) = a ^ e := by
  simp [powNat_prime hk hp]

/-- Canonical values with one residue are one value (41_field.md R150). -/
theorem eq_of_cast_eq {a b : Nat} (ha : canon c a = true) (hb : canon c b = true)
    (h : (a : ZMod c.modulus) = b) : a = b := by
  rw [canon_prime hk] at ha hb
  rwa [ZMod.natCast_eq_natCast_iff', Nat.mod_eq_of_lt ha, Nat.mod_eq_of_lt hb] at h

/-- A canonical value is 0 exactly when its residue is. -/
theorem cast_eq_zero_iff {a : Nat} (ha : canon c a = true) : (a : ZMod c.modulus) = 0 ↔ a = 0 := by
  rw [canon_prime hk] at ha
  rw [ZMod.natCast_eq_zero_iff]
  exact ⟨fun h => Nat.eq_zero_of_dvd_of_lt h ha, fun h => h ▸ dvd_zero _⟩

/-- Fermat's inverse modulo a prime (41_field.md R158, R174). -/
theorem cast_finv (hp : Nat.Prime c.modulus) {a : Nat} (ha : (a : ZMod c.modulus) ≠ 0) :
    ∃ r, finv c a = .ok r ∧ (r : ZMod c.modulus) = (a : ZMod c.modulus)⁻¹ := by
  have : Fact (Nat.Prime c.modulus) := ⟨hp⟩
  have h0 : a ≠ 0 := fun h => ha (by simp [h])
  refine ⟨powNat c a (c.modulus - 2), by simp [finv, h0, hk], ?_⟩
  rw [cast_powNat hk hp.one_lt]
  have h2 := hp.two_le
  apply eq_inv_of_mul_eq_one_left
  rw [← pow_succ, show c.modulus - 2 + 1 = c.modulus - 1 by omega, ZMod.pow_card_sub_one_eq_one ha]

/-- The quotient modulo a prime (41_field.md R159). -/
theorem cast_fdiv (hp : Nat.Prime c.modulus) (a : Nat) {b : Nat} (hb : (b : ZMod c.modulus) ≠ 0) :
    ∃ r, fdiv c a b = .ok r ∧ (r : ZMod c.modulus) = a * (b : ZMod c.modulus)⁻¹ := by
  obtain ⟨i, hi, hc⟩ := cast_finv hk hp hb
  refine ⟨fmul c a i, by simp only [fdiv, hi]; rfl, ?_⟩
  rw [cast_fmul hk, hc]

omit hk in
/-- `R · R⁻¹` is 1 modulo an odd p (42_montmul.md R190). -/
theorem cast_montRinv (ho : c.modulus % 2 = 1) :
    ((montRinv c : Nat) : ZMod c.modulus) * 2 ^ Config.nbits = 1 := by
  have h : (((c.modulus + 1) / 2 : Nat) : ZMod c.modulus) * 2 = 1 := by
    have : (c.modulus + 1) / 2 * 2 = c.modulus + 1 := by omega
    calc (((c.modulus + 1) / 2 : Nat) : ZMod c.modulus) * 2
        = (((c.modulus + 1) / 2 * 2 : Nat) : ZMod c.modulus) := by push_cast; rfl
      _ = 1 := by rw [this]; simp
  rw [montRinv, ZMod.natCast_mod, Nat.cast_pow, ← mul_pow, h, one_pow]

end Sys2Proof.Machine
end

