-- ==== Sys2Proof/Tests/Slice0.lean ====
section
/-! SUPPORT. The model's own tests: expected values are those of 95_test_vectors.md and of the examples in the rules.
And a witness for the hypotheses of every statement. -/

namespace Sys2Proof.Tests

open Sys2Proof.Machine Sys2Proof.Stated

-- Each kernel evaluation would else run in a thread of its own, with a stack of its own.
set_option Elab.async false

/-! ### Well-formed commands (30_encoding.md R109) -/

theorem test_cfgc_edwards_with_rs2_is_ill_formed : (Instr.cfgc .edwards 1 2).wellFormed = false := by decide
theorem test_cfgc_edwards_is_well_formed : (Instr.cfgc .edwards 1 0).wellFormed = true := by decide
theorem test_cfgc_weierstrass_is_well_formed : (Instr.cfgc .weierstrass 1 2).wellFormed = true := by decide

/-! ### Decoding: one word for each command (95_test_vectors.md §2.1) -/

theorem test_decode_nop : decode 0x00000000 = .ok .nop := by rfl
theorem test_decode_cfgf : decode 0x00000001 = .ok .cfgf := by rfl
theorem test_decode_cfgc : decode 0x00021002 = .ok (.cfgc .weierstrass 1 2) := by rfl
theorem test_decode_cfgc_montgomery : decode 0x00021102 = .ok (.cfgc .montgomery 1 2) := by rfl
theorem test_decode_cfgc_edwards : decode 0x00001202 = .ok (.cfgc .edwards 1 0) := by rfl
theorem test_decode_fadd : decode 0x00021310 = .ok (.fadd 3 1 2) := by rfl
theorem test_decode_fsub : decode 0x00021311 = .ok (.fsub 3 1 2) := by rfl
theorem test_decode_fmul : decode 0x00021312 = .ok (.fmul 3 1 2) := by rfl
theorem test_decode_fdiv : decode 0x00021313 = .ok (.fdiv 3 1 2) := by rfl
theorem test_decode_finv : decode 0x00001214 = .ok (.finv 2 1) := by rfl
theorem test_decode_fneg : decode 0x00001215 = .ok (.fneg 2 1) := by rfl
theorem test_decode_fpow : decode 0x00001216 = .ok (.fpow 2 1 0 false) := by rfl
theorem test_decode_fpow_n : decode 0x00101216 = .ok (.fpow 2 1 0 true) := by rfl
theorem test_decode_fsqrt : decode 0x00001217 = .ok (.fsqrt 2 1) := by rfl
theorem test_decode_fmov : decode 0x00001518 = .ok (.fmov 5 1) := by rfl
theorem test_decode_fred : decode 0x00001119 = .ok (.fred 1 1) := by rfl
theorem test_decode_fldi : decode 0x00A0041A = .ok (.fldi 4 10) := by rfl
theorem test_decode_fcmp : decode 0x0002101B = .ok (.fcmp 1 2) := by rfl
theorem test_decode_mmul : decode 0x0002131C = .ok (.mmul 3 1 2) := by rfl
theorem test_decode_mtom : decode 0x0000121D = .ok (.mtom 2 1) := by rfl
theorem test_decode_mfrom : decode 0x0000121E = .ok (.mfrom 2 1) := by rfl
theorem test_decode_pset : decode 0x00021020 = .ok (.pset 0 1 2) := by rfl
theorem test_decode_pinf : decode 0x00000321 = .ok (.pinf 3) := by rfl
theorem test_decode_pgetx : decode 0x00001522 = .ok (.pgetx 5 1) := by rfl
theorem test_decode_pgety : decode 0x00001623 = .ok (.pgety 6 1) := by rfl
theorem test_decode_pmov : decode 0x00000224 = .ok (.pmov 2 0) := by rfl
theorem test_decode_pneg : decode 0x00000225 = .ok (.pneg 2 0) := by rfl
theorem test_decode_padd : decode 0x00010226 = .ok (.padd 2 0 1) := by rfl
theorem test_decode_pdbl : decode 0x00000227 = .ok (.pdbl 2 0) := by rfl
theorem test_decode_ponc : decode 0x00000028 = .ok (.ponc 0) := by rfl
theorem test_decode_pisinf : decode 0x00002029 = .ok (.pisinf 2) := by rfl
theorem test_decode_psmul : decode 0x00000130 = .ok (.psmul 1 0 0) := by rfl
theorem test_decode_psmulda : decode 0x00000131 = .ok (.psmulda 1 0 0) := by rfl
theorem test_decode_psmulml : decode 0x00000132 = .ok (.psmulml 1 0 0) := by rfl
theorem test_decode_kldi : decode 0x00500038 = .ok (.kldi 0 5) := by rfl
theorem test_decode_kfromf : decode 0x00002139 = .ok (.kfromf 1 2) := by rfl
theorem test_decode_ffromk : decode 0x0000133A = .ok (.ffromk 3 1) := by rfl

/-- RS2 of the Edwards form is ignored. -/
theorem test_decode_cfgc_edwards_rs2 : decode 0x00021202 = .ok (.cfgc .edwards 1 2) := by rfl

/-! Words that 95_test_vectors.md §2.1 calls illegal. -/

theorem test_illegal_nop_rd : decode 0x00000100 = .error .mustBeZero := by rfl
theorem test_illegal_opcode_03 : decode 0x00000003 = .error .unassignedOpcode := by rfl
theorem test_illegal_opcode_1f : decode 0x0000001F = .error .unassignedOpcode := by rfl
theorem test_illegal_opcode_ff : decode 0x000000FF = .error .unassignedOpcode := by rfl
theorem test_illegal_cfgf_imm : decode 0x80000001 = .error .mustBeZero := by rfl
theorem test_illegal_form_3 : decode 0x00000302 = .error .badForm := by rfl
theorem test_illegal_form_15 : decode 0x00000F02 = .error .badForm := by rfl
theorem test_illegal_fpow_imm_1 : decode 0x00201216 = .error .mustBeZero := by rfl
theorem test_illegal_fldi_rs1 : decode 0x00A0141A = .error .mustBeZero := by rfl
theorem test_illegal_padd_p8 : decode 0x00018226 = .error .mustBeZero := by rfl
theorem test_illegal_psmul_k4 : decode 0x00040130 = .error .mustBeZero := by rfl
theorem test_illegal_ffromk_k12 : decode 0x0000C13A = .error .mustBeZero := by rfl
theorem test_illegal_pinf_p11 : decode 0x00000B21 = .error .mustBeZero := by rfl
theorem test_illegal_ponc_rd : decode 0x00000128 = .error .mustBeZero := by rfl

/-- Every row of the opcode table, with operand fields of zeros, is read by the decoder and by `decodeTableWord`. -/
theorem test_table_rows_decode :
    (rows.all fun r => (decodeTableWord 32 r.pattern.toNat).isSome) = true := by decide

theorem test_decodeTableWord_fadd : decodeTableWord 32 0x00021310 = some (.fadd 3 1 2) := by decide

/-! ### States for the tests -/

/-- The answer holds of the next state. -/
def after (r : Result) (p : State → Bool) : Bool :=
  match r with
  | .next t => p t
  | _ => false

/-- GF(23) with F1 and F2 (95_test_vectors.md §1). -/
def gf23 (a b : Nat) : State := ((State.reset.commitField ⟨true, .prime, 23, 0⟩).writeF 1 a).writeF 2 b

/-- GF(16) with F1 and F2. -/
def gf16 (a b : Nat) : State := ((State.reset.commitField ⟨true, .binary, 0x13, 4⟩).writeF 1 a).writeF 2 b

/-- T23 with P0, P1 and K0. -/
def t23 (p q : Point) (k : Nat) : State :=
  ((((gf23 3 10).commitCurve ⟨true, .weierstrass, 1, 1⟩).writeP 0 p).writeP 1 q).writeK 0 k

/-- M23 with P0, P1 and K0. -/
def m23 (p q : Point) (k : Nat) : State :=
  ((((gf23 11 7).commitCurve ⟨true, .montgomery, 3, 1⟩).writeP 0 p).writeP 1 q).writeK 0 k

/-- E13 with P0, P1 and K0. -/
def e13 (p q : Point) (k : Nat) : State :=
  (((((State.reset.commitField ⟨true, .prime, 13, 0⟩).writeF 1 4).writeF 2 4).commitCurve
    ⟨true, .edwards, 2, 0⟩).writeP 0 p).writeP 1 q |>.writeK 0 k

/-- B16 with P0, P1 and K0. -/
def b16 (p q : Point) (k : Nat) : State :=
  ((((gf16 1 1).commitCurve ⟨true, .weierstrass, 1, 1⟩).writeP 0 p).writeP 1 q).writeK 0 k

/-- F[i] holds `v`, with Z and LSB. -/
def fIs (i : FIdx) (v : Nat) (z lsb : Bool) (t : State) : Bool :=
  t.f i == ⟨BitVec.ofNat _ v, .valid⟩ && t.status.z == z && t.status.lsb == lsb && t.status.done

/-- P[j] holds the point, with Z and LSB. -/
def pIs (j : PIdx) (pt : Point) (z lsb : Bool) (t : State) : Bool :=
  (t.p j).tag == .valid && (t.p j).toPoint == pt && t.status.z == z && t.status.lsb == lsb && t.status.done

/-- The command ended with this error code. -/
def errIs (code : Nat) (t : State) : Bool :=
  t.status.err && t.status.errcode == BitVec.ofNat 4 code && t.status.done && !t.status.busy

/-! ### One command (95_test_vectors.md part 2, and the examples of the rules) -/

theorem test_nop_completes : after (exec .nop (gf23 1 1))
    (fun t => t.status.done && !t.status.err) = true := by decide +kernel
theorem test_cfgf_commits : after (exec .cfgf ({ State.reset with staging := ⟨.prime, 0, 0, 23⟩ }))
    (fun t => t.field == ⟨true, .prime, 23, 0⟩) = true := by decide +kernel
theorem test_cfgf_even : after (exec .cfgf ({ State.reset with staging := ⟨.prime, 0, 0, 22⟩ }))
    (errIs 1) = true := by decide +kernel
theorem test_cfgc_commits : after (exec (.cfgc .weierstrass 1 2) (gf23 1 1))
    (fun t => t.cfgstatWord == 0x11) = true := by decide +kernel
theorem test_cfgc_degenerate : after (exec (.cfgc .edwards 1 0) (gf23 0 1))
    (errIs 2) = true := by decide +kernel
theorem test_fadd_wraps : after (exec (.fadd 3 1 2) (gf23 20 5))
    (fIs 3 2 false false) = true := by decide +kernel
theorem test_fadd_binary : after (exec (.fadd 3 1 2) (gf16 0xA 0x7))
    (fIs 3 0xD false true) = true := by decide +kernel
theorem test_fsub_wraps : after (exec (.fsub 3 1 2) (gf23 3 5))
    (fIs 3 21 false true) = true := by decide +kernel
theorem test_fmul : after (exec (.fmul 3 1 2) (gf23 5 7))
    (fIs 3 12 false false) = true := by decide +kernel
theorem test_fmul_binary : after (exec (.fmul 3 1 2) (gf16 0xA 0x7))
    (fIs 3 3 false true) = true := by decide +kernel
theorem test_fdiv : after (exec (.fdiv 3 1 2) (gf23 7 5))
    (fIs 3 6 false false) = true := by decide +kernel
theorem test_fdiv_by_zero : after (exec (.fdiv 3 1 2) (gf23 7 0))
    (errIs 6) = true := by decide +kernel
theorem test_finv : after (exec (.finv 2 1) (gf23 5 0))
    (fIs 2 14 false false) = true := by decide +kernel
theorem test_finv_binary : after (exec (.finv 2 1) (gf16 0xA 0))
    (fIs 2 0xC false false) = true := by decide +kernel
theorem test_fneg : after (exec (.fneg 2 1) (gf23 5 0))
    (fIs 2 18 false false) = true := by decide +kernel
theorem test_fneg_zero : after (exec (.fneg 2 1) (gf23 0 0))
    (fIs 2 0 true false) = true := by decide +kernel
theorem test_fpow : after (exec (.fpow 2 1 0 false) ((gf23 3 0).writeK 0 22))
    (fIs 2 1 false true) = true := by decide +kernel
theorem test_fpow_n : after (exec (.fpow 2 1 0 true) ((gf23 5 0).writeK 0 3))
    (fIs 2 7 false true) = true := by decide +kernel
theorem test_fsqrt_root : after (exec (.fsqrt 2 1) (gf23 8 0))
    (fIs 2 13 false true) = true := by decide +kernel
theorem test_fsqrt_non_residue : after (exec (.fsqrt 2 1) (gf23 5 4))
    (fun t => t.status.nr && (t.f 2).v == 4 && !t.status.err) = true := by decide +kernel
theorem test_fmov_keeps_non_canonical : after (exec (.fmov 5 1) (gf23 30 0))
    (fIs 5 30 false false) = true := by decide +kernel
theorem test_fred : after (exec (.fred 1 1) (gf23 30 0))
    (fIs 1 7 false true) = true := by decide +kernel
theorem test_fldi : after (exec (.fldi 4 10) (gf23 0 0))
    (fIs 4 10 false false) = true := by decide +kernel
theorem test_fldi_reduces : after (exec (.fldi 1 4095) (gf16 0 0))
    (fIs 1 0xB false true) = true := by decide +kernel
theorem test_fcmp_equal : after (exec (.fcmp 1 2) (gf23 13 13))
    (fun t => t.status.z) = true := by decide +kernel
theorem test_fcmp_non_canonical : after (exec (.fcmp 1 2) (gf23 13 30))
    (errIs 10) = true := by decide +kernel
theorem test_mmul : after (exec (.mmul 3 1 2) (gf23 5 7))
    (fIs 3 13 false true) = true := by decide +kernel
theorem test_mmul_binary : after (exec (.mmul 3 1 2) (gf16 1 1))
    (errIs 7) = true := by decide +kernel
theorem test_mtom : after (exec (.mtom 2 1) (gf23 5 0))
    (fIs 2 17 false true) = true := by decide +kernel
theorem test_mfrom : after (exec (.mfrom 2 1) (gf23 5 0))
    (fIs 2 15 false true) = true := by decide +kernel
theorem test_pset : after (exec (.pset 0 1 2) (t23 .infinity .infinity 0))
    (pIs 0 (.affine 3 10) false false) = true := by decide +kernel
theorem test_pset_off_curve : after (exec (.pset 0 1 1) (t23 .infinity .infinity 0))
    (errIs 3) = true := by decide +kernel
theorem test_pinf : after (exec (.pinf 3) (t23 .infinity .infinity 0))
    (pIs 3 .infinity true false) = true := by decide +kernel
theorem test_pinf_edwards : after (exec (.pinf 3) (e13 (.affine 4 4) (.affine 4 4) 0))
    (pIs 3 (.affine 0 1) true true) = true := by decide +kernel
theorem test_pgetx : after (exec (.pgetx 5 1) (t23 .infinity (.affine 17 20) 0))
    (fIs 5 17 false true) = true := by decide +kernel
theorem test_pgetx_infinity : after (exec (.pgetx 5 0) (t23 .infinity (.affine 17 20) 0))
    (errIs 13) = true := by decide +kernel
theorem test_pgety : after (exec (.pgety 6 1) (t23 .infinity (.affine 17 20) 0))
    (fIs 6 20 false false) = true := by decide +kernel
theorem test_pmov : after (exec (.pmov 2 0) (t23 (.affine 3 10) .infinity 0))
    (pIs 2 (.affine 3 10) false false) = true := by decide +kernel
theorem test_pneg : after (exec (.pneg 2 0) (t23 (.affine 3 10) .infinity 0))
    (pIs 2 (.affine 3 13) false true) = true := by decide +kernel
theorem test_pneg_edwards : after (exec (.pneg 2 0) (e13 (.affine 4 4) (.affine 4 4) 0))
    (pIs 2 (.affine 9 4) false false) = true := by decide +kernel
theorem test_padd : after (exec (.padd 2 0 1) (t23 (.affine 3 10) (.affine 9 7) 0))
    (pIs 2 (.affine 17 20) false false) = true := by decide +kernel
theorem test_padd_binary_self : after (exec (.padd 2 0 1) (b16 (.affine 0 1) (.affine 0 1) 0))
    (pIs 2 .infinity true false) = true := by decide +kernel
theorem test_pdbl : after (exec (.pdbl 2 0) (t23 (.affine 3 10) .infinity 0))
    (pIs 2 (.affine 7 12) false false) = true := by decide +kernel
theorem test_pdbl_off_curve : after (exec (.pdbl 2 0) (b16 (.affine 0 1) .infinity 0))
    (errIs 3) = true := by decide +kernel
theorem test_ponc : after (exec (.ponc 0) (t23 (.affine 3 10) .infinity 0))
    (fun t => t.status.onc) = true := by decide +kernel
theorem test_pisinf : after (exec (.pisinf 1) (t23 (.affine 3 10) .infinity 0))
    (fun t => t.status.z) = true := by decide +kernel
theorem test_psmul : after (exec (.psmul 1 0 0) (t23 (.affine 3 10) .infinity 5))
    (pIs 1 (.affine 9 16) false false) = true := by decide +kernel
theorem test_psmul_order : after (exec (.psmul 1 0 0) (t23 (.affine 3 10) .infinity 28))
    (pIs 1 .infinity true false) = true := by decide +kernel
theorem test_psmulda : after (exec (.psmulda 1 0 0) (m23 (.affine 11 7) .infinity 12))
    (pIs 1 (.affine 6 10) false false) = true := by decide +kernel
theorem test_psmulda_no_last_double : after (exec (.psmulda 1 0 0) (b16 (.affine 0 1) .infinity 1))
    (pIs 1 (.affine 0 1) false true) = true := by decide +kernel
theorem test_psmulml : after (exec (.psmulml 1 0 0) (t23 (.affine 3 10) .infinity 5))
    (pIs 1 (.affine 9 16) false false) = true := by decide +kernel
theorem test_psmulml_binary : after (exec (.psmulml 1 0 0) (b16 (.affine 0 1) .infinity 1))
    (errIs 3) = true := by decide +kernel
theorem test_kldi : after (exec (.kldi 0 5) (State.reset))
    (fun t => t.k 0 == ⟨5, .valid⟩ && !t.status.z && t.status.lsb) = true := by decide +kernel
theorem test_kfromf : after (exec (.kfromf 1 2) (gf23 0 30))
    (fun t => t.k 1 == ⟨30, .valid⟩) = true := by decide +kernel
theorem test_ffromk : after (exec (.ffromk 3 0) ((gf23 0 0).writeK 0 100))
    (fIs 3 8 false false) = true := by decide +kernel

/-! ### One step -/

/-- The step after `withFetchWord` runs the word: `KLDI k0, #5`. -/
theorem test_withFetchWord_runs_the_word :
    after (step (State.reset.withFetchWord 32 0x00500038)) (fun t => t.k 0 == ⟨5, .valid⟩ && t.schedule == []) = true := by
  decide +kernel

/-- An illegal word completes with IllegalCommand, and ERRCMD holds it (95_test_vectors.md §2.1). -/
theorem test_illegal_word_completes :
    after (step (State.reset.withFetchWord 32 0x0000001F)) (fun t => errIs 8 t && t.errcmd == 0x1F) = true := by
  decide +kernel

/-- `WR 0x1040, 5` writes word 0 of F1 (95_test_vectors.md §1). -/
theorem test_write_f1_word_0 :
    after (step (withAccess State.reset (.write .w32 0x1040 5))) (fun t => t.f 1 == ⟨5, .valid⟩) = true := by
  decide +kernel

/-- A read of ID answers 0x45430001 (10_state.md R50). -/
theorem test_read_id :
    after (step (withAccess State.reset (.read .w32 0x000))) (fun t => t.readData == some 0x45430001) = true := by
  decide +kernel

/-- An access of another width, and a misaligned one, is a fault of the host's step (20_memory.md R72). -/
theorem test_narrow_access_faults : step (withAccess State.reset (.read .w8 0x000)) =
    .fault (.busError (.read .w8 0x000)) := by rfl
theorem test_misaligned_access_faults : step (withAccess State.reset (.write .w32 0x002 0)) =
    .fault (.busError (.write .w32 0x002 0)) := by rfl

/-- With an empty schedule and no command in flight nothing happens. -/
theorem test_idle_step : step State.reset = .next State.reset := by rfl

/-! ### Deciding the invariant of a concrete state -/

def fieldWfB (c : FieldCfg) : Bool :=
  match c.kind with
  | .prime => decide (3 ≤ c.modulus ∧ c.modulus % 2 = 1 ∧ c.modulus < 2 ^ Config.nbits ∧ c.degree = 0)
  | .binary =>
    decide (1 ≤ c.degree ∧ c.degree ≤ Config.nbits ∧ c.modulus.testBit c.degree = true
      ∧ c.modulus < 2 ^ (c.degree + 1)
      ∧ (1 < c.degree → (List.range (c.degree + 1)).countP (fun i => c.modulus.testBit i) % 2 = 1))

theorem fieldWf_of {c : FieldCfg} (h : fieldWfB c = true) : FieldWf c := by
  unfold fieldWfB at h
  unfold FieldWf
  cases hk : c.kind <;> simp only [hk] at h ⊢ <;> exact of_decide_eq_true h

def curveWfB (c : FieldCfg) (e : CurveCfg) : Bool :=
  canon c e.a && canon c e.b && curveOk c e.form e.a e.b
    && (e.form == .weierstrass || c.kind == .prime) && (e.form != .edwards || e.b == 0)

theorem curveWf_of {c : FieldCfg} {e : CurveCfg} (h : curveWfB c e = true) : CurveWf c e := by
  simp only [curveWfB, Bool.and_eq_true, Bool.or_eq_true, beq_iff_eq, bne_iff_ne] at h
  obtain ⟨⟨⟨⟨h1, h2⟩, h3⟩, h4⟩, h5⟩ := h
  exact ⟨h1, h2, h3, fun hne => h4.resolve_left hne, fun hE => h5.resolve_left (fun h => h hE)⟩

def pointWfB (c : FieldCfg) (e : CurveCfg) (pt : Point) : Bool :=
  (match pt with
    | .infinity => true
    | .affine x y => canon c x && canon c y) && onCurve c e pt

theorem pointWf_of {c : FieldCfg} {e : CurveCfg} {pt : Point} (h : pointWfB c e pt = true) :
    PointWf c e pt := by
  cases pt with
  | infinity => exact ⟨trivial, by simpa [pointWfB] using h⟩
  | affine x y =>
    simp only [pointWfB, Bool.and_eq_true] at h
    exact ⟨h.1, h.2⟩

def invB (s : State) : Bool :=
  (!s.field.valid || fieldWfB s.field)
    && (!s.curve.valid || (s.field.valid && curveWfB s.field s.curve))
    && (List.finRange 8).all (fun j =>
      (s.p j).tag != .valid || (s.curve.valid && pointWfB s.field s.curve (s.p j).toPoint))
    && (List.finRange 8).all (fun j => !(s.p j).inf || ((s.p j).x == 0 && (s.p j).y == 0))
    && ((!s.status.err) == (s.status.errcode == 0)) && decide (s.status.errcode.toNat ≤ 13)

theorem inv_of {s : State} (h : invB s = true) : Machine.Inv s := by
  simp only [invB, Bool.and_eq_true, Bool.or_eq_true, List.all_eq_true, List.mem_finRange, forall_true_left,
    bne_iff_ne, Bool.not_eq_true', beq_iff_eq, decide_eq_true_eq] at h
  obtain ⟨⟨⟨⟨⟨h1, h2⟩, h3⟩, h4⟩, h5⟩, h6⟩ := h
  constructor
  · intro hv; exact fieldWf_of (h1.resolve_left (by simp [hv]))
  · intro hv
    obtain ⟨hf, hc⟩ := h2.resolve_left (by simp [hv])
    exact ⟨hf, curveWf_of hc⟩
  · intro j hj
    obtain ⟨hv, hp⟩ := (h3 j).resolve_left (fun h => h hj)
    exact ⟨hv, pointWf_of hp⟩
  · intro j hj; exact (h4 j).resolve_left (by simp [hj])
  · cases he : s.status.err <;> simp_all
  · exact h6

/-! ### Witnesses: concrete states and operands that meet the hypotheses of each statement -/

/-- `s` with a command word in flight. -/
def busy (s : State) (w : BusWord) : State :=
  { s with status := { s.status with busy := true }, curCmd := w }

/-- T23 with P0 = G, P1 = O and K0 = k. -/
def g23 (k : Nat) : State := t23 (.affine 3 10) .infinity k

theorem witness_EncodeOfDecode : decode 0xFFF0041A = .ok (.fldi 4 4095) := by rfl

theorem witness_StepRunsTheDecodedCommand :
    (busy (gf23 20 5) 0x00021310).status.busy = true ∧ (busy (gf23 20 5) 0x00021310).schedule = []
      ∧ (gf23 20 5).status.busy = false := by decide +kernel
theorem witness_StepRunsTheDecodedCommand_decode :
    decode (busy (gf23 20 5) 0x00021310).curCmd = .ok (.fadd 3 1 2) := by rfl

theorem witness_IllegalWordRaisesIllegalCommand :
    (busy (gf23 20 5) 0x00000302).status.busy = true
      ∧ decode (busy (gf23 20 5) 0x00000302).curCmd = .error .badForm := ⟨rfl, rfl⟩

theorem witness_CmdWriteIssuesOrIsDropped :
    State.reset.status.busy = false ∧ (busy State.reset 0).status.busy = true := by decide +kernel

theorem witness_OnlyRefusedAccessesStopTheMachine :
    (withAccess State.reset (.read .w64 0x000)).schedule = .host (.read .w64 0x000) :: []
      ∧ (withAccess State.reset (.write .w32 0xFFFF 1)).schedule = .host (.write .w32 0xFFFF 1) :: []
      ∧ (0xFFFF : Offset).toNat % 4 ≠ 0 ∧ BusWidth.w64 ≠ .w32 := by decide +kernel

theorem witness_WritesWhileBusy :
    (busy State.reset 0).status.busy = true
      ∧ (∀ off ∈ [0x0008, 0x0020, 0x0028, 0x1000, 0x13DC, 0x3000, 0x30DC, 0x4000, 0x4020],
          DropsWhenBusy off ∧ off % 4 = 0)
      ∧ (∀ off ∈ [0x0004, 0x000C, 0x0010], ¬DropsWhenBusy off ∧ AlwaysAccepted off)
      ∧ (∀ off ∈ [0x0000, 0x0014, 0x003C, 0x13E0, 0x1400, 0x2000, 0x30E0, 0x4024, 0x4100, 0xFFFC],
          ¬DropsWhenBusy off ∧ ¬AlwaysAccepted off)
      ∧ (1 : BusWord).getLsbD 0 = true ∧ (2 : BusWord).getLsbD 0 = false := by decide +kernel

theorem witness_ReadsHaveNoSideEffect : (0xFFFC : Offset).toNat % 4 = 0 ∧ (0 : Offset).toNat % 4 = 0 := by
  decide +kernel

theorem witness_ReservedAndReadOnlyOffsets :
    (∀ off ∈ [0x0000, 0x0014, 0x0038, 0x003C, 0x0FFC, 0x1020, 0x13FC, 0x1400, 0x1FFC, 0x2000, 0x2020, 0x203C,
        0x2060, 0x207C, 0x2080, 0x2084, 0x27FC, 0x2800, 0x2FFC, 0x3020, 0x3100, 0x3FFC, 0x4024, 0x40FC, 0x4124,
        0x417C, 0x41A0, 0x41FC, 0x4200, 0xFFFC],
      ¬DropsWhenBusy off ∧ ¬AlwaysAccepted off ∧ off % 4 = 0) := by decide +kernel

theorem witness_WindowWritesReadBack : (gf23 1 2).status.busy = false ∧ 0 < Config.nw ∧ 7 < Config.nw := by
  decide +kernel

theorem witness_StagingWritesReadBack : State.reset.status.busy = false ∧ 0 ≤ Config.nw ∧ 8 ≤ Config.nw := by
  decide +kernel

theorem witness_WindowsShowLittleEndianWords : 0 < Config.nw ∧ 7 < Config.nw ∧ 8 ≤ Config.nw := by decide +kernel

theorem witness_ResetFromAnyState :
    (0xFFFFFFFF : BusWord).getLsbD 0 = true ∧ (0xFFFFFFFE : BusWord).getLsbD 0 = false := by decide +kernel

/-- The staging values of a CFGF, and a draw. -/
def staged (k : FieldKind) (m : BitVec 16) (mrr : BitVec 8) (f : WideWord) (draw : Bool) : State :=
  { State.reset with staging := ⟨k, m, mrr, f⟩, mrDraw := draw }

/-- The clauses of the statement, at the least prime, at composites with a draw and without the test, and at the
edges of what is refused. -/
theorem witness_CfgfPrimeField :
    (staged .prime 0 5 3 false).staging.fkind = .prime ∧ 3 ≤ (3 : WideWord).toNat
      ∧ (3 : WideWord).toNat % 2 = 1 ∧ Nat.Prime (3 : WideWord).toNat
      ∧ (staged .prime 0 0 21 false).staging.mrr = 0 ∧ (staged .prime 0 5 9 true).mrDraw = true
      ∧ (2 : WideWord).toNat < 3 ∧ (22 : WideWord).toNat % 2 = 0
      ∧ 2 ^ Config.nbits ≤ (BitVec.allOnes 257).toNat
      ∧ (staged .prime 0 5 9 false).staging.mrr ≠ 0 ∧ ¬Nat.Prime (9 : WideWord).toNat
      ∧ (staged .prime 0 5 9 false).mrDraw = false := by decide +kernel

/-- A good polynomial of the least degree and one of degree 4, and a bad one for each check. -/
theorem witness_CfgfBinaryField :
    (staged .binary 1 5 2 false).staging.fkind = .binary ∧ (2 : Nat).testBit 1 = true ∧ 2 < 2 ^ (1 + 1)
      ∧ (0x13 : Nat).testBit 4 = true ∧ 0x13 < 2 ^ (4 + 1)
      ∧ ((Finset.range (4 + 1)).filter (fun i => (0x13 : Nat).testBit i = true)).card % 2 = 1
      ∧ ((Finset.range (4 + 1)).filter (fun i => (0x11 : Nat).testBit i = true)).card % 2 = 0
      ∧ (0x13 : Nat).testBit 3 = false ∧ ¬0x33 < 2 ^ (4 + 1) := by decide +kernel

theorem fieldWf_gf23 : FieldWf (gf23 1 1).field := fieldWf_of (by decide +kernel)
theorem fieldWf_gf16 : FieldWf (gf16 1 1).field := fieldWf_of (by decide +kernel)

/-- Coefficients of a curve and of a degenerate one, for each form over GF(23), and for W over GF(16). -/
theorem witness_CfgcResults :
    (gf23 1 1).field.valid = true ∧ FieldWf (gf23 1 1).field ∧ HoldsCanon (gf23 1 1) 1 1
      ∧ HoldsCanon (gf23 1 1) 2 1 ∧ NotDegenerate (gf23 1 1).field .weierstrass 1 1
      ∧ HoldsCanon (gf23 0 0) 1 0 ∧ ¬NotDegenerate (gf23 0 0).field .weierstrass 0 0
      ∧ NotDegenerate (gf23 3 1).field .montgomery 3 1 ∧ ¬NotDegenerate (gf23 2 1).field .montgomery 2 1
      ∧ NotDegenerate (gf23 2 0).field .edwards 2 0 ∧ ¬NotDegenerate (gf23 0 0).field .edwards 0 0
      ∧ FieldWf (gf16 1 1).field ∧ NotDegenerate (gf16 1 1).field .weierstrass 1 1
      ∧ ¬NotDegenerate (gf16 0 1).field .weierstrass 0 1 ∧ CurveForm.montgomery ≠ .weierstrass
      ∧ (gf16 1 1).field.kind = .binary :=
  ⟨by decide +kernel, fieldWf_gf23, by decide +kernel, by decide +kernel,
    show (4 * 1 ^ 3 + 27 * 1 ^ 2) % 23 ≠ 0 by decide, by decide +kernel,
    show ¬(4 * 0 ^ 3 + 27 * 0 ^ 2) % 23 ≠ 0 by decide,
    show ((1 : Int) * ((3 : Int) ^ 2 - 4)) % 23 ≠ 0 by decide,
    show ¬((1 : Int) * ((2 : Int) ^ 2 - 4)) % 23 ≠ 0 by decide, show 2 ≠ 0 by decide, show ¬0 ≠ 0 by decide,
    fieldWf_gf16, show 1 ≠ 0 by decide, show ¬0 ≠ 0 by decide, by decide, by decide +kernel⟩

/-- F1 is VALID, and a CFGF succeeds. -/
theorem witness_ReconfigurationMakesOperandsStale :
    ∃ t, exec .cfgf { gf23 5 0 with staging := ⟨.prime, 0, 5, 13⟩ } = .next t ∧ t.status.err = false
      ∧ needsField (.finv 2 1) = true ∧ operands (.finv 2 1) = .f 1 true :: []
      ∧ ({ gf23 5 0 with staging := ⟨.prime, 0, 5, 13⟩ } : State).f 1 = ⟨5, .valid⟩ :=
  ⟨_, rfl, by decide +kernel, by decide +kernel, rfl, by decide +kernel⟩

/-- Canonical operands, the least and the greatest, of both field kinds. -/
theorem witness_RingCommandResults :
    (gf23 22 0).field.valid = true ∧ HoldsCanon (gf23 22 0) 1 22 ∧ HoldsCanon (gf23 22 0) 2 0
      ∧ (gf23 22 0).field.kind = .prime ∧ (gf16 15 0).field.valid = true ∧ HoldsCanon (gf16 15 0) 1 15
      ∧ HoldsCanon (gf16 15 0) 2 0 ∧ (gf16 15 0).field.kind = .binary := by decide +kernel

theorem witness_PolynomialHelpers : (1 : Nat) ≠ 0 ∧ (0x13 : Nat) ≠ 0 := by decide

/-- Zero and nonzero operands of both field kinds; over the reducible x⁴ + x² + 1 the element 7 has no inverse
(41_field.md R166). -/
theorem witness_InverseAndDivisionResults :
    HoldsCanon (gf23 0 0) 1 0 ∧ HoldsCanon (gf23 0 0) 2 0 ∧ HoldsCanon (gf23 22 1) 1 22
      ∧ HoldsCanon (gf23 22 1) 2 1 ∧ HoldsCanon (gf16 1 15) 1 1 ∧ HoldsCanon (gf16 1 15) 2 15
      ∧ (gf16 1 15).field.kind = .binary ∧ (pgcdinv 15 0x13).1 = 1 ∧ (pgcdinv 7 0x15).1 ≠ 1 := by
  decide +kernel

theorem witness_InverseMultipliesBack :
    FieldWf (gf23 1 1).field ∧ Nat.Prime (gf23 1 1).field.modulus ∧ canon (gf23 1 1).field 22 = true
      ∧ finv (gf23 1 1).field 22 = .ok 22 ∧ FieldWf (gf16 1 1).field ∧ canon (gf16 1 1).field 15 = true :=
  ⟨fieldWf_gf23, by decide +kernel, by decide +kernel, by rfl, fieldWf_gf16, by decide +kernel⟩

theorem witness_PowerResults :
    FieldWf (gf23 1 1).field ∧ HoldsCanon ((gf23 0 0).writeK 0 (2 ^ 256 - 1)) 1 0
      ∧ HoldsK ((gf23 0 0).writeK 0 (2 ^ 256 - 1)) 0 (2 ^ 256 - 1) ∧ HoldsK ((gf23 5 0).writeK 0 0) 0 0
      ∧ finv (gf23 5 0).field 5 = .ok 14 ∧ finv (gf23 0 0).field 0 = .error .divisionByZero :=
  ⟨fieldWf_gf23, by decide +kernel, by decide +kernel, by decide +kernel, by rfl, by rfl⟩

/-- The clauses: zero, a residue and a non-residue when p mod 4 = 3, both when p mod 4 = 1, a binary field. -/
theorem witness_SquareRootResults :
    FieldWf (gf23 1 1).field ∧ HoldsCanon (gf23 0 0) 1 0 ∧ HoldsCanon (gf23 8 0) 1 8
      ∧ 8 ^ ((23 - 1) / 2) % 23 = 1 ∧ 23 % 4 = 3 ∧ HoldsCanon (gf23 5 0) 1 5 ∧ 5 ^ ((23 - 1) / 2) % 23 ≠ 1
      ∧ HoldsCanon (e13 (.affine 4 4) (.affine 4 4) 0) 1 4 ∧ 4 ^ ((13 - 1) / 2) % 13 = 1 ∧ 13 % 4 = 1
      ∧ FieldWf (gf16 1 1).field ∧ HoldsCanon (gf16 15 0) 1 15 :=
  ⟨fieldWf_gf23, by decide +kernel, by decide +kernel, by decide, by decide, by decide +kernel, by decide,
    by decide +kernel, by decide, by decide, fieldWf_gf16, by decide +kernel⟩

theorem witness_SquareRootIsARoot :
    FieldWf (gf23 1 1).field ∧ TruePrime (gf23 1 1).field ∧ canon (gf23 1 1).field 22 = true
      ∧ fsqrt (gf23 1 1).field 8 = .ok (some 13) ∧ fsqrt (gf23 1 1).field 5 = .ok none :=
  ⟨fieldWf_gf23, by decide +kernel, by decide +kernel, by rfl, by rfl⟩

/-- A register with a value that is not canonical, and canonical ones. -/
theorem witness_MoveReduceLoadCompareResults :
    (gf23 30 0).field.valid = true ∧ HoldsF (gf23 30 0) 1 30 ∧ HoldsCanon (gf23 22 22) 1 22
      ∧ HoldsCanon (gf23 22 22) 2 22 ∧ HoldsF (gf16 0x1F 0) 1 0x1F ∧ (gf16 0x1F 0).field.kind = .binary := by
  decide +kernel

theorem inv_gf23 : Machine.Inv (gf23 20 5) := inv_of (by decide +kernel)

theorem witness_WrittenFieldValuesAreCanonical :
    Machine.Inv (gf23 20 5) ∧ destF (.fadd 3 1 2) = some 3
      ∧ ∃ t, exec (.fadd 3 1 2) (gf23 20 5) = .next t ∧ t.status.nr = false ∧ t.status.err = false :=
  ⟨inv_gf23, rfl, _, rfl, by decide +kernel, by decide +kernel⟩

theorem witness_MontgomeryResults :
    FieldWf (gf23 1 1).field ∧ HoldsCanon (gf23 22 0) 1 22 ∧ HoldsCanon (gf23 22 0) 2 0
      ∧ FieldWf (gf16 1 1).field ∧ HoldsCanon (gf16 1 1) 1 1 ∧ HoldsCanon (gf16 1 1) 2 1
      ∧ (gf16 1 1).field.kind = .binary :=
  ⟨fieldWf_gf23, by decide +kernel, by decide +kernel, fieldWf_gf16, by decide +kernel, by decide +kernel,
    by decide +kernel⟩

theorem witness_MontgomeryLaws :
    FieldWf (gf23 1 1).field ∧ (gf23 1 1).field.kind = .prime ∧ canon (gf23 1 1).field 22 = true
      ∧ canon (gf23 1 1).field 0 = true := ⟨fieldWf_gf23, by decide +kernel, by decide +kernel, by decide +kernel⟩

theorem inv_g23 : Machine.Inv (g23 5) := inv_of (by decide +kernel)
theorem inv_m23 : Machine.Inv (m23 (.affine 11 7) .infinity 5) := inv_of (by decide +kernel)
theorem inv_e13 : Machine.Inv (e13 (.affine 4 4) (.affine 0 1) 5) := inv_of (by decide +kernel)
theorem inv_b16 : Machine.Inv (b16 (.affine 0 1) (.affine 0 1) 5) := inv_of (by decide +kernel)

/-- A prime field, and B16 with a point on the curve and one off it. -/
theorem witness_CurveEquations :
    FieldWf (gf23 1 1).field ∧ (gf23 1 1).field.kind = .prime ∧ FieldWf (gf16 1 1).field
      ∧ (gf16 1 1).field.kind = .binary ∧ (b16 (.affine 0 1) (.affine 0 1) 5).curve.form = .weierstrass
      ∧ canon (gf16 1 1).field (b16 (.affine 0 1) (.affine 0 1) 5).curve.b = true
      ∧ onCurve (gf16 1 1).field (b16 (.affine 0 1) (.affine 0 1) 5).curve (.affine 3 9) = true
      ∧ onCurve (gf16 1 1).field (b16 (.affine 0 1) (.affine 0 1) 5).curve (.affine 1 0) = false :=
  ⟨fieldWf_gf23, by decide +kernel, fieldWf_gf16, by decide +kernel, by decide +kernel, by decide +kernel,
    by decide +kernel, by decide +kernel⟩

/-- F1 = 3 and F2 = 10 are a point of T23, (3, 3) is not; PINF under W and under E. -/
theorem witness_PointCreationResults :
    (g23 5).curve.valid = true ∧ HoldsCanon (g23 5) 1 3 ∧ HoldsCanon (g23 5) 2 10
      ∧ onCurve (g23 5).field (g23 5).curve (.affine 3 10) = true
      ∧ onCurve (g23 5).field (g23 5).curve (.affine 3 3) = false ∧ Machine.Inv (g23 5)
      ∧ (g23 5).curve.form ≠ .edwards ∧ Machine.Inv (e13 (.affine 4 4) (.affine 0 1) 5)
      ∧ (e13 (.affine 4 4) (.affine 0 1) 5).curve.valid = true
      ∧ (e13 (.affine 4 4) (.affine 0 1) 5).curve.form = .edwards :=
  ⟨by decide +kernel, by decide +kernel, by decide +kernel, by decide +kernel, by decide +kernel, inv_g23,
    by decide +kernel, inv_e13, by decide +kernel, by decide +kernel⟩

theorem witness_CoordinateResults :
    (g23 5).curve.valid = true ∧ HoldsP (g23 5) 0 (.affine 3 10) ∧ HoldsP (g23 5) 1 .infinity := by
  decide +kernel

theorem witness_MoveAndNegateResults :
    Machine.Inv (g23 5) ∧ (g23 5).curve.valid = true ∧ HoldsP (g23 5) 0 (.affine 3 10)
      ∧ HoldsP (g23 5) 1 .infinity ∧ (g23 5).field.kind = .prime
      ∧ Machine.Inv (b16 (.affine 0 1) (.affine 0 1) 5) ∧ HoldsP (b16 (.affine 0 1) (.affine 0 1) 5) 0 (.affine 0 1)
      ∧ (b16 (.affine 0 1) (.affine 0 1) 5).field.kind = .binary
      ∧ Machine.Inv (e13 (.affine 4 4) (.affine 0 1) 5) ∧ HoldsP (e13 (.affine 4 4) (.affine 0 1) 5) 1 (.affine 0 1)
      ∧ (e13 (.affine 4 4) (.affine 0 1) 5).curve.form = .edwards :=
  ⟨inv_g23, by decide +kernel, by decide +kernel, by decide +kernel, by decide +kernel, inv_b16, by decide +kernel,
    by decide +kernel, inv_e13, by decide +kernel, by decide +kernel⟩

/-- A sum on the curve; over B16 a double off the curve; and a point of B16 added to itself. -/
theorem witness_AddAndDoubleResults :
    (g23 5).curve.valid = true ∧ HoldsP (g23 5) 0 (.affine 3 10) ∧ HoldsP (g23 5) 1 .infinity
      ∧ checked (g23 5) (padd (g23 5).field (g23 5).curve (.affine 3 10) .infinity) = .ok (.affine 3 10)
      ∧ checked (b16 (.affine 0 1) (.affine 0 1) 5)
          (pdbl (b16 (.affine 0 1) (.affine 0 1) 5).field (b16 (.affine 0 1) (.affine 0 1) 5).curve (.affine 0 1))
          = .error .pointNotOnCurve
      ∧ Machine.Inv (b16 (.affine 0 1) (.affine 0 1) 5) ∧ HoldsP (b16 (.affine 0 1) (.affine 0 1) 5) 1 (.affine 0 1) :=
  ⟨by decide +kernel, by decide +kernel, by decide +kernel, by rfl, by rfl, inv_b16, by decide +kernel⟩

theorem curveWf_t23 : CurveWf (g23 5).field (g23 5).curve := curveWf_of (by decide +kernel)
theorem curveWf_m23 :
    CurveWf (m23 (.affine 11 7) .infinity 5).field (m23 (.affine 11 7) .infinity 5).curve :=
  curveWf_of (by decide +kernel)
theorem curveWf_e13 :
    CurveWf (e13 (.affine 4 4) (.affine 0 1) 5).field (e13 (.affine 4 4) (.affine 0 1) 5).curve :=
  curveWf_of (by decide +kernel)
theorem fieldWf_g23 : FieldWf (g23 5).field := fieldWf_of (by decide +kernel)

/-- Two points of B16 with different x and y ≠ 0, whose denominators have inverses; over the reducible
x⁴ + x² + 1 a denominator that has none. -/
theorem witness_ChordAndTangentFormulas_binary :
    FieldWf (gf16 1 1).field ∧ (gf16 1 1).field.kind = .binary
      ∧ CurveWf (gf16 1 1).field (b16 (.affine 0 1) (.affine 0 1) 5).curve
      ∧ (b16 (.affine 0 1) (.affine 0 1) 5).curve.form ≠ .edwards
      ∧ CanonPoint (gf16 1 1).field (.affine 0 1) ∧ CanonPoint (gf16 1 1).field (.affine 3 9)
      ∧ (∃ i, finv (gf16 1 1).field (0 ^^^ 3) = .ok i) ∧ (∃ i, finv (gf16 1 1).field 9 = .ok i)
      ∧ FieldWf ⟨true, .binary, 0x15, 4⟩ ∧ finv ⟨true, .binary, 0x15, 4⟩ 7 = .error .notInvertible
      ∧ (0 : Nat) ^^^ 7 = 7 :=
  ⟨fieldWf_gf16, by decide +kernel, curveWf_of (by decide +kernel), by decide +kernel,
    ⟨by decide +kernel, by decide +kernel⟩, ⟨by decide +kernel, by decide +kernel⟩, ⟨_, rfl⟩, ⟨_, rfl⟩,
    fieldWf_of (by decide +kernel), by rfl, by decide⟩

/-- Two points of T23 with different x, with y ≠ 0; (4, 0); opposite points; and the form M. -/
theorem witness_ChordAndTangentFormulas :
    FieldWf (g23 5).field ∧ TruePrime (g23 5).field ∧ CurveWf (g23 5).field (g23 5).curve
      ∧ (g23 5).curve.form ≠ .edwards ∧ CanonPoint (g23 5).field (.affine 3 10)
      ∧ CanonPoint (g23 5).field (.affine 4 0) ∧ (3 : Nat) ≠ 4 ∧ (10 : Nat) ≠ 0
      ∧ CanonPoint (g23 5).field (.affine 3 13) ∧ 13 = (23 - 10) % 23
      ∧ CurveWf (m23 (.affine 11 7) .infinity 5).field (m23 (.affine 11 7) .infinity 5).curve :=
  ⟨fieldWf_g23, by decide +kernel, curveWf_t23, by decide +kernel, ⟨by decide +kernel, by decide +kernel⟩,
    ⟨by decide +kernel, by decide +kernel⟩, by decide, by decide, ⟨by decide +kernel, by decide +kernel⟩, by decide,
    curveWf_m23⟩

/-- E13, which has d = 2: operands with two denominators that are not 0, and coordinates at which one is 0. -/
theorem witness_EdwardsFormulas :
    FieldWf (e13 (.affine 4 4) (.affine 0 1) 5).field ∧ TruePrime (e13 (.affine 4 4) (.affine 0 1) 5).field
      ∧ CurveWf (e13 (.affine 4 4) (.affine 0 1) 5).field (e13 (.affine 4 4) (.affine 0 1) 5).curve
      ∧ (e13 (.affine 4 4) (.affine 0 1) 5).curve.form = .edwards
      ∧ (1 : ZMod 13) + 2 * 4 * 1 * 4 * 0 ≠ 0 ∧ (1 : ZMod 13) - 2 * 4 * 1 * 4 * 0 ≠ 0
      ∧ (1 : ZMod 13) + 2 * 1 * 6 * 1 * 1 = 0 :=
  ⟨fieldWf_of (by decide +kernel), by decide +kernel, curveWf_e13, by decide +kernel, by decide, by decide,
    by decide⟩

theorem witness_PointUnitLaws :
    FieldWf (g23 5).field ∧ CurveWf (g23 5).field (g23 5).curve ∧ (g23 5).field.kind = .prime
      ∧ PointWf (g23 5).field (g23 5).curve (.affine 3 10) ∧ PointWf (g23 5).field (g23 5).curve .infinity
      ∧ (g23 5).curve.form ≠ .edwards ∧ Nat.Prime (g23 5).field.modulus
      ∧ PointWf (e13 (.affine 4 4) (.affine 0 1) 5).field (e13 (.affine 4 4) (.affine 0 1) 5).curve (.affine 0 1) :=
  ⟨fieldWf_g23, curveWf_t23, by decide +kernel, pointWf_of (by decide +kernel), pointWf_of (by decide +kernel),
    by decide +kernel, by decide +kernel, pointWf_of (by decide +kernel)⟩

theorem witness_PrimeCurvesAreClosed :
    Machine.Inv (g23 5) ∧ (g23 5).curve.valid = true ∧ TruePrime (g23 5).field
      ∧ HoldsP (g23 5) 0 (.affine 3 10) ∧ HoldsP (g23 5) 1 .infinity ∧ HoldsK (g23 5) 0 5 :=
  ⟨inv_g23, by decide +kernel⟩

theorem witness_PointTestResults :
    (g23 5).curve.valid = true ∧ HoldsP (g23 5) 1 .infinity ∧ Machine.Inv (g23 5)
      ∧ HoldsP (e13 (.affine 4 4) (.affine 0 1) 5) 1 (.affine 0 1) :=
  ⟨by decide +kernel, by decide +kernel, inv_g23, by decide +kernel⟩

theorem witness_ScalarMultiplicationResults :
    (g23 0).curve.valid = true ∧ HoldsP (g23 0) 0 (.affine 3 10) ∧ HoldsK (g23 0) 0 0
      ∧ smulDa (g23 0).field (g23 0).curve (.affine 3 10) 0 = .ok .infinity
      ∧ (g23 0).curve.form ≠ .montgomery
      ∧ (m23 (.affine 11 7) .infinity 5).curve.form = .montgomery
      ∧ HoldsK (m23 (.affine 11 7) .infinity 5) 0 5 :=
  ⟨by decide +kernel, by decide +kernel, by decide +kernel, by rfl, by decide +kernel, by decide +kernel,
    by decide +kernel⟩

theorem witness_BothAlgorithmsAreRepeatedAddition :
    FieldWf (g23 5).field ∧ TruePrime (g23 5).field ∧ CurveWf (g23 5).field (g23 5).curve
      ∧ (g23 5).curve.form ≠ .edwards ∧ PointWf (g23 5).field (g23 5).curve (.affine 3 10)
      ∧ 2 ^ 256 - 1 < 2 ^ Config.nbits :=
  ⟨fieldWf_g23, by decide +kernel, curveWf_t23, by decide +kernel, pointWf_of (by decide +kernel), by decide +kernel⟩

theorem inv_g23_one : Machine.Inv (g23 1) := inv_of (by decide +kernel)
theorem inv_g23_zero : Machine.Inv (g23 0) := inv_of (by decide +kernel)

/-- Both scalars over T23; over B16 with scalar 1 a point whose double is on the curve, and one whose double is not
(44_scalar.md R245). -/
theorem witness_ZeroAndOneScalars :
    Machine.Inv (g23 1) ∧ (g23 1).curve.valid = true ∧ TruePrime (g23 1).field
      ∧ HoldsP (g23 1) 0 (.affine 3 10) ∧ HoldsK (g23 1) 0 1 ∧ Machine.Inv (g23 0) ∧ HoldsK (g23 0) 0 0
      ∧ Machine.Inv (b16 (.affine 1 1) (.affine 0 1) 1)
      ∧ HoldsP (b16 (.affine 1 1) (.affine 0 1) 1) 0 (.affine 1 1)
      ∧ HoldsP (b16 (.affine 1 1) (.affine 0 1) 1) 1 (.affine 0 1)
      ∧ HoldsK (b16 (.affine 1 1) (.affine 0 1) 1) 0 1
      ∧ (b16 (.affine 1 1) (.affine 0 1) 1).curve.form ≠ .montgomery
      ∧ checked (b16 (.affine 1 1) (.affine 0 1) 1) (pdbl (gf16 1 1).field
          (b16 (.affine 1 1) (.affine 0 1) 1).curve (.affine 1 1)) = .ok (.affine 0 1)
      ∧ checked (b16 (.affine 1 1) (.affine 0 1) 1) (pdbl (gf16 1 1).field
          (b16 (.affine 1 1) (.affine 0 1) 1).curve (.affine 0 1)) = .error .pointNotOnCurve :=
  ⟨inv_g23_one, by decide +kernel, by decide +kernel, by decide +kernel, by decide +kernel, inv_g23_zero,
    by decide +kernel, inv_of (by decide +kernel), by decide +kernel, by decide +kernel, by decide +kernel,
    by decide +kernel, by rfl, by rfl⟩

theorem witness_ScalarRegisterResults :
    (gf23 30 0).field.valid = true ∧ HoldsF (gf23 30 0) 1 30
      ∧ HoldsK ((gf23 0 0).writeK 0 100) 0 100 ∧ (gf23 0 0).field.kind = .prime
      ∧ HoldsK ((gf16 0 0).writeK 3 (2 ^ 256 - 1)) 3 (2 ^ 256 - 1) ∧ (gf16 0 0).field.kind = .binary := by
  decide +kernel

theorem witness_NotConfiguredComesFirst :
    ¬Configured State.reset (.fadd 3 1 2) ∧ ¬Configured (gf23 1 1) (.ponc 0) := by decide +kernel

/-- The second operand of FADD is not canonical, and the first can be read; a STALE P register; an EMPTY K
register. -/
theorem witness_FirstOperandErrorDecides :
    Configured (gf23 5 30) (.fadd 3 1 2)
      ∧ operands (.fadd 3 1 2) = [Operand.f 1 true] ++ Operand.f 2 true :: []
      ∧ operandError (gf23 5 30) (.f 1 true) = none ∧ operandError (gf23 5 30) (.f 2 true) = some 10
      ∧ operandError ((g23 5).commitCurve ⟨true, .weierstrass, 1, 1⟩) (.p 0) = some 5
      ∧ operandError (gf23 5 30) (.k 3) = some 9 :=
  ⟨by decide +kernel, rfl, by decide +kernel, by decide +kernel, by decide +kernel, by decide +kernel⟩

theorem witness_CommandsEndWholeOrNotAtAll : (busy State.reset 0x0000001F).status.busy = true := by decide +kernel

/-- 3y² = x³ + x over the composite 15, which an accepting draw lets CFGF commit, with the point (0, 5). -/
def m15 : State :=
  (((State.reset.commitField ⟨true, .prime, 15, 0⟩).commitCurve ⟨true, .montgomery, 0, 3⟩).writeP 0 (.affine 0 5))

/-- A command that raises an error of its row, with the latch clear and with that error latched already; one that
ends without an error under any latch; and the composite case of form M. -/
theorem witness_ErrorMatrix :
    Machine.Inv (gf23 0 5)
      ∧ exec (.finv 2 1) (gf23 0 5) = .next ((gf23 0 5).raiseError .divisionByZero)
      ∧ exec (.finv 2 1) (withLatch (gf23 0 5) true 6 0)
          = .next ((withLatch (gf23 0 5) true 6 0).raiseError .divisionByZero)
      ∧ 6 ∈ errorCodes (.finv 2 1)
      ∧ (∃ t, exec (.fadd 3 1 2) (withLatch (gf23 0 5) true 6 0) = .next t ∧ t.f 3 = ⟨5, .valid⟩)
      ∧ Machine.Inv m15 ∧ addsPoints (.pdbl 1 0) ∧ CompositeMontgomery m15
      ∧ exec (.pdbl 1 0) m15 = .next (m15.raiseError .divisionByZero) :=
  ⟨inv_of (by decide +kernel), by rfl, by rfl, by decide, ⟨_, rfl, by decide +kernel⟩, inv_of (by decide +kernel),
    .inr (.inl ⟨_, _, rfl⟩), ⟨by decide +kernel, by decide +kernel, by decide +kernel⟩, by rfl⟩

theorem witness_FlagsWritten :
    ∃ t, exec (.fcmp 1 2) (gf23 20 5) = .next t ∧ Flag.lsb ∉ flagsWritten (.fcmp 1 2) := ⟨_, rfl, by decide⟩

theorem witness_FlagsWritten_error :
    ∃ t, exec (.finv 2 1) (gf23 0 5) = .next t ∧ t.status.err = true ∧ (gf23 0 5).status.err = false :=
  ⟨_, rfl, by decide +kernel, by decide +kernel⟩

theorem witness_RegistersWritten :
    ∃ t, exec (.fadd 3 1 2) (gf23 20 5) = .next t ∧ destF (.fadd 3 1 2) ≠ some 4
      ∧ destP (.fadd 3 1 2) ≠ some 0 ∧ destK (.fadd 3 1 2) ≠ some 0 := ⟨_, rfl, by decide⟩

theorem witness_NoCommandReadsAFlag : ∃ t, exec (.fadd 3 1 2) (gf23 20 5) = .next t := ⟨_, rfl⟩

/-- The invariant holds of a state that is not the reset state, and the step goes on from it. -/
theorem witness_StepKeepsTheInvariant :
    Machine.Inv (g23 5) ∧ ∃ t, step (withEngine (g23 5) true) = .next t := ⟨inv_g23, _, rfl⟩

end Sys2Proof.Tests
end

section
/-! The engine's turn, and the two ways in which a command ends. -/

namespace Sys2Proof.Machine

open Sys2Proof.Stated

variable {s : State}

/-! ### The step of an engine turn -/

theorem step_withEngine (s : State) (draw : Bool) : step (withEngine s draw) = engineStep draw s := rfl

theorem step_withEngine_busy (h : s.status.busy = true) (draw : Bool) :
    step (withEngine s draw) = completeCommand { s with mrDraw := draw } :=
  (step_withEngine s draw).trans (engineStep_busy h draw)

theorem step_withEngine_idle (h : s.status.busy = false) (draw : Bool) :
    step (withEngine s draw) = .next s :=
  (step_withEngine s draw).trans (engineStep_idle h draw)

theorem freeStep_busy (h : s.status.busy = true) :
    freeStep s
      = completeCommand { s with mrDraw := Config.mrDraw s.freeTurns, freeTurns := s.freeTurns + 1 } := by
  simp [freeStep, engineStep, h]

theorem step_of_schedule_nil (h : s.schedule = []) : step s = freeStep s := by
  simp [step, h]

/-- `withFetchWord` puts a bus word in flight, with an engine turn first that carries the draw already held. -/
theorem withFetchWord_eq_withEngine (s : State) (w : BusWord) :
    s.withFetchWord 32 w.toNat
      = withEngine { s with curCmd := w, status := { s.status with busy := true } } s.mrDraw := by
  have hw : BitVec.ofNat 32 (w.toNat % 2 ^ 32) = w := by
    rw [Nat.mod_eq_of_lt w.isLt, BitVec.ofNat_toNat, BitVec.setWidth_eq]
  simp only [State.withFetchWord, hw, State.issueNext, withEngine]

theorem step_withFetchWord (s : State) (w : BusWord) :
    step (s.withFetchWord 32 w.toNat)
      = completeCommand { s with curCmd := w, status := { s.status with busy := true } } := by
  rw [withFetchWord_eq_withEngine]
  exact step_withEngine_busy rfl s.mrDraw

/-- Settles O5: each engine step is `completeCommand` of the word in flight, with its draw. -/
theorem stepRunsTheDecodedCommand : Obligations.StepRunsTheDecodedCommand := by
  refine ⟨fun s i draw hb hd => ?_, fun s i hb hs hd => ?_, fun s i w hd => ?_,
    fun s draw hb => step_withEngine_idle hb draw⟩
  · rw [step_withEngine_busy hb]
    exact completeCommand_of_decode hd
  · rw [step_of_schedule_nil hs, freeStep_busy hb]
    exact completeCommand_of_decode hd
  · rw [step_withFetchWord]
    exact completeCommand_of_decode hd

/-! ### The two endings of a command -/

theorem raised_raiseError (s : State) (e : Err) : Raised s (s.raiseError e) :=
  ⟨e.code.toNat, e.code_bounds.1, e.code_bounds.2, raises_raiseError s e⟩

theorem exec_succeeds_or_raised (i : Instr) (s : State) :
    ∃ t, exec i s = .next t ∧ (Succeeds s t ∨ Raised s t) := by
  obtain ⟨t, ht⟩ := exec_next i s
  refine ⟨t, ht, ?_⟩
  obtain ⟨u, hu, rfl⟩ | ⟨e, rfl⟩ := exec_cases ht
  · exact .inl hu.succeeds
  · exact .inr (raised_raiseError s e)

/-- An illegal word ends as a command that raises an error does (30_encoding.md R105). -/
theorem completeCommand_succeeds_or_raised (s : State) :
    ∃ t, completeCommand s = .next t ∧ (Succeeds s t ∨ Raised s t) := by
  cases hd : decode s.curCmd with
  | ok i =>
    rw [completeCommand_of_decode hd]
    exact exec_succeeds_or_raised i s
  | error e => exact ⟨_, completeCommand_of_illegal hd, .inr (raised_raiseError s _)⟩

/-- Settles O54, by everything that a command can do (`exec_cases`), and the decoder's two answers. -/
theorem commandsEndWholeOrNotAtAll : Obligations.CommandsEndWholeOrNotAtAll := by
  refine ⟨fun s i => exec_succeeds_or_raised i s, fun s draw hb => ?_⟩
  rw [step_withEngine_busy hb]
  exact completeCommand_succeeds_or_raised _

end Sys2Proof.Machine
end

section
/-! Every step keeps the invariant of the state. -/

namespace Sys2Proof.Machine

open Sys2Proof.Stated

variable {s t u : State}

/-! ### Updates that keep the invariant -/

/-- The invariant speaks of the configuration, the point registers and the error latch, and of nothing else. -/
theorem Inv.of_same (h : Inv s) (hc : SameConfig s t) (hp : SameP s t)
    (he : t.status.err = s.status.err) (hcode : t.status.errcode = s.status.errcode) : Inv t where
  field := by rw [hc.1]; exact h.field
  curve := by rw [hc.1, hc.2]; exact h.curve
  points j := by rw [hc.1, hc.2, hp j]; exact h.points j
  infZero j := by rw [hp j]; exact h.infZero j
  latch := by rw [he, hcode]; exact h.latch
  codes := by rw [hcode]; exact h.codes

@[simp] theorem f_reset (i : FIdx) : State.reset.f i = ⟨0, .empty⟩ := by simp [State.f, State.reset]
@[simp] theorem p_reset (j : PIdx) : State.reset.p j = ⟨0, 0, false, .empty⟩ := by simp [State.p, State.reset]
@[simp] theorem k_reset (k : KIdx) : State.reset.k k = ⟨0, .empty⟩ := by simp [State.k, State.reset]

/-- Settles O59: after reset nothing is committed or VALID, and the error latch is clear. -/
theorem resetMeetsTheInvariant : Obligations.ResetMeetsTheInvariant where
  field hv := by cases hv
  curve hv := by cases hv
  points j hj := by simp at hj
  infZero j hj := by simp at hj
  latch := by decide
  codes := by decide

theorem inv_resetBlock (s : State) : Inv s.resetBlock :=
  Inv.of_same resetMeetsTheInvariant ⟨rfl, rfl⟩ (fun _ => rfl) rfl rfl

/-- After CFGF no curve is committed and no point register is VALID. -/
theorem Inv.commitField (h : Inv s) {c : FieldCfg} (hw : FieldWf c) : Inv (s.commitField c) where
  field _ := hw
  curve hv := by simp at hv
  points j hv := by simp at hv
  infZero j := by simpa using h.infZero j
  latch := h.latch
  codes := h.codes

/-- After CFGC no point register is VALID. -/
theorem Inv.commitCurve (h : Inv s) {e : CurveCfg} (hv : s.field.valid = true)
    (hw : CurveWf s.field e) : Inv (s.commitCurve e) where
  field := h.field
  curve _ := ⟨hv, hw⟩
  points j hj := by simp at hj
  infZero j := by simpa using h.infZero j
  latch := h.latch
  codes := h.codes

theorem Point.toReg_infZero {pt : Point} (h : pt.toReg.inf = true) : pt.toReg.x = 0 ∧ pt.toReg.y = 0 := by
  cases pt with
  | infinity => exact ⟨rfl, rfl⟩
  | affine x y => cases h

theorem Inv.putP (h : Inv s) {rd : PIdx} {pt : Point} (hv : s.curve.valid = true)
    (hp : PointWf s.field s.curve pt) : Inv (s.putP rd pt) where
  field := h.field
  curve := h.curve
  points j hj := by
    by_cases hr : rd = j
    · have hpt := toPoint_toReg (h.fieldWf_of_curve hv) hp.1
      simpa [State.putP, hr, hpt] using ⟨hv, hp⟩
    · have hj' : (s.p j).tag = .valid := by simpa [State.putP, hr] using hj
      simpa [State.putP, hr] using h.points j hj'
  infZero j hj := by
    by_cases hr : rd = j
    · have hi : pt.toReg.inf = true := by simpa [State.putP, hr] using hj
      simpa [State.putP, hr] using Point.toReg_infZero hi
    · have hj' : (s.p j).inf = true := by simpa [State.putP, hr] using hj
      simpa [State.putP, hr] using h.infZero j hj'
  latch := h.latch
  codes := h.codes

theorem Inv.complete (h : Inv s) : Inv s.complete := h.of_same ⟨rfl, rfl⟩ (fun _ => rfl) rfl rfl

theorem Err.code_ne_zero (e : Err) : e.code ≠ 0 := by cases e <;> decide

theorem Inv.raiseError (h : Inv s) (e : Err) : Inv (s.raiseError e) where
  field := h.field
  curve := h.curve
  points := h.points
  infZero := h.infZero
  latch := iff_of_false Bool.noConfusion e.code_ne_zero
  codes := e.code_bounds.2

theorem Inv.clearStatus (h : Inv s) (data : BusWord) : Inv (s.clearStatus data) := by
  cases hd : data.getLsbD 2 with
  | false =>
    exact h.of_same ⟨rfl, rfl⟩ (fun _ => rfl) (by simp only [State.clearStatus, hd, Bool.not_false, Bool.and_true])
      (by simp only [State.clearStatus, hd, Bool.false_eq_true, if_false])
  | true =>
    exact { h with
      latch := by simp only [State.clearStatus, hd, Bool.not_true, Bool.and_false, if_true]
      codes := by simp only [State.clearStatus, hd, if_true]; decide }

/-! ### The engine and the port -/

theorem Inv.effect {i : Instr} (h : Inv s) (hu : Effect s i u) : Inv u := by
  cases hu with
  | nothing => exact h
  | field c _ _ hw => exact h.commitField hw
  | curve e _ _ hf hw => exact h.commitCurve hf (hw (h.fieldWf hf))
  | pval rd pt _ _ hv hp => exact h.putP hv (hp h)
  | root _ _ r => cases r <;> exact h.of_same ⟨rfl, rfl⟩ (fun _ => rfl) rfl rfl
  | fval | kval | zflag | oncflag => exact h.of_same ⟨rfl, rfl⟩ (fun _ => rfl) rfl rfl

theorem Inv.of_exec {i : Instr} (h : Inv s) (ht : exec i s = .next t) : Inv t := by
  obtain ⟨u, hu, rfl⟩ | ⟨e, rfl⟩ := exec_cases ht
  · exact (h.effect hu).complete
  · exact h.raiseError e

theorem Inv.of_completeCommand (h : Inv s) (ht : completeCommand s = .next t) : Inv t := by
  cases hd : decode s.curCmd with
  | ok i => exact h.of_exec ((completeCommand_of_decode hd).symm.trans ht)
  | error e =>
    rw [completeCommand_of_illegal hd] at ht
    cases ht
    exact h.raiseError _

theorem Inv.of_engineStep (h : Inv s) {draw : Bool} (ht : engineStep draw s = .next t) : Inv t := by
  cases hb : s.status.busy with
  | true =>
    rw [engineStep_busy hb] at ht
    exact (h.of_same (t := { s with mrDraw := draw }) ⟨rfl, rfl⟩ (fun _ => rfl) rfl rfl).of_completeCommand ht
  | false =>
    rw [engineStep_idle hb] at ht
    cases ht
    exact h

theorem Inv.of_writeSlot (h : Inv s) (data : BusWord) (sl : Slot) : Inv (writeSlot s data sl) := by
  obtain he | he | he | he | ⟨q, he⟩ | ⟨g, he⟩ | ⟨i, w, -, he⟩ | ⟨k, w, -, he⟩ := writeSlot_cases s data sl
  all_goals rw [he]
  case inr.inl => exact inv_resetBlock s
  case inr.inr.inr.inl => exact h.clearStatus data
  all_goals exact h.of_same ⟨rfl, rfl⟩ (fun _ => rfl) rfl rfl

theorem Inv.of_busWrite (h : Inv s) (off : Offset) (data : BusWord) : Inv (busWrite s off data) := by
  unfold busWrite
  split
  · exact h.of_same ⟨rfl, rfl⟩ (fun _ => rfl) rfl rfl
  · exact h.of_writeSlot data _

theorem Inv.readData (h : Inv s) (d : Option BusWord) : Inv { s with readData := d } :=
  h.of_same ⟨rfl, rfl⟩ (fun _ => rfl) rfl rfl

theorem Inv.of_hostAccess (h : Inv s) {a : Access} (ht : hostAccess a s = .next t) : Inv t := by
  cases a with
  | read width off =>
    simp only [hostAccess] at ht
    split at ht <;> cases ht
    exact h.readData _
  | write width off data =>
    simp only [hostAccess] at ht
    split at ht <;> cases ht
    exact (h.of_busWrite off data).readData _

theorem Inv.of_takeTurn (h : Inv s) {x : Turn} (ht : takeTurn x s = .next t) : Inv t := by
  cases x with
  | host a => exact h.of_hostAccess ht
  | engine draw => exact h.of_engineStep ht
  | working => cases ht; exact h
  | hwReset => cases ht; exact inv_resetBlock s

theorem Inv.of_freeStep (h : Inv s) (ht : freeStep s = .next t) : Inv t := by
  cases hb : s.status.busy with
  | true =>
    rw [freeStep_busy hb] at ht
    refine Inv.of_completeCommand ?_ ht
    exact h.of_same ⟨rfl, rfl⟩ (fun _ => rfl) rfl rfl
  | false =>
    have hs : freeStep s = .next s := by simp [freeStep, hb]
    rw [hs] at ht
    cases ht
    exact h

/-- Settles O60: the invariant is kept by each agent's turn, the engine's by `exec_cases` and the port's by
`writeSlot_cases`. -/
theorem stepKeepsTheInvariant : Obligations.StepKeepsTheInvariant := by
  intro s s' h hs
  cases hx : s.schedule with
  | nil => exact h.of_freeStep ((step_of_schedule_nil hx).symm.trans hs)
  | cons x rest =>
    rw [step_turn hx] at hs
    refine Inv.of_takeTurn ?_ hs
    exact h.of_same ⟨rfl, rfl⟩ (fun _ => rfl) rfl rfl

end Sys2Proof.Machine
end

section
/-! What commands leave alone: flags, registers and the configuration; and canonical results. -/

namespace Sys2Proof.Machine

open Sys2Proof.Stated

variable {s t u : State} {i : Instr}

/-! ### The destinations and the flags of a command -/

theorem destK_of_destF {rd : FIdx} (h : destF i = some rd) : destK i = none := by
  revert h
  cases i <;> simp [destF, destK]

theorem destP_of_destF {rd : FIdx} (h : destF i = some rd) : destP i = none := by
  revert h
  cases i <;> simp [destF, destP]

/-- Every command that writes an F register writes Z and LSB (10_state.md R47). -/
theorem lsb_mem_flagsWritten_of_destF {rd : FIdx} (h : destF i = some rd) : Flag.lsb ∈ flagsWritten i := by
  revert h
  cases i <;> simp [destF, flagsWritten]

/-- A command with an F destination that ends without an error has written it, FSQRT apart. -/
theorem Effect.of_destF {rd : FIdx} (hd : destF i = some rd) (h : Effect s i u) :
    (∃ v, u = s.putF rd v ∧ (Inv s → FieldWf s.field)
      ∧ (Inv s → (∀ a b, i ≠ .fmov a b) → canon s.field v = true))
    ∨ ∃ rs1 r, i = .fsqrt rd rs1 ∧ u = s.putRoot rd r ∧ (Inv s → FieldWf s.field)
      ∧ (Inv s → ∀ v, r = some v → canon s.field v = true) := by
  cases h with
  | nothing h => subst h; cases hd
  | field _ h => subst h; cases hd
  | curve _ h => obtain ⟨_, _, _, rfl⟩ := h; cases hd
  | fval rd' v h _ hw hc =>
    cases hd.symm.trans h
    exact .inl ⟨v, rfl, hw, hc⟩
  | root rd' rs1 r h hw hc =>
    subst h
    cases hd
    exact .inr ⟨rs1, r, rfl, rfl, hw, hc⟩
  | kval _ _ h => simp [destK_of_destF hd] at h
  | pval _ _ h => simp [destP_of_destF hd] at h
  | zflag _ h =>
    have hl := lsb_mem_flagsWritten_of_destF hd
    simp [h] at hl
  | oncflag _ h =>
    have hl := lsb_mem_flagsWritten_of_destF hd
    simp [h] at hl

/-! ### Canonical results -/

/-- A canonical value written to an F register is read back from it. -/
theorem putF_valid_canon {rd : FIdx} {v : Nat} (hw : FieldWf s.field) (hc : canon s.field v = true) :
    ((s.putF rd v).f rd).tag = .valid ∧ canon (s.putF rd v).field ((s.putF rd v).f rd).v.toNat = true := by
  have hv : v % 2 ^ Config.nbits = v := Nat.mod_eq_of_lt (canon_lt hw hc)
  simp only [State.putF, State.f_setZL, State.f_writeF, if_true, State.setZL_field, State.writeF_field,
    BitVec.toNat_ofNat, hv, hc, and_self]

/-- Settles O35: the value written is the result of a primitive that answers canonical values (`Effect`). -/
theorem writtenFieldValuesAreCanonical : Obligations.WrittenFieldValuesAreCanonical := by
  intro s t i rd hI hd hm ht hr hnr
  obtain ⟨u, hu, rfl⟩ | ⟨e, rfl⟩ := exec_cases ht
  · obtain ⟨v, rfl, hw, hc⟩ | ⟨rs1, r, rfl, rfl, hw, hc⟩ := hu.of_destF hd
    · exact putF_valid_canon (hw hI) (hc hI hm)
    · cases r with
      | none => cases hnr ⟨rd, rs1, rfl⟩
      | some v => exact putF_valid_canon (hw hI) (hc hI v rfl)
  · exact absurd (raised_raiseError s e) hr

/-! ### Flags -/

theorem Effect.flagOf_eq (h : Effect s i u) {f : Flag} (hf : f ∉ flagsWritten i) :
    flagOf u.status f = flagOf s.status f := by
  cases h with
  | nothing | field | curve => rfl
  | fval rd v _ hz | kval rd v _ hz | pval rd v _ hz | zflag b hz | oncflag b hz =>
    rw [hz] at hf
    cases f <;> simp at hf <;> rfl
  | root rd rs1 r h =>
    subst h
    cases f <;> simp [flagsWritten] at hf
    cases r <;> rfl

theorem sameFlags_raiseError (s : State) (e : Err) : SameFlags s (s.raiseError e) :=
  fun f => by cases f <;> rfl

theorem flagOf_complete (s : State) (f : Flag) : flagOf s.complete.status f = flagOf s.status f := by
  cases f <;> rfl

/-- Settles O56: each effect writes the flags of its row, and an error discards them all. -/
theorem flagsWritten_of_exec : Obligations.FlagsWritten := by
  intro s t i ht
  obtain ⟨u, hu, rfl⟩ | ⟨e, rfl⟩ := exec_cases ht
  · refine ⟨fun f hf => (flagOf_complete u f).trans (hu.flagOf_eq hf), fun h1 h0 => ?_⟩
    rw [hu.succeeds.err, h0] at h1
    cases h1
  · exact ⟨fun f _ => sameFlags_raiseError s e f, fun _ _ => sameFlags_raiseError s e⟩

/-! ### Registers and the configuration -/

theorem Effect.f_eq (h : Effect s i u) {r : FIdx} (hr : destF i ≠ some r) :
    (u.f r).v = (s.f r).v ∧ (i ≠ .cfgf → u.f r = s.f r) := by
  cases h with
  | field c h => exact ⟨by simp, fun hn => absurd h hn⟩
  | fval rd v h =>
    have hne : rd ≠ r := fun he => hr (he ▸ h)
    simp [State.putF, hne]
  | root rd rs1 o h =>
    subst h
    have hne : rd ≠ r := fun he => hr (congrArg some he)
    cases o with
    | none => exact ⟨rfl, fun _ => rfl⟩
    | some v => simp [State.putRoot, State.putF, hne]
  | nothing | curve | kval | pval | zflag | oncflag => exact ⟨rfl, fun _ => rfl⟩

theorem Effect.p_eq (h : Effect s i u) {r : PIdx} (hr : destP i ≠ some r) :
    (u.p r).x = (s.p r).x ∧ (u.p r).y = (s.p r).y ∧ (u.p r).inf = (s.p r).inf
      ∧ (i ≠ .cfgf → (∀ form a b, i ≠ .cfgc form a b) → u.p r = s.p r) := by
  cases h with
  | field c h => exact ⟨by simp, by simp, by simp, fun hn _ => absurd h hn⟩
  | curve e h =>
    obtain ⟨form, a, b, h⟩ := h
    exact ⟨by simp, by simp, by simp, fun _ hn => absurd h (hn form a b)⟩
  | pval rd pt h =>
    have hne : rd ≠ r := fun he => hr (he ▸ h)
    simp [State.putP, hne]
  | root _ _ o => cases o <;> exact ⟨rfl, rfl, rfl, fun _ _ => rfl⟩
  | nothing | fval | kval | zflag | oncflag => exact ⟨rfl, rfl, rfl, fun _ _ => rfl⟩

theorem Effect.k_eq (h : Effect s i u) {r : KIdx} (hr : destK i ≠ some r) : u.k r = s.k r := by
  cases h with
  | kval rd v h =>
    have hne : rd ≠ r := fun he => hr (he ▸ h)
    simp [State.putK, hne]
  | root _ _ o => cases o <;> rfl
  | nothing | field | curve | fval | pval | zflag | oncflag => rfl

theorem Effect.config_eq (h : Effect s i u) (hf : i ≠ .cfgf) :
    u.field = s.field ∧ ((∀ form a b, i ≠ .cfgc form a b) → u.curve = s.curve) := by
  cases h with
  | field _ h => exact absurd h hf
  | curve e h =>
    obtain ⟨form, a, b, h⟩ := h
    exact ⟨rfl, fun hn => absurd h (hn form a b)⟩
  | root _ _ o => cases o <;> exact ⟨rfl, fun _ => rfl⟩
  | nothing | fval | kval | pval | zflag | oncflag => exact ⟨rfl, fun _ => rfl⟩

/-- Settles O57: each effect writes its destination alone, but for the tags of CFGF and CFGC. -/
theorem registersWritten : Obligations.RegistersWritten := by
  intro s t i ht
  obtain ⟨u, hu, rfl⟩ | ⟨e, rfl⟩ := exec_cases ht
  · exact ⟨fun r hr => hu.f_eq hr, fun r hr => hu.p_eq hr, fun r hr => hu.k_eq hr,
      fun hf => (hu.config_eq hf).1, fun hf hc => (hu.config_eq hf).2 hc⟩
  · exact ⟨fun _ _ => ⟨rfl, fun _ => rfl⟩, fun _ _ => ⟨rfl, rfl, rfl, fun _ _ => rfl⟩, fun _ _ => rfl,
      fun _ => rfl, fun _ _ => rfl⟩

end Sys2Proof.Machine
end

section
/-! No command reads a flag: the run of a command on a state and on the state with other flags. -/

namespace Sys2Proof.Machine

open Sys2Proof.Stated

/-! ### Pairs of runs -/

/-- `u'` is `u` with other flags: each is that of `u`, or the given one. -/
def FlagsApart (z lsb nr onc : Bool) (u u' : State) : Prop :=
  ∃ z' lsb' nr' onc', u' = withFlags u z' lsb' nr' onc'
    ∧ (z' = u.status.z ∨ z' = z) ∧ (lsb' = u.status.lsb ∨ lsb' = lsb)
    ∧ (nr' = u.status.nr ∨ nr' = nr) ∧ (onc' = u.status.onc ∨ onc' = onc)

/-- Two outcomes are the same error, or states that differ in flags alone. -/
inductive OutcomesApart (z lsb nr onc : Bool) : Except Err State → Except Err State → Prop where
  | ok {u u' : State} (h : FlagsApart z lsb nr onc u u') : OutcomesApart z lsb nr onc (.ok u) (.ok u')
  | error (e : Err) : OutcomesApart z lsb nr onc (.error e) (.error e)

/-- The second result is a next state wherever the first is, and the two differ in flags alone. -/
def ResultsApart (z lsb nr onc : Bool) (r r' : Result) : Prop :=
  ∀ t, r = .next t → ∃ t', r' = .next t' ∧ FlagsApart z lsb nr onc t t'

section
variable {z lsb nr onc : Bool} {s t : State}

/-- A computation that both runs make has one answer in both. -/
theorem OutcomesApart.bind {α : Type} (o : Except Err α) {g g' : α → Except Err State}
    (h : ∀ a, OutcomesApart z lsb nr onc (g a) (g' a)) :
    OutcomesApart z lsb nr onc (o >>= g) (o >>= g') := by
  cases o with
  | ok a => exact h a
  | error e => exact .error e

theorem FlagsApart.complete {u u' : State} (h : FlagsApart z lsb nr onc u u') :
    FlagsApart z lsb nr onc u.complete u'.complete := by
  obtain ⟨z', lsb', nr', onc', rfl, hs⟩ := h
  exact ⟨z', lsb', nr', onc', rfl, hs⟩

theorem flagsApart_raiseError (e : Err) :
    FlagsApart z lsb nr onc (s.raiseError e) ((withFlags s z lsb nr onc).raiseError e) :=
  ⟨z, lsb, nr, onc, rfl, .inr rfl, .inr rfl, .inr rfl, .inr rfl⟩

theorem finish_apart {o o' : Except Err State} (h : OutcomesApart z lsb nr onc o o') :
    ResultsApart z lsb nr onc (finish s o) (finish (withFlags s z lsb nr onc) o') := by
  intro t ht
  cases h with
  | ok h =>
    cases ht
    exact ⟨_, rfl, h.complete⟩
  | error e =>
    cases ht
    exact ⟨_, rfl, flagsApart_raiseError e⟩

/-! ### The updates -/

theorem flagsApart_refl : FlagsApart z lsb nr onc s (withFlags s z lsb nr onc) :=
  ⟨z, lsb, nr, onc, rfl, .inr rfl, .inr rfl, .inr rfl, .inr rfl⟩

theorem flagsApart_putF (rd : FIdx) (v : Nat) :
    FlagsApart z lsb nr onc (s.putF rd v) ((withFlags s z lsb nr onc).putF rd v) :=
  ⟨_, _, nr, onc, rfl, .inl rfl, .inl rfl, .inr rfl, .inr rfl⟩

theorem flagsApart_putK (rd : KIdx) (v : Nat) :
    FlagsApart z lsb nr onc (s.putK rd v) ((withFlags s z lsb nr onc).putK rd v) :=
  ⟨_, _, nr, onc, rfl, .inl rfl, .inl rfl, .inr rfl, .inr rfl⟩

theorem flagsApart_putP (rd : PIdx) (pt : Point) :
    FlagsApart z lsb nr onc (s.putP rd pt) ((withFlags s z lsb nr onc).putP rd pt) :=
  ⟨_, _, nr, onc, rfl, .inl rfl, .inl rfl, .inr rfl, .inr rfl⟩

theorem flagsApart_putRoot (rd : FIdx) (r : Option Nat) :
    FlagsApart z lsb nr onc (s.putRoot rd r) ((withFlags s z lsb nr onc).putRoot rd r) := by
  cases r with
  | none => exact ⟨z, lsb, true, onc, rfl, .inr rfl, .inr rfl, .inl rfl, .inr rfl⟩
  | some v => exact ⟨_, _, false, onc, rfl, .inl rfl, .inl rfl, .inl rfl, .inr rfl⟩

theorem flagsApart_setZ (b : Bool) :
    FlagsApart z lsb nr onc (s.setZ b) ((withFlags s z lsb nr onc).setZ b) :=
  ⟨b, lsb, nr, onc, rfl, .inl rfl, .inr rfl, .inr rfl, .inr rfl⟩

theorem flagsApart_setONC (b : Bool) :
    FlagsApart z lsb nr onc (s.setONC b) ((withFlags s z lsb nr onc).setONC b) :=
  ⟨z, lsb, nr, b, rfl, .inr rfl, .inr rfl, .inr rfl, .inl rfl⟩

theorem flagsApart_commitField (c : FieldCfg) :
    FlagsApart z lsb nr onc (s.commitField c) ((withFlags s z lsb nr onc).commitField c) :=
  ⟨z, lsb, nr, onc, rfl, .inr rfl, .inr rfl, .inr rfl, .inr rfl⟩

theorem flagsApart_commitCurve (e : CurveCfg) :
    FlagsApart z lsb nr onc (s.commitCurve e) ((withFlags s z lsb nr onc).commitCurve e) :=
  ⟨z, lsb, nr, onc, rfl, .inr rfl, .inr rfl, .inr rfl, .inr rfl⟩

/-! ### The shapes of the commands -/

theorem binaryF_apart {op : FieldCfg → Nat → Nat → Except Err Nat} {rd rs1 rs2 : FIdx} :
    ResultsApart z lsb nr onc (binaryF op rd rs1 rs2 s) (binaryF op rd rs1 rs2 (withFlags s z lsb nr onc)) :=
  finish_apart <| .bind (needField s) fun _ => .bind (srcF s rs1 true) fun a => .bind (srcF s rs2 true) fun b =>
    .bind (op s.field a b) fun r => .ok (flagsApart_putF rd r)

theorem unaryF_apart {op : FieldCfg → Nat → Except Err Nat} {nc : Bool} {rd rs1 : FIdx} :
    ResultsApart z lsb nr onc (unaryF op nc rd rs1 s) (unaryF op nc rd rs1 (withFlags s z lsb nr onc)) :=
  finish_apart <| .bind (needField s) fun _ => .bind (srcF s rs1 nc) fun a =>
    .bind (op s.field a) fun r => .ok (flagsApart_putF rd r)

theorem unaryP_apart {op : FieldCfg → CurveCfg → Point → Except Err Point} {rd rs1 : PIdx} :
    ResultsApart z lsb nr onc (unaryP op rd rs1 s) (unaryP op rd rs1 (withFlags s z lsb nr onc)) :=
  finish_apart <| .bind (needCurve s) fun _ => .bind (srcP s rs1) fun a =>
    .bind (op s.field s.curve a) fun r => .ok (flagsApart_putP rd r)

theorem scalarMul_apart {op : FieldCfg → CurveCfg → Point → Nat → Except Err Point} {rd rs1 : PIdx} {rs2 : KIdx} :
    ResultsApart z lsb nr onc (scalarMul op rd rs1 rs2 s)
      (scalarMul op rd rs1 rs2 (withFlags s z lsb nr onc)) :=
  finish_apart <| .bind (needCurve s) fun _ => .bind (srcP s rs1) fun a => .bind (srcK s rs2) fun k =>
    .bind (op s.field s.curve a k) fun r => .ok (flagsApart_putP rd r)

theorem getCoord_apart {sel : Nat → Nat → Nat} {rd : FIdx} {rs1 : PIdx} :
    ResultsApart z lsb nr onc (getCoord sel rd rs1 s) (getCoord sel rd rs1 (withFlags s z lsb nr onc)) := by
  refine finish_apart <| .bind (needCurve s) fun _ => .bind (srcP s rs1) fun pt => ?_
  cases pt with
  | infinity => exact .error .identityCoord
  | affine x y => exact .ok (flagsApart_putF rd (sel x y))

theorem ite_apart {p : Prop} [Decidable p] {o₁ o₂ o₁' o₂' : Except Err State}
    (h₁ : OutcomesApart z lsb nr onc o₁ o₁') (h₂ : OutcomesApart z lsb nr onc o₂ o₂') :
    OutcomesApart z lsb nr onc (if p then o₁ else o₂) (if p then o₁' else o₂') := by
  split
  · exact h₁
  · exact h₂

theorem cfgfOutcome_apart :
    OutcomesApart z lsb nr onc (cfgfOutcome s) (cfgfOutcome (withFlags s z lsb nr onc)) := by
  have hs : (withFlags s z lsb nr onc).staging = s.staging := rfl
  unfold cfgfOutcome
  rw [hs]
  cases s.staging.fkind with
  | prime => exact ite_apart (.ok (flagsApart_commitField _)) (.error .invalidParameter)
  | binary => exact ite_apart (.ok (flagsApart_commitField _)) (.error .invalidParameter)

theorem cfgcOutcome_apart (form : CurveForm) (rs1 rs2 : FIdx) :
    OutcomesApart z lsb nr onc (cfgcOutcome form rs1 rs2 s)
      (cfgcOutcome form rs1 rs2 (withFlags s z lsb nr onc)) :=
  .bind (needField s) fun _ => .bind (srcF s rs1 true) fun _ => .bind (cfgcSecond s form rs2) fun _ =>
    ite_apart (.error .unsupported) (ite_apart (.ok (flagsApart_commitCurve _)) (.error .invalidCurveParameters))

/-- Each command runs on both states as one computation, and then updates each. -/
theorem exec_apart (i : Instr) :
    ResultsApart z lsb nr onc (exec i s) (exec i (withFlags s z lsb nr onc)) := by
  cases i with
  | nop => exact finish_apart (s := s) (.ok flagsApart_refl)
  | cfgf => exact finish_apart cfgfOutcome_apart
  | cfgc form rs1 rs2 => exact finish_apart (cfgcOutcome_apart form rs1 rs2)
  | fadd | fsub | fmul | fdiv | mmul =>
    simp only [exec_fadd, exec_fsub, exec_fmul, exec_fdiv, exec_mmul]
    exact binaryF_apart
  | finv | fneg | fmov | fred | mtom | mfrom =>
    simp only [exec_finv, exec_fneg, exec_fmov, exec_fred, exec_mtom, exec_mfrom]
    exact unaryF_apart
  | fpow rd rs1 rs2 neg =>
    exact finish_apart <| .bind (needField s) fun _ => .bind (srcF s rs1 true) fun a =>
      .bind (srcK s rs2) fun e => .bind (fpow s.field a e neg) fun r => .ok (flagsApart_putF rd r)
  | fsqrt rd rs1 =>
    exact finish_apart <| .bind (needField s) fun _ => .bind (srcF s rs1 true) fun a =>
      .bind (fsqrt s.field a) fun r => .ok (flagsApart_putRoot rd r)
  | fldi rd imm => exact finish_apart <| .bind (needField s) fun _ => .ok (flagsApart_putF rd _)
  | fcmp rs1 rs2 =>
    exact finish_apart <| .bind (needField s) fun _ => .bind (srcF s rs1 true) fun a =>
      .bind (srcF s rs2 true) fun b => .ok (flagsApart_setZ _)
  | pset rd rs1 rs2 =>
    exact finish_apart <| .bind (needCurve s) fun _ => .bind (srcF s rs1 true) fun x =>
      .bind (srcF s rs2 true) fun y => .bind (chk s.field s.curve (.affine x y)) fun pt => .ok (flagsApart_putP rd pt)
  | pinf rd =>
    exact finish_apart <| .bind (needCurve s) fun _ => .bind (chk s.field s.curve (ident s.curve)) fun pt =>
      .ok (flagsApart_putP rd pt)
  | pgetx | pgety => exact getCoord_apart
  | pmov | pneg | pdbl =>
    simp only [exec_pmov, exec_pneg, exec_pdbl]
    exact unaryP_apart
  | padd rd rs1 rs2 =>
    exact finish_apart <| .bind (needCurve s) fun _ => .bind (srcP s rs1) fun a => .bind (srcP s rs2) fun b =>
      .bind (paddChk s.field s.curve a b) fun r => .ok (flagsApart_putP rd r)
  | ponc rs1 =>
    exact finish_apart <| .bind (needCurve s) fun _ => .bind (srcP s rs1) fun pt => .ok (flagsApart_setONC _)
  | pisinf rs1 =>
    exact finish_apart <| .bind (needCurve s) fun _ => .bind (srcP s rs1) fun pt => .ok (flagsApart_setZ _)
  | psmul | psmulda | psmulml => exact scalarMul_apart
  | kldi rd imm => exact finish_apart (s := s) (.ok (flagsApart_putK rd _))
  | kfromf rd rs1 =>
    exact finish_apart <| .bind (needField s) fun _ => .bind (srcF s rs1 false) fun v => .ok (flagsApart_putK rd v)
  | ffromk rd rs1 =>
    exact finish_apart <| .bind (needField s) fun _ => .bind (srcK s rs1) fun v => .ok (flagsApart_putF rd _)

end

/-- Settles O58, by the pair of runs of each command (`exec_apart`). -/
theorem noCommandReadsAFlag : Obligations.NoCommandReadsAFlag := by
  intro s t i z lsb nr onc ht
  obtain ⟨t', ht', z', lsb', nr', onc', rfl, hs⟩ := exec_apart (z := z) (lsb := lsb) (nr := nr) (onc := onc) i t ht
  exact ⟨z', lsb', nr', onc', ht', hs⟩

end Sys2Proof.Machine
end

section
/-! The order in which a command meets its errors: the first operand that cannot be read decides. -/

namespace Sys2Proof.Machine

open Sys2Proof.Stated

variable {s t u : State} {i : Instr} {ops : List Operand}

/-! ### Reading operands in order -/

/-- The outcome `o` ends with the code of the first operand of `ops` that cannot be read, if there is one. -/
def FailsFirst (s : State) (ops : List Operand) (o : Except Err State) : Prop :=
  ∀ code, ops.findSome? (operandError s) = some code → ∃ e, o = .error e ∧ e.code.toNat = code

/-- The read `x` answers the error of the operand `o`, or a value when there is none. -/
def Reads {α : Type} (s : State) (o : Operand) (x : Except Err α) : Prop :=
  (∃ v, x = .ok v ∧ operandError s o = none) ∨ ∃ e, x = .error e ∧ operandError s o = some e.code.toNat

theorem reads_srcF (s : State) (r : FIdx) (nc : Bool) : Reads s (.f r nc) (srcF s r nc) := by
  cases ht : (s.f r).tag with
  | empty => exact .inr ⟨.unwritten, by simp [srcF, ht], by simp [operandError, ht, Err.code]⟩
  | stale => exact .inr ⟨.typeMismatch, by simp [srcF, ht], by simp [operandError, ht, Err.code]⟩
  | valid =>
    by_cases hc : nc = true ∧ canon s.field (s.f r).v.toNat = false
    · exact .inr ⟨.nonCanonical, by simp [srcF, ht, hc], by simp [operandError, ht, hc, Err.code]⟩
    · refine .inl ⟨(s.f r).v.toNat, ?_, by simp only [operandError, ht, if_neg hc]⟩
      simpa [srcF, ht] using hc

theorem reads_srcP (s : State) (r : PIdx) : Reads s (.p r) (srcP s r) := by
  cases ht : (s.p r).tag with
  | empty => exact .inr ⟨.unwritten, by simp [srcP, ht], by simp [operandError, ht, Err.code]⟩
  | stale => exact .inr ⟨.curveMismatch, by simp [srcP, ht], by simp [operandError, ht, Err.code]⟩
  | valid => exact .inl ⟨(s.p r).toPoint, srcP_holds ⟨ht, rfl⟩, by simp [operandError, ht]⟩

theorem reads_srcK (s : State) (r : KIdx) : Reads s (.k r) (srcK s r) := by
  cases ht : (s.k r).tag with
  | empty => exact .inr ⟨.unwritten, by simp [srcK, ht], by simp [operandError, ht, Err.code]⟩
  | valid => exact .inl ⟨(s.k r).v.toNat, srcK_holds ⟨ht, rfl⟩, by simp [operandError, ht]⟩

theorem FailsFirst.nil {o : Except Err State} : FailsFirst s [] o := fun _ h => by cases h

theorem FailsFirst.cons {α : Type} {o : Operand} {x : Except Err α} {g : α → Except Err State}
    (hx : Reads s o x) (hg : ∀ v, FailsFirst s ops (g v)) : FailsFirst s (o :: ops) (x >>= g) := by
  intro code hc
  obtain ⟨v, rfl, ho⟩ | ⟨e, rfl, ho⟩ := hx
  · rw [List.findSome?_cons, ho] at hc
    exact hg v code hc
  · rw [List.findSome?_cons, ho] at hc
    cases hc
    exact ⟨e, rfl, rfl⟩

theorem FailsFirst.field {g : Unit → Except Err State} (hv : s.field.valid = true)
    (hg : FailsFirst s ops (g ())) : FailsFirst s ops (needField s >>= g) := by
  rwa [needField_valid hv]

theorem FailsFirst.curve {g : Unit → Except Err State} (hv : s.curve.valid = true)
    (hg : FailsFirst s ops (g ())) : FailsFirst s ops (needCurve s >>= g) := by
  rwa [needCurve_valid hv]

/-! ### The commands -/

/-- The result `r` is that of a command whose first bad operand among `ops` decides its error. -/
def EndsWithFirst (s : State) (ops : List Operand) (r : Result) : Prop :=
  ∃ o, r = finish s o ∧ FailsFirst s ops o

theorem binaryF_endsWithFirst {op : FieldCfg → Nat → Nat → Except Err Nat} {rd rs1 rs2 : FIdx}
    (hv : s.field.valid = true) :
    EndsWithFirst s [.f rs1 true, .f rs2 true] (binaryF op rd rs1 rs2 s) :=
  ⟨_, rfl, .field hv <| .cons (reads_srcF ..) fun _ => .cons (reads_srcF ..) fun _ => .nil⟩

theorem unaryF_endsWithFirst {op : FieldCfg → Nat → Except Err Nat} {nc : Bool} {rd rs1 : FIdx}
    (hv : s.field.valid = true) : EndsWithFirst s [.f rs1 nc] (unaryF op nc rd rs1 s) :=
  ⟨_, rfl, .field hv <| .cons (reads_srcF ..) fun _ => .nil⟩

theorem unaryP_endsWithFirst {op : FieldCfg → CurveCfg → Point → Except Err Point} {rd rs1 : PIdx}
    (hv : s.curve.valid = true) : EndsWithFirst s [.p rs1] (unaryP op rd rs1 s) :=
  ⟨_, rfl, .curve hv <| .cons (reads_srcP ..) fun _ => .nil⟩

theorem scalarMul_endsWithFirst {op : FieldCfg → CurveCfg → Point → Nat → Except Err Point} {rd rs1 : PIdx}
    {rs2 : KIdx} (hv : s.curve.valid = true) :
    EndsWithFirst s [.p rs1, .k rs2] (scalarMul op rd rs1 rs2 s) :=
  ⟨_, rfl, .curve hv <| .cons (reads_srcP ..) fun _ => .cons (reads_srcK ..) fun _ => .nil⟩

theorem getCoord_endsWithFirst {sel : Nat → Nat → Nat} {rd : FIdx} {rs1 : PIdx}
    (hv : s.curve.valid = true) : EndsWithFirst s [.p rs1] (getCoord sel rd rs1 s) :=
  ⟨_, rfl, .curve hv <| .cons (reads_srcP ..) fun _ => .nil⟩

theorem execCfgc_endsWithFirst {form : CurveForm} {rs1 rs2 : FIdx} (hv : s.field.valid = true) :
    EndsWithFirst s (operands (.cfgc form rs1 rs2)) (execCfgc form rs1 rs2 s) := by
  cases form with
  | edwards => exact ⟨_, rfl, .field hv <| .cons (reads_srcF ..) fun _ => .nil⟩
  | weierstrass | montgomery =>
    exact ⟨_, rfl, .field hv <| .cons (reads_srcF ..) fun _ => .cons (reads_srcF ..) fun _ => .nil⟩

theorem exec_endsWithFirst (hc : Configured s i) : EndsWithFirst s (operands i) (exec i s) := by
  obtain ⟨hf, hp⟩ := hc
  cases i with
  | nop => exact ⟨_, exec_nop s, .nil⟩
  | cfgf => exact ⟨_, exec_cfgf s, .nil⟩
  | kldi rd imm => exact ⟨_, exec_kldi rd imm s, .nil⟩
  | cfgc => exact execCfgc_endsWithFirst (hf rfl)
  | fadd | fsub | fmul | fdiv | mmul =>
    simp only [exec_fadd, exec_fsub, exec_fmul, exec_fdiv, exec_mmul]
    exact binaryF_endsWithFirst (hf rfl)
  | finv | fneg | fmov | fred | mtom | mfrom =>
    simp only [exec_finv, exec_fneg, exec_fmov, exec_fred, exec_mtom, exec_mfrom]
    exact unaryF_endsWithFirst (hf rfl)
  | fsqrt | kfromf => exact ⟨_, rfl, .field (hf rfl) <| .cons (reads_srcF ..) fun _ => .nil⟩
  | fpow =>
    exact ⟨_, rfl, .field (hf rfl) <| .cons (reads_srcF ..) fun _ => .cons (reads_srcK ..) fun _ => .nil⟩
  | fldi => exact ⟨_, rfl, .field (hf rfl) <| .nil⟩
  | fcmp =>
    exact ⟨_, rfl, .field (hf rfl) <| .cons (reads_srcF ..) fun _ => .cons (reads_srcF ..) fun _ => .nil⟩
  | ffromk => exact ⟨_, rfl, .field (hf rfl) <| .cons (reads_srcK ..) fun _ => .nil⟩
  | pset =>
    exact ⟨_, rfl, .curve (hp rfl) <| .cons (reads_srcF ..) fun _ => .cons (reads_srcF ..) fun _ => .nil⟩
  | pinf => exact ⟨_, rfl, .curve (hp rfl) <| .nil⟩
  | pgetx | pgety => exact getCoord_endsWithFirst (hp rfl)
  | pmov | pneg | pdbl =>
    simp only [exec_pmov, exec_pneg, exec_pdbl]
    exact unaryP_endsWithFirst (hp rfl)
  | padd =>
    exact ⟨_, rfl, .curve (hp rfl) <| .cons (reads_srcP ..) fun _ => .cons (reads_srcP ..) fun _ => .nil⟩
  | ponc | pisinf => exact ⟨_, rfl, .curve (hp rfl) <| .cons (reads_srcP ..) fun _ => .nil⟩
  | psmul | psmulda | psmulml => exact scalarMul_endsWithFirst (hp rfl)

/-- Settles O53, by the reads of each command in their order (`exec_endsWithFirst`). -/
theorem firstOperandErrorDecides : Obligations.FirstOperandErrorDecides := by
  intro s i pre post o code hc hops hpre ho
  obtain ⟨out, hout, hfirst⟩ := exec_endsWithFirst hc
  have hfind : (operands i).findSome? (operandError s) = some code := by
    rw [hops, List.findSome?_append, List.findSome?_eq_none_iff.mpr hpre, List.findSome?_cons, ho]
    rfl
  obtain ⟨e, rfl, rfl⟩ := hfirst code hfind
  exact ⟨_, hout, raises_raiseError s e⟩

/-! ### After a change of the field -/

/-- CFGF that leaves ERR clear has committed a field. -/
theorem exec_cfgf_of_err_clear (h : exec .cfgf s = .next t) (he : t.status.err = false) :
    ∃ c : FieldCfg, c.valid = true ∧ t = (s.commitField c).complete := by
  obtain ⟨u, hu, rfl⟩ | ⟨e, -, rfl⟩ := finish_next h
  · obtain ⟨c, rfl, hv, -⟩ := cfgfOutcome_ok hu
    exact ⟨c, hv, rfl⟩
  · cases he

/-- A command needs one configuration alone (60_exceptions.md R261). -/
theorem needsCurve_of_needsField (h : needsField i = true) : needsCurve i = false := by
  revert h
  cases i <;> simp [needsField, needsCurve]

/-- Settles O26: CFGF makes the register STALE, and it is the first operand read. -/
theorem reconfigurationMakesOperandsStale : Obligations.ReconfigurationMakesOperandsStale := by
  intro s t i r nc post ht he hn hops hr
  obtain ⟨c, hv, rfl⟩ := exec_cfgf_of_err_clear ht he
  have hcfg : Configured (s.commitField c).complete i :=
    ⟨fun _ => hv, fun hp => by simp [needsCurve_of_needsField hn] at hp⟩
  have hstale : operandError (s.commitField c).complete (.f r nc) = some 4 := by
    simp [operandError, hr, Tag.toStale]
  exact firstOperandErrorDecides _ i [] post _ 4 hcfg hops (by simp) hstale

end Sys2Proof.Machine
end

section
/-! The port: which turns stop the machine, and what a write does at every offset. -/

namespace Sys2Proof.Machine

open Sys2Proof.Stated

variable {s t u : State}

/-! ### Turns that end in a next state -/

/-- Settles O6: an illegal word ends with the error latch of IllegalCommand. -/
theorem illegalWordRaisesIllegalCommand : Obligations.IllegalWordRaisesIllegalCommand := by
  intro s e draw hb hd
  rw [step_withEngine_busy hb]
  exact ⟨_, completeCommand_of_illegal hd, raises_raiseError _ .illegalCommand⟩

theorem completeCommand_next (s : State) : ∃ t, completeCommand s = .next t :=
  (completeCommand_succeeds_or_raised s).imp fun _ h => h.1

theorem engineStep_next (draw : Bool) (s : State) : ∃ t, engineStep draw s = .next t := by
  cases hb : s.status.busy with
  | true => exact (engineStep_busy hb draw).symm ▸ completeCommand_next _
  | false => exact ⟨s, engineStep_idle hb draw⟩

theorem freeStep_next (s : State) : ∃ t, freeStep s = .next t := by
  unfold freeStep
  split
  · exact engineStep_next _ _
  · exact ⟨s, rfl⟩

theorem accepts_eq_false_iff (width : BusWidth) (off : Offset) :
    accepts width off = false ↔ width ≠ .w32 ∨ off.toNat % 4 ≠ 0 := by
  simp [accepts, imp_iff_not_or]

/-- An access that the port refuses: its width is not 32 bits, or its offset is no multiple of 4 (20_memory.md R72). -/
def Refused (a : Access) : Prop :=
  (∃ width off, a = .read width off ∧ (width ≠ .w32 ∨ off.toNat % 4 ≠ 0))
    ∨ ∃ width off data, a = .write width off data ∧ (width ≠ .w32 ∨ off.toNat % 4 ≠ 0)

/-- The port refuses an access, or answers a next state. -/
theorem hostAccess_cases (a : Access) (s : State) :
    (Refused a ∧ hostAccess a s = .fault (.busError a)) ∨ (¬Refused a ∧ ∃ t, hostAccess a s = .next t) := by
  cases a with
  | read width off =>
    have hr : Refused (.read width off) ↔ accepts width off = false := by
      simp [Refused, accepts_eq_false_iff]
    cases ha : accepts width off <;> simp [hostAccess, hr, ha]
  | write width off data =>
    have hr : Refused (.write width off data) ↔ accepts width off = false := by
      simp [Refused, accepts_eq_false_iff]
    cases ha : accepts width off <;> simp [hostAccess, hr, ha]

/-- A step stops the machine on a refused access of the host, and else answers a next state. -/
theorem step_cases (s : State) :
    (∃ a rest, s.schedule = .host a :: rest ∧ Refused a ∧ step s = .fault (.busError a))
    ∨ ((∀ a rest, s.schedule = .host a :: rest → ¬Refused a) ∧ ∃ t, step s = .next t) := by
  cases hs : s.schedule with
  | nil =>
    rw [step_of_schedule_nil hs]
    exact .inr ⟨by simp, freeStep_next s⟩
  | cons x rest =>
    rw [step_turn hs]
    cases x with
    | host a =>
      obtain ⟨hr, hf⟩ | ⟨hr, hn⟩ := hostAccess_cases a { s with schedule := rest }
      · exact .inl ⟨a, rest, rfl, hr, hf⟩
      · refine .inr ⟨fun a' rest' h => ?_, hn⟩
        cases h
        exact hr
    | engine draw => exact .inr ⟨by simp, engineStep_next _ _⟩
    | working => exact .inr ⟨by simp, _, rfl⟩
    | hwReset => exact .inr ⟨by simp, _, rfl⟩

/-- Settles O8, by the two ways in which a step ends (`step_cases`). -/
theorem onlyRefusedAccessesStopTheMachine : Obligations.OnlyRefusedAccessesStopTheMachine := by
  intro s
  obtain ⟨a, rest, hs, hr, hf⟩ | ⟨hn, t, ht⟩ := step_cases s
  · refine ⟨fun r => ⟨fun h => ?_, ?_⟩, fun r h => nomatch hf.symm.trans h⟩
    · cases hf.symm.trans h
      exact ⟨a, rest, hs, rfl, hr⟩
    · rintro ⟨a', rest', hs', rfl, -⟩
      cases hs.symm.trans hs'
      exact hf
  · refine ⟨fun r => ⟨fun h => (nomatch ht.symm.trans h), ?_⟩, fun r h => nomatch ht.symm.trans h⟩
    rintro ⟨a, rest, hs, -, hr⟩
    exact absurd hr (hn a rest hs)

/-! ### Writes -/

theorem step_withAccess (s : State) (a : Access) : step (withAccess s a) = hostAccess a s := rfl

theorem step_withAccess_write (s : State) {off : Offset} (h : off.toNat % 4 = 0) (data : BusWord) :
    step (withAccess s (.write .w32 off data)) = .next { busWrite s off data with readData := none } :=
  (step_withAccess s _).trans (hostAccess_write h data)

theorem slotAt_cmd : slotAt 0x008 = .cmd := rfl
theorem slotAt_ctrl : slotAt 0x004 = .ctrl := rfl
theorem slotAt_status : slotAt 0x00C = .status := rfl
theorem slotAt_irqen : slotAt 0x010 = .irqen := rfl

/-- Settles O7: the write is the acceptance of a command, or the drop. -/
theorem cmdWriteIssuesOrIsDropped : Obligations.CmdWriteIssuesOrIsDropped := by
  intro s w
  refine ⟨fun hb => ?_, fun hb => ?_⟩
  · rw [step_withAccess_write s rfl, busWrite_of_idle hb, slotAt_cmd]
    rfl
  · rw [step_withAccess_write s rfl, busWrite_of_drops hb rfl]
    rfl

/-- The slots whose writes take effect also while BUSY = 1 (20_memory.md R80). -/
def Slot.alwaysAccepted : Slot → Bool
  | .ctrl | .status | .irqen => true
  | _ => false

/-- A write to a read-only or reserved slot is ignored (20_memory.md R73). -/
theorem writeSlot_of_ignored {sl : Slot} (hd : sl.dropsWhenBusy = false) (ha : sl.alwaysAccepted = false)
    (data : BusWord) : writeSlot s data sl = s := by
  cases sl with
  | cmd | cfgFkind | cfgM | cfgMrr | f | k | cfgMod => cases hd
  | ctrl | status | irqen => cases ha
  | id | cmdcnt | errcmd | params | cfgstat | ftags | ptags | ktags | px | py | pinf | pmod | ca | cb | reserved => rfl

theorem controlSlot_of_ge {o : Nat} (h : 0x3C ≤ o) : controlSlot o = .reserved := by
  unfold controlSlot
  split
  iterate 15 · omega
  · rfl

theorem dropsWhenBusy_controlSlot (o : Nat) :
    (controlSlot o).dropsWhenBusy = true ↔ o = 0x08 ∨ o = 0x20 ∨ o = 0x24 ∨ o = 0x28 := by
  by_cases h : o < 0x3C
  · revert o
    decide
  · rw [controlSlot_of_ge (by omega)]
    exact iff_of_false Bool.noConfusion (by omega)

theorem alwaysAccepted_controlSlot (o : Nat) :
    (controlSlot o).alwaysAccepted = true ↔ AlwaysAccepted o := by
  by_cases h : o < 0x3C
  · revert o
    decide
  · rw [controlSlot_of_ge (by omega)]
    exact iff_of_false Bool.noConfusion (by omega)

/-- What an offset names, by the regions of the address map (20_memory.md R71). -/
inductive Region (o : Nat) : Slot → Prop where
  | control (h : o < 0x1000) : Region o (controlSlot o)
  | f (i : FIdx) (w : Nat) (h : 0x1000 ≤ o ∧ o < 0x1400 ∧ o % 0x40 < 0x20) : Region o (.f i w)
  | point (j : PIdx) (h : 0x2000 ≤ o ∧ o < 0x2800) : Region o (pointSlot j (o % 0x100))
  | k (i : KIdx) (w : Nat) (h : 0x3000 ≤ o ∧ o < 0x3100 ∧ o % 0x40 < 0x20) : Region o (.k i w)
  | cfgMod (w : Nat) (h : 0x4000 ≤ o ∧ o < 0x4024) : Region o (.cfgMod w)
  | pmod (w : Nat) (h : 0x4100 ≤ o ∧ o < 0x4124) : Region o (.pmod w)
  | ca (w : Nat) (h : 0x4180 ≤ o ∧ o < 0x41A0) : Region o (.ca w)
  | cb (w : Nat) (h : 0x41C0 ≤ o ∧ o < 0x41E0) : Region o (.cb w)
  | reserved (h : 0x1000 ≤ o) (hd : ¬DropsWhenBusy o) : Region o .reserved

theorem Region.ite {o : Nat} {p : Prop} [Decidable p] {a b : Slot} (ha : p → Region o a) (hb : ¬p → Region o b) :
    Region o (if p then a else b) := by
  split
  · exact ha ‹_›
  · exact hb ‹_›

theorem region_slotAt (off : Offset) : Region off.toNat (slotAt off) := by
  have hnw : Config.nw = 8 := rfl
  refine .ite .control fun _ =>
    .ite (fun _ => .ite (fun _ => .f _ _ ?_) fun _ => .reserved ?_ ?_) fun _ =>
    .ite (fun _ => .reserved ?_ ?_) fun _ =>
    .ite (fun _ => .point _ ?_) fun _ =>
    .ite (fun _ => .reserved ?_ ?_) fun _ =>
    .ite (fun _ => .ite (fun _ => .k _ _ ?_) fun _ => .reserved ?_ ?_) fun _ =>
    .ite (fun _ => .reserved ?_ ?_) fun _ =>
    .ite (fun _ => .ite (fun _ => .cfgMod _ ?_) fun _ => .reserved ?_ ?_) fun _ =>
    .ite (fun _ => .reserved ?_ ?_) fun _ =>
    .ite (fun _ => .ite (fun _ => .pmod _ ?_) fun _ => .reserved ?_ ?_) fun _ =>
    .ite (fun _ => .ite (fun _ => .ca _ ?_) fun _ => .reserved ?_ ?_) fun _ =>
    .ite (fun _ => .ite (fun _ => .cb _ ?_) fun _ => .reserved ?_ ?_) fun _ => .reserved ?_ ?_
  all_goals omega

theorem dropsWhenBusy_pointSlot (j : PIdx) (r : Nat) : (pointSlot j r).dropsWhenBusy = false := by
  unfold pointSlot
  split_ifs <;> rfl

theorem alwaysAccepted_pointSlot (j : PIdx) (r : Nat) : (pointSlot j r).alwaysAccepted = false := by
  unfold pointSlot
  split_ifs <;> rfl

/-- The slots whose writes are dropped while busy are those of the listed offsets (20_memory.md R71, R80). -/
theorem Region.dropsWhenBusy {o : Nat} {sl : Slot} (h : Region o sl) :
    sl.dropsWhenBusy = true ↔ DropsWhenBusy o := by
  cases h with
  | control h => rw [dropsWhenBusy_controlSlot]; omega
  | f | k | cfgMod => exact iff_of_true rfl (by omega)
  | point j h => exact iff_of_false (by simp [dropsWhenBusy_pointSlot]) (by omega)
  | pmod | ca | cb => exact iff_of_false Bool.noConfusion (by omega)
  | reserved h hd => exact iff_of_false Bool.noConfusion hd

theorem Region.alwaysAccepted {o : Nat} {sl : Slot} (h : Region o sl) :
    sl.alwaysAccepted = true ↔ AlwaysAccepted o := by
  cases h with
  | control h => exact alwaysAccepted_controlSlot _
  | point j h => exact iff_of_false (by simp [alwaysAccepted_pointSlot]) (by omega)
  | f | k | cfgMod | pmod | ca | cb | reserved => exact iff_of_false Bool.noConfusion (by omega)

/-- A write outside the writable offsets is ignored (20_memory.md R73), while idle or busy. -/
theorem busWrite_of_ignored {off : Offset} (hd : ¬DropsWhenBusy off.toNat) (ha : ¬AlwaysAccepted off.toNat)
    (data : BusWord) : busWrite s off data = s := by
  rw [← (region_slotAt off).dropsWhenBusy, Bool.not_eq_true] at hd
  rw [← (region_slotAt off).alwaysAccepted, Bool.not_eq_true] at ha
  rw [busWrite_of_not_drops hd]
  exact writeSlot_of_ignored hd ha data

/-- Settles O9: by the slot of each offset. -/
theorem writesWhileBusy : Obligations.WritesWhileBusy := by
  intro s off data hb ho
  simp only [step_withAccess_write s ho]
  refine ⟨fun hd => ?_, ?_, ?_, ?_, ?_, fun hd ha => ?_⟩
  · rw [busWrite_of_drops hb ((region_slotAt off).dropsWhenBusy.mpr hd)]
    rfl
  · rintro rfl
    rw [busWrite_of_not_drops rfl, slotAt_status]
    rfl
  · rintro rfl
    rw [busWrite_of_not_drops rfl, slotAt_irqen]
    rfl
  · rintro rfl hr
    rw [busWrite_of_not_drops rfl, slotAt_ctrl]
    simp only [writeSlot, hr, if_true]
    rfl
  · rintro rfl hr
    rw [busWrite_of_not_drops rfl, slotAt_ctrl]
    simp only [writeSlot, hr, Bool.false_eq_true, if_false]
  · rw [busWrite_of_ignored hd ha]

/-! ### Offsets that read 0 -/

/-- The slots that read 0 always (20_memory.md R73, 10_state.md R48, R55). -/
def Slot.readsZero : Slot → Bool
  | .ctrl | .cmd | .reserved => true
  | _ => false

theorem readSlot_of_readsZero {sl : Slot} (h : sl.readsZero = true) : readSlot s sl = 0 := by
  cases sl with
  | ctrl | cmd | reserved => rfl
  | _ => cases h

/-- The offsets that the address map reserves, and those of CTRL and CMD (20_memory.md R71). -/
abbrev ReadsZero (off : Nat) : Prop :=
  off = 0x04 ∨ off = 0x08 ∨ (0x3C ≤ off ∧ off < 0x1000)
    ∨ (0x1000 ≤ off ∧ off < 0x1400 ∧ 0x20 ≤ off % 0x40)
    ∨ (0x1400 ≤ off ∧ off < 0x2000)
    ∨ (0x2000 ≤ off ∧ off < 0x2800
      ∧ ((0x20 ≤ off % 0x100 ∧ off % 0x100 < 0x40) ∨ (0x60 ≤ off % 0x100 ∧ off % 0x100 ≠ 0x80)))
    ∨ (0x2800 ≤ off ∧ off < 0x3000)
    ∨ (0x3000 ≤ off ∧ off < 0x3100 ∧ 0x20 ≤ off % 0x40)
    ∨ (0x3100 ≤ off ∧ off < 0x4000)
    ∨ (0x4024 ≤ off ∧ off < 0x4100)
    ∨ (0x4124 ≤ off ∧ off < 0x4180)
    ∨ (0x4180 ≤ off ∧ off < 0x4200 ∧ 0x20 ≤ off % 0x40)
    ∨ 0x4200 ≤ off

theorem readsZero_controlSlot {o : Nat} (h : o = 0x04 ∨ o = 0x08 ∨ 0x3C ≤ o) :
    (controlSlot o).readsZero = true := by
  obtain rfl | rfl | h := h
  · rfl
  · rfl
  · rw [controlSlot_of_ge h]
    rfl

theorem pointSlot_reserved (j : PIdx) {r : Nat} (h : (0x20 ≤ r ∧ r < 0x40) ∨ (0x60 ≤ r ∧ r ≠ 0x80)) :
    pointSlot j r = .reserved := by
  have hnw : Config.nw = 8 := rfl
  unfold pointSlot
  rw [if_neg (by omega), if_neg (by omega), if_neg (by omega)]

theorem Region.readsZero {o : Nat} {sl : Slot} (hr : Region o sl) (h : ReadsZero o) : sl.readsZero = true := by
  cases hr with
  | control => exact readsZero_controlSlot (by omega)
  | point j => rw [pointSlot_reserved j (by omega)]; rfl
  | f | k | cfgMod | pmod | ca | cb => omega
  | reserved => rfl

/-- Settles O11: the offsets that name no writable slot, and those that name a slot that reads 0. -/
theorem reservedAndReadOnlyOffsets : Obligations.ReservedAndReadOnlyOffsets := by
  intro s off data _
  exact ⟨fun hd ha => busWrite_of_ignored hd ha data,
    fun h => readSlot_of_readsZero ((region_slotAt off).readsZero h)⟩

end Sys2Proof.Machine
end

section
/-! The registers that the port shows: the staging registers, STATUS, IRQEN, and the views that have no storage. -/

namespace Sys2Proof.Machine

open Sys2Proof.Stated

variable {s t u : State}

/-! ### Words that pack digits -/

/-- Dividing by a power of the base and reducing reads one digit. -/
theorem ofDigits_div_pow_mod {b : Nat} (hb : 1 < b) {l : List Nat} (hl : ∀ x ∈ l, x < b) (i : Nat) :
    Nat.ofDigits b l / b ^ i % b = l.getD i 0 := by
  rw [Nat.ofDigits_div_pow_eq_ofDigits_drop i (by omega) l hl]
  rcases Nat.lt_or_ge i l.length with hi | hi
  · rw [List.drop_eq_getElem_cons hi, Nat.ofDigits_cons, Nat.add_mul_mod_self_left,
      Nat.mod_eq_of_lt (hl _ (List.getElem_mem hi)), List.getD_eq_getElem l 0 hi]
  · rw [List.drop_eq_nil_of_le hi, Nat.ofDigits_nil, Nat.zero_mod, List.getD_eq_default l 0 hi]

/-- The word whose bits are listed, the lowest first. -/
def bitsWord (l : List Bool) : BusWord := BitVec.ofNat 32 (Nat.ofDigits 2 (l.map Bool.toNat))

theorem getLsbD_bitsWord (l : List Bool) {i : Nat} (hi : i < 32) : (bitsWord l).getLsbD i = l.getD i false := by
  have hl : ∀ x ∈ l.map Bool.toNat, x < 2 := by
    intro x hx
    obtain ⟨b, -, rfl⟩ := List.mem_map.mp hx
    exact b.toNat_lt
  rw [bitsWord, BitVec.getLsbD_ofNat, Nat.testBit_eq_decide_div_mod_eq, ofDigits_div_pow_mod one_lt_two hl]
  rw [show (0 : Nat) = false.toNat from rfl, List.getD_map]
  cases l.getD i false <;> simp [hi]

/-! ### STATUS -/

theorem toNat_eq_bits (e : BitVec 4) :
    e.toNat = (e.getLsbD 0).toNat + 2 * (e.getLsbD 1).toNat + 4 * (e.getLsbD 2).toNat
      + 8 * (e.getLsbD 3).toNat := by
  revert e
  decide

theorem statusWord_eq_bitsWord (st : Status) :
    st.word = bitsWord
      [st.busy, st.done, st.err, st.ovf, false, false, false, false,
        st.errcode.getLsbD 0, st.errcode.getLsbD 1, st.errcode.getLsbD 2, st.errcode.getLsbD 3,
        false, false, false, false, st.z, st.lsb, st.nr, st.onc] := by
  simp only [Status.word, bitsWord, toNat_eq_bits, List.map, Nat.ofDigits_cons, Nat.ofDigits_nil, Bool.toNat_false]
  exact congrArg (BitVec.ofNat 32) (by ring)

theorem irqenWord_eq_bitsWord (q : IrqEn) : q.word = bitsWord [q.doneie, q.errie, q.ovfie] := by
  simp only [IrqEn.word, bitsWord, List.map, Nat.ofDigits_cons, Nat.ofDigits_nil]
  exact congrArg (BitVec.ofNat 32) (by ring)

theorem FieldKind.code_eq (k : FieldKind) : k.code = (decide (k = .binary)).toNat := by cases k <;> rfl

theorem CurveForm.code_eq (f : CurveForm) :
    f.code = (decide (f = .montgomery)).toNat + 2 * (decide (f = .edwards)).toNat := by cases f <;> rfl

theorem cfgstatWord_eq_bitsWord (s : State) :
    s.cfgstatWord = bitsWord
      [s.field.valid, decide (s.field.kind = .binary), false, false, s.curve.valid,
        decide (s.curve.form = .montgomery), decide (s.curve.form = .edwards)] := by
  simp only [State.cfgstatWord, bitsWord, FieldKind.code_eq, CurveForm.code_eq, List.map, Nat.ofDigits_cons,
    Nat.ofDigits_nil, Bool.toNat_false]
  exact congrArg (BitVec.ofNat 32) (by ring)

theorem busWrite_status (s : State) (data : BusWord) : busWrite s 0x00C data = s.clearStatus data :=
  busWrite_of_not_drops rfl data

theorem busWrite_irqen (s : State) (data : BusWord) :
    busWrite s 0x010 data = { s with irqen := ⟨data.getLsbD 0, data.getLsbD 1, data.getLsbD 2⟩ } :=
  busWrite_of_not_drops rfl data

/-- Settles O16: the bits of STATUS in their places, and the W1C write. -/
theorem statusRegister : Obligations.StatusRegister := by
  intro s data
  refine ⟨fun i hi => ?_, ?_, by decide⟩
  · show s.status.word.getLsbD i = _
    rw [statusWord_eq_bitsWord, getLsbD_bitsWord _ hi]
    interval_cases i <;> rfl
  · rw [busWrite_status]
    exact ⟨rfl, rfl, rfl, fun h => if_pos h, fun h => if_neg (by rw [h]; exact Bool.false_ne_true), rfl⟩

/-- Settles O17: IRQEN is a register of three bits, and the counters are not written. -/
theorem enableAndCounterRegisters : Obligations.EnableAndCounterRegisters := by
  intro s data
  refine ⟨by rw [busWrite_irqen], fun i hi => ?_, rfl, rfl, busWrite_of_not_drops rfl data,
    busWrite_of_not_drops rfl data, ?_, by decide, by decide, by decide⟩
  · rw [busWrite_irqen]
    show (IrqEn.word _).getLsbD i = _
    rw [irqenWord_eq_bitsWord, getLsbD_bitsWord _ hi]
    interval_cases i <;> rfl
  · rw [busWrite_status]
    rfl

/-- Settles O15: the two constants, whose slots are read-only. -/
theorem identificationRegisters : Obligations.IdentificationRegisters := by
  intro s data
  have hp : busRead s 0x01C = 0x48100100 := rfl
  rw [hp]
  exact ⟨rfl, rfl, by decide, by decide, by decide, by decide, busWrite_of_not_drops rfl data,
    busWrite_of_not_drops rfl data⟩

/-! ### The tag registers -/

theorem packTags_eq_ofDigits (codes : List Nat) : packTags codes = BitVec.ofNat 32 (Nat.ofDigits 4 codes) := by
  simp [packTags, Nat.ofDigits_eq_foldr]

theorem toNat_packTags {codes : List Nat} (hl : ∀ x ∈ codes, x < 4) (hn : codes.length ≤ 16) :
    (packTags codes).toNat = Nat.ofDigits 4 codes := by
  rw [packTags_eq_ofDigits, BitVec.toNat_ofNat]
  apply Nat.mod_eq_of_lt
  calc Nat.ofDigits 4 codes < 4 ^ codes.length := Nat.ofDigits_lt_base_pow_length (by decide) hl
    _ ≤ 4 ^ 16 := Nat.pow_le_pow_right (by decide) hn

theorem tagCode_lt (t : Tag) : t.code < 4 := by cases t <;> decide
theorem kTagCode_lt (t : KTag) : t.code < 4 := by cases t <;> decide
theorem tagCode_eq_tagNumber (t : Tag) : t.code = tagNumber t := by cases t <;> rfl
theorem kTagCode_eq_kTagNumber (t : KTag) : t.code = kTagNumber t := by cases t <;> rfl

/-- The packed codes of a file of at most 16 registers: each code in its place, and no bit above the last. -/
theorem packTags_file {α : Type} {n : Nat} (file : Vector α n) (code : α → Nat) (hn : n ≤ 16)
    (hc : ∀ r, code r < 4) :
    (∀ i : Fin n, (packTags (file.toList.map code)).toNat / 4 ^ i.val % 4 = code file[i])
      ∧ (packTags (file.toList.map code)).toNat < 4 ^ n := by
  have hl : ∀ x ∈ file.toList.map code, x < 4 := by
    intro x hx
    obtain ⟨r, -, rfl⟩ := List.mem_map.mp hx
    exact hc r
  rw [toNat_packTags hl (by simpa using hn)]
  constructor
  · intro i
    rw [ofDigits_div_pow_mod (by decide) hl, List.getD_eq_getElem _ _ (by simp)]
    simp
  · simpa using Nat.ofDigits_lt_base_pow_length (by decide : 1 < 4) hl

theorem busRead_ftags (s : State) : busRead s 0x030 = packTags (s.fregs.toList.map (fun r => r.tag.code)) := rfl
theorem busRead_ptags (s : State) : busRead s 0x034 = packTags (s.pregs.toList.map (fun r => r.tag.code)) := rfl
theorem busRead_ktags (s : State) : busRead s 0x038 = packTags (s.kregs.toList.map (fun r => r.tag.code)) := rfl

/-- Settles O18: each bit of CFGSTAT, and the digits of the tag registers in base 4. -/
theorem configurationAndTagViews : Obligations.ConfigurationAndTagViews := by
  intro s
  have hf := packTags_file s.fregs (fun r => r.tag.code) (by decide) fun r => tagCode_lt _
  have hp := packTags_file s.pregs (fun r => r.tag.code) (by decide) fun r => tagCode_lt _
  have hk := packTags_file s.kregs (fun r => r.tag.code) (by decide) fun r => kTagCode_lt _
  rw [busRead_ftags, busRead_ptags, busRead_ktags]
  refine ⟨fun i hi => ?_, fun i => (hf.1 i).trans (tagCode_eq_tagNumber _),
    fun j => (hp.1 j).trans (tagCode_eq_tagNumber _), fun k => (hk.1 k).trans (kTagCode_eq_kTagNumber _),
    hp.2, hk.2, fun data => ⟨busWrite_of_not_drops rfl data, busWrite_of_not_drops rfl data,
      busWrite_of_not_drops rfl data, busWrite_of_not_drops rfl data⟩, by decide, by decide, by decide, by decide⟩
  show s.cfgstatWord.getLsbD i = _
  rw [cfgstatWord_eq_bitsWord, getLsbD_bitsWord _ hi]
  interval_cases i <;> rfl

/-- Settles O20: the registers by the lemmas on the reset state, the rest is one closed fact. -/
theorem resetValues : Obligations.ResetValues := by
  exact ⟨f_reset, p_reset, k_reset, rfl, rfl, rfl, rfl, rfl, rfl, rfl, rfl, rfl, rfl, rfl, rfl, rfl, rfl, rfl⟩

/-! ### The staging registers -/

/-- The top word of a register of NBITS + 1 bits has one bit (10_state.md R45). -/
theorem getWord_setWord_top (v : WideWord) (data : BusWord) :
    getWord (setWord v Config.nw data) Config.nw = BitVec.ofNat 32 (data.toNat % 2) := by
  have hnw : Config.nw = 8 := rfl
  have hnb : Config.nbits = 256 := rfl
  apply BitVec.eq_of_getLsbD_eq
  intro i hi
  have hb : (data.toNat % 2).testBit i = (decide (i < 1) && data.getLsbD i) := Nat.testBit_mod_two_pow data.toNat 1 i
  rw [getWord, BitVec.getLsbD_extractLsb', getLsbD_setWord, BitVec.getLsbD_ofNat, hb]
  rcases Nat.eq_zero_or_pos i with rfl | hp
  · rfl
  · rw [if_neg (by omega), BitVec.getLsbD_of_ge v _ (by omega)]
    simp [hi, Nat.not_lt.mpr hp]

theorem getWord_setWord_modulus (v : WideWord) {w : Nat} (hw : w ≤ Config.nw) (data : BusWord) :
    getWord (setWord v w data) w = if w = Config.nw then BitVec.ofNat 32 (data.toNat % 2) else data := by
  have hnw : Config.nw = 8 := rfl
  have hnb : Config.nbits = 256 := rfl
  split
  · subst w
    exact getWord_setWord_top v data
  · exact getWord_setWord v w data (by omega)

theorem fieldKindCode_ofBit (data : BusWord) : (FieldKind.ofBit (data.getLsbD 0)).code = data.toNat % 2 := by
  rw [BitVec.getLsbD, Nat.testBit_zero]
  rcases Nat.mod_two_eq_zero_or_one data.toNat with h | h <;> rw [h] <;> rfl

theorem setWidth_setWidth_eq_ofNat (n : Nat) (data : BusWord) :
    (data.setWidth n).setWidth 32 = BitVec.ofNat 32 (data.toNat % 2 ^ n) := by
  apply BitVec.eq_of_toNat_eq
  rw [BitVec.toNat_setWidth, BitVec.toNat_setWidth, BitVec.toNat_ofNat]

/-- Settles O13: each staging register holds its implemented bits. -/
theorem stagingWritesReadBack : Obligations.StagingWritesReadBack := by
  intro s data hb
  refine ⟨fun w hw => ?_, ?_, ?_, ?_⟩
  · simp only [busWrite_of_idle hb, busRead, slotAt_cfgMod hw]
    refine ⟨getWord_setWord_modulus _ hw data, fun w' hw' hne => ?_, rfl⟩
    rw [slotAt_cfgMod hw']
    exact getWord_setWord_of_ne _ w w' data hne
  · simp only [busWrite_of_idle hb]
    exact ⟨congrArg (BitVec.ofNat 32) (fieldKindCode_ofBit data), rfl⟩
  · simp only [busWrite_of_idle hb]
    exact ⟨setWidth_setWidth_eq_ofNat 16 data, rfl⟩
  · simp only [busWrite_of_idle hb]
    exact ⟨setWidth_setWidth_eq_ofNat 8 data, rfl⟩

end Sys2Proof.Machine
end

section
/-! The results of CFGF, and of the two tests of a point. -/

namespace Sys2Proof.Machine

open Sys2Proof.Stated

variable {s t u : State}

/-! ### The checks of CFGF -/

/-- The candidates that CFGF accepts over a prime field (40_control.md R132). -/
theorem primeOk_iff {p rounds : Nat} {draw : Bool} :
    primeOk p rounds draw = true ↔
      3 ≤ p ∧ p % 2 = 1 ∧ p < 2 ^ Config.nbits ∧ (rounds = 0 ∨ Nat.Prime p ∨ draw = true) := by
  unfold primeOk
  split
  · exact iff_of_false Bool.false_ne_true (by omega)
  split
  · exact iff_of_false Bool.false_ne_true (by omega)
  split
  · exact iff_of_true rfl (by omega)
  · have hd : (draw || decide (Nat.Prime p)) = true ↔ Nat.Prime p ∨ draw = true := by simp [or_comm]
    rw [hd]
    rename_i hr
    exact ⟨fun h => ⟨by omega, by omega, by omega, .inr h⟩, fun ⟨_, _, _, h⟩ => h.resolve_left hr⟩

/-- The number of coefficients of a polynomial of degree m (40_control.md R133). -/
theorem popcount_eq_card {f m : Nat} (hb : f.testBit m = true) (hlt : f < 2 ^ (m + 1)) :
    popcount f = ((Finset.range (m + 1)).filter (fun i => f.testBit i = true)).card := by
  rw [popcount_eq_countP hb hlt, ← Nat.count_eq_card_filter_range, Nat.count]
  simp

theorem shiftRight_eq_zero_iff_lt {f n : Nat} : f >>> n = 0 ↔ f < 2 ^ n := by
  rw [Nat.shiftRight_eq_div_pow, Nat.div_eq_zero_iff_lt (Nat.two_pow_pos n)]

/-- The polynomials that CFGF accepts (40_control.md R133). -/
theorem polyOk_iff {f m : Nat} :
    polyOk f m = true ↔
      1 ≤ m ∧ m ≤ Config.nbits ∧ f.testBit m = true ∧ f < 2 ^ (m + 1)
        ∧ (1 < m → ((Finset.range (m + 1)).filter (fun i => f.testBit i = true)).card % 2 = 1) := by
  unfold polyOk
  split
  · exact iff_of_false Bool.false_ne_true (by omega)
  split
  · rename_i hb
    exact iff_of_false Bool.false_ne_true fun h => by simp [hb] at h
  split
  · rename_i hs
    exact iff_of_false Bool.false_ne_true fun h => hs (shiftRight_eq_zero_iff_lt.mpr h.2.2.2.1)
  rename_i hm hb hs
  have hb' : f.testBit m = true := by simpa using hb
  have hlt : f < 2 ^ (m + 1) := shiftRight_eq_zero_iff_lt.mp (by simpa using hs)
  rw [← popcount_eq_card hb' hlt]
  split
  · exact iff_of_false Bool.false_ne_true (by omega)
  · exact iff_of_true rfl ⟨by omega, by omega, hb', hlt, by omega⟩

/-! ### CFGF -/

theorem Tag.toStale_eq (x : Tag) : x.toStale = if x = .valid then .stale else x := by cases x <;> rfl

/-- What committing a field does (40_control.md R131). -/
theorem commitField_complete (s : State) (c : FieldCfg) :
    Succeeds s (s.commitField c).complete ∧ SameFlags s (s.commitField c).complete
      ∧ (s.commitField c).complete.field = c
      ∧ (s.commitField c).complete.curve = { s.curve with valid := false }
      ∧ StaleF s (s.commitField c).complete ∧ StaleP s (s.commitField c).complete
      ∧ SameK s (s.commitField c).complete :=
  ⟨succeeds_of_status rfl rfl rfl ⟨rfl, rfl, rfl, rfl, rfl, rfl, rfl, rfl, rfl⟩, flagOf_complete _, rfl, rfl,
    fun i => by simp [Tag.toStale_eq], fun j => by simp [Tag.toStale_eq], fun _ => rfl⟩

theorem exec_cfgf_ok {c : FieldCfg} (h : cfgfOutcome s = .ok (s.commitField c)) :
    ∃ t, exec .cfgf s = .next t ∧ Succeeds s t ∧ SameFlags s t ∧ t.field = c
      ∧ t.curve = { s.curve with valid := false } ∧ StaleF s t ∧ StaleP s t ∧ SameK s t :=
  ⟨_, by rw [exec_cfgf, h, finish_ok], commitField_complete s c⟩

theorem exec_cfgf_error (h : cfgfOutcome s = .error .invalidParameter) :
    ∃ t, exec .cfgf s = .next t ∧ Raises s t 1 :=
  ⟨_, by rw [exec_cfgf, h, finish_error], raises_raiseError s .invalidParameter⟩

/-- Settles O23: the candidates of the two clauses are those that `primeOk` accepts and refuses. -/
theorem cfgfPrimeField : Obligations.CfgfPrimeField := by
  rintro s p hk rfl
  constructor
  · rintro ⟨h3, ho, hlt, hd⟩
    have hmrr : s.staging.mrr = 0 → s.staging.mrr.toNat = 0 := fun h => by rw [h]; rfl
    have hok : primeOk s.staging.modulus.toNat s.staging.mrr.toNat s.mrDraw = true :=
      primeOk_iff.mpr ⟨h3, ho, hlt, hd.imp_left hmrr⟩
    exact exec_cfgf_ok (by simp only [cfgfOutcome, hk, hok, if_true])
  · intro hbad
    have hno : primeOk s.staging.modulus.toNat s.staging.mrr.toNat s.mrDraw ≠ true := by
      intro hok
      obtain ⟨h3, ho, hlt, hd⟩ := primeOk_iff.mp hok
      obtain h | h | h | ⟨hm, hp, hf⟩ := hbad
      · omega
      · omega
      · omega
      · obtain h | h | h := hd
        · exact hm (BitVec.eq_of_toNat_eq h)
        · exact hp h
        · simp [hf] at h
    exact exec_cfgf_error (by simp only [cfgfOutcome, hk, if_neg hno])

/-- Settles O24: the polynomials of the two clauses are those that `polyOk` accepts and refuses. -/
theorem cfgfBinaryField : Obligations.CfgfBinaryField := by
  rintro s f m hk rfl rfl
  refine ⟨fun hg => ?_, fun hb => ?_⟩
  · exact exec_cfgf_ok (by simp only [cfgfOutcome, hk, polyOk_iff.mpr hg, if_true])
  · exact exec_cfgf_error (by simp only [cfgfOutcome, hk, if_neg (mt polyOk_iff.mp hb)])

/-! ### PONC and PISINF -/

theorem exec_ponc_holds {rs1 : PIdx} {pt : Point} (hv : s.curve.valid = true) (hp : HoldsP s rs1 pt) :
    exec (.ponc rs1) s = .next (s.setONC (onCurve s.field s.curve pt)).complete := by
  show finish s (do needCurve s; let pt ← srcP s rs1; return s.setONC (onCurve s.field s.curve pt)) = _
  rw [needCurve_valid hv, srcP_holds hp]
  rfl

theorem exec_pisinf_holds {rs1 : PIdx} {pt : Point} (hv : s.curve.valid = true) (hp : HoldsP s rs1 pt) :
    exec (.pisinf rs1) s = .next (s.setZ (isId s.curve pt)).complete := by
  show finish s (do needCurve s; let pt ← srcP s rs1; return s.setZ (isId s.curve pt)) = _
  rw [needCurve_valid hv, srcP_holds hp]
  rfl

theorem isId_iff {e : CurveCfg} {pt : Point} :
    isId e pt = true ↔ (e.form ≠ .edwards ∧ pt = .infinity) ∨ (e.form = .edwards ∧ pt = .affine 0 1) := by
  cases hf : e.form <;> simp [isId, ident, hf]

/-- Settles O47: PONC by the invariant on the point it reads, PISINF by the identity of the form. -/
theorem pointTestResults : Obligations.PointTestResults := by
  intro s rs1 pt hv hp
  refine ⟨fun hI => ?_, ?_⟩
  · exact ⟨_, exec_ponc_holds hv hp, writesNoRegister_of rfl rfl rfl rfl, (hI.pointWf hp).2, rfl, rfl, rfl⟩
  · exact ⟨_, exec_pisinf_holds hv hp, writesNoRegister_of rfl rfl rfl rfl, isId_iff, rfl, rfl, rfl⟩

end Sys2Proof.Machine
end

section
/-! The windows of the register files, and what a MemRead does. -/

namespace Sys2Proof.Machine

open Sys2Proof.Stated

variable {s : State}

/-! ### Words of the windows (20_memory.md R74) -/

theorem busRead_f (s : State) (i : FIdx) {w : Nat} (h : w < Config.nw) :
    busRead s (BitVec.ofNat 16 (0x1000 + 0x40 * i.val + 4 * w)) = getWord (s.f i).v w := by
  rw [busRead, slotAt_f i h, readSlot]

theorem busRead_k (s : State) (k : KIdx) {w : Nat} (h : w < Config.nw) :
    busRead s (BitVec.ofNat 16 (0x3000 + 0x40 * k.val + 4 * w)) = getWord (s.k k).v w := by
  rw [busRead, slotAt_k k h, readSlot]

theorem toNat_busRead_pinf (s : State) (j : PIdx) :
    (busRead s (BitVec.ofNat 16 (0x2080 + 0x100 * j.val))).toNat = (s.p j).inf.toNat := by
  rw [busRead, slotAt_pinf, readSlot]
  cases (s.p j).inf <;> rfl

/-- Settles O14: the slot of each offset, and the bits of a word. -/
theorem windowsShowLittleEndianWords : Obligations.WindowsShowLittleEndianWords := by
  intro s w
  refine ⟨fun h i => ?_, fun h j => ⟨?_, ?_⟩, toNat_busRead_pinf s, fun h k => ?_, fun h => ⟨?_, ?_⟩,
    fun h => ⟨?_, ?_⟩⟩
  · rw [busRead_f s i h, toNat_getWord]
  · rw [busRead, slotAt_px j h, readSlot, toNat_getWord]
  · rw [busRead, slotAt_py j h, readSlot, toNat_getWord]
  · rw [busRead_k s k h, toNat_getWord]
  · rw [busRead, slotAt_cfgMod h, readSlot, toNat_getWord]
  · rw [busRead, slotAt_pmod h, readSlot, toNat_getWord]
  · rw [busRead, slotAt_ca h, readSlot, toNat_getWord]
  · rw [busRead, slotAt_cb h, readSlot, toNat_getWord]

/-! ### Writes of the F and K windows (20_memory.md R76, R78) -/

/-- An accepted write of an F window word is `F[i] <- v`, with one word of the value replaced. -/
theorem busWrite_f (hb : s.status.busy = false) (i : FIdx) {w : Nat} (h : w < Config.nw) (data : BusWord) :
    busWrite s (BitVec.ofNat 16 (0x1000 + 0x40 * i.val + 4 * w)) data =
      s.writeF i (setWord (s.f i).v w data).toNat := by
  rw [busWrite_of_idle hb, slotAt_f i h, writeSlot, State.writeF, BitVec.ofNat_toNat, BitVec.setWidth_eq]

/-- An accepted write of a K window word is `K[k] <- v`, with one word of the value replaced. -/
theorem busWrite_k (hb : s.status.busy = false) (k : KIdx) {w : Nat} (h : w < Config.nw) (data : BusWord) :
    busWrite s (BitVec.ofNat 16 (0x3000 + 0x40 * k.val + 4 * w)) data =
      s.writeK k (setWord (s.k k).v w data).toNat := by
  rw [busWrite_of_idle hb, slotAt_k k h, writeSlot, State.writeK, BitVec.ofNat_toNat, BitVec.setWidth_eq]

theorem f_writeF_same (s : State) (i : FIdx) (v : Word) : (s.writeF i v.toNat).f i = ⟨v, .valid⟩ := by
  rw [State.f_writeF, if_pos rfl, BitVec.ofNat_toNat, BitVec.setWidth_eq]

theorem k_writeK_same (s : State) (k : KIdx) (v : Word) : (s.writeK k v.toNat).k k = ⟨v, .valid⟩ := by
  rw [State.k_writeK, if_pos rfl, BitVec.ofNat_toNat, BitVec.setWidth_eq]

/-- The words of a 256-bit register lie whole inside it. -/
theorem word_fits {w : Nat} (h : w < Config.nw) : 32 * w + 32 ≤ Config.nbits := by
  have hnw : Config.nw = 8 := rfl
  have hnb : Config.nbits = 256 := rfl
  omega

/-- Settles O12: the write is the write of one register of the file, and the words of that register are apart. -/
theorem windowWritesReadBack : Obligations.WindowWritesReadBack := by
  intro s w data hb hw
  refine ⟨fun i => ?_, fun i => ?_⟩
  · rw [busWrite_f hb i hw]
    refine ⟨?_, fun w' hw' hne => ?_, ?_, rfl, fun j hj => ?_⟩
    · rw [busRead_f _ i hw, f_writeF_same]
      exact getWord_setWord _ w data (word_fits hw)
    · rw [busRead_f _ i hw', busRead_f s i hw', f_writeF_same]
      exact getWord_setWord_of_ne _ w w' data hne
    · rw [f_writeF_same]
    · rw [State.f_writeF, if_neg hj.symm]
  · rw [busWrite_k hb i hw]
    refine ⟨?_, fun w' hw' hne => ?_, ?_, rfl, fun j hj => ?_⟩
    · rw [busRead_k _ i hw, k_writeK_same]
      exact getWord_setWord _ w data (word_fits hw)
    · rw [busRead_k _ i hw', busRead_k s i hw', k_writeK_same]
      exact getWord_setWord_of_ne _ w w' data hne
    · rw [k_writeK_same]
    · rw [State.k_writeK, if_neg hj.symm]

/-! ### Reads (20_memory.md R82) -/

theorem step_withAccess_read (s : State) {off : Offset} (h : off.toNat % 4 = 0) :
    step (withAccess s (.read .w32 off)) = .next { s with readData := some (busRead s off) } :=
  (step_withAccess s _).trans (hostAccess_read h)

/-- What the port shows does not depend on its last answer. -/
theorem busRead_readData (s : State) (d : Option BusWord) (off : Offset) :
    busRead { s with readData := d } off = busRead s off := by
  unfold busRead
  cases slotAt off <;> rfl

/-- Settles O10: the answer is the word that the port shows. -/
theorem readsHaveNoSideEffect : Obligations.ReadsHaveNoSideEffect := by
  intro s off ho
  refine ⟨busRead s off, step_withAccess_read s ho, fun d => ?_⟩
  rw [step_withAccess_read _ ho, busRead_readData]

end Sys2Proof.Machine
end

section
/-! Each format of the decoder answers the command whose encoding the word is. -/

namespace Sys2Proof

open Decode

variable {w : BusWord} {i : Instr}

/-! ### The fields of a word (30_encoding.md R100, R101) -/

@[simp] theorem opc_lt (w : BusWord) : opc w < 256 := Nat.mod_lt _ (by decide)
@[simp] theorem rd_lt (w : BusWord) : rd w < 16 := Nat.mod_lt _ (by decide)
@[simp] theorem rs1_lt (w : BusWord) : rs1 w < 16 := Nat.mod_lt _ (by decide)
@[simp] theorem rs2_lt (w : BusWord) : rs2 w < 16 := Nat.mod_lt _ (by decide)
@[simp] theorem imm_lt (w : BusWord) : imm w < 4096 := Nat.div_lt_of_lt_mul w.isLt

/-- A word is determined by its five fields. -/
theorem encodeFields_eq_iff {o d a b m : Nat} (ho : o < 256) (hd : d < 16) (ha : a < 16) (hb : b < 16)
    (hm : m < 4096) :
    encodeFields o d a b m = w ↔ opc w = o ∧ rd w = d ∧ rs1 w = a ∧ rs2 w = b ∧ imm w = m := by
  constructor
  · rintro rfl
    exact ⟨opc_encodeFields ho hd ha hb hm, rd_encodeFields ho hd ha hb hm, rs1_encodeFields ho hd ha hb hm,
      rs2_encodeFields ho hd ha hb hm, imm_encodeFields ho hd ha hb hm⟩
  · rintro ⟨rfl, rfl, rfl, rfl, rfl⟩
    exact encodeFields_fields w

/-- The F field `n` names the register of that number. -/
theorem eq_fIdx_val_iff {n : Nat} (hn : n < 16) {r : FIdx} : n = r.val ↔ fField n = r := by
  simp [fField, Fin.ext_iff, Nat.mod_eq_of_lt hn]

/-- The P field `n` names the register of that number when bit 3 of the field is 0. -/
theorem eq_pIdx_val_iff {n : Nat} {r : PIdx} : n = r.val ↔ n < 8 ∧ pField n = r := by
  simp only [pField, Fin.ext_iff, Fin.val_ofNat]
  omega

/-- The K field `n` names the register of that number when bits 3..2 of the field are 0. -/
theorem eq_kIdx_val_iff {n : Nat} {r : KIdx} : n = r.val ↔ n < 4 ∧ kField n = r := by
  simp only [kField, Fin.ext_iff, Fin.val_ofNat]
  omega

@[simp] theorem pIdx_lt (r : PIdx) : r.val < 16 := r.isLt.trans (by decide)
@[simp] theorem kIdx_lt (r : KIdx) : r.val < 16 := r.isLt.trans (by decide)
@[simp] theorem neg_toNat_lt (neg : Bool) : neg.toNat < 4096 := (Bool.toNat_lt neg).trans (by decide)
@[simp] theorem imm_toNat_lt (v : BitVec 12) : v.toNat < 4096 := v.isLt

theorem eq_imm_toNat_iff {n : Nat} (hn : n < 4096) {v : BitVec 12} : n = v.toNat ↔ BitVec.ofNat 12 n = v := by
  rw [← BitVec.toNat_inj, BitVec.toNat_ofNat, Nat.mod_eq_of_lt hn]

theorem eq_neg_toNat_iff {n : Nat} {neg : Bool} : n = neg.toNat ↔ n < 2 ∧ (n == 1) = neg := by
  cases neg <;> simp <;> omega

@[simp] theorem guardZero_eq_ok_iff {ok : Bool} {i j : Instr} : guardZero ok i = .ok j ↔ ok = true ∧ i = j := by
  cases ok <;> simp [guardZero]

theorem CurveForm.exists_iff {p : CurveForm → Prop} :
    (∃ form, p form) ↔ p .weierstrass ∨ p .montgomery ∨ p .edwards := by
  constructor
  · rintro ⟨_ | _ | _, h⟩ <;> simp [h]
  · rintro (h | h | h) <;> exact ⟨_, h⟩

/-! ### The formats (30_encoding.md R103) -/

section

variable {o : Nat} (ho : opc w = o)

include ho

theorem fmtN_eq_ok_iff {c : Instr} : fmtN c w = .ok i ↔ encodeFields o 0 0 0 0 = w ∧ c = i := by
  subst ho
  simp [fmtN, encodeFields_eq_iff, and_assoc]

theorem fmtFFF_eq_ok_iff {mk : FIdx → FIdx → FIdx → Instr} : fmtFFF mk w = .ok i ↔
    ∃ rd rs1 rs2, encodeFields o rd.val rs1.val rs2.val 0 = w ∧ mk rd rs1 rs2 = i := by
  subst ho
  simp [fmtFFF, encodeFields_eq_iff, eq_fIdx_val_iff, and_assoc]

theorem fmtFF_eq_ok_iff {mk : FIdx → FIdx → Instr} : fmtFF mk w = .ok i ↔
    ∃ rd rs1, encodeFields o rd.val rs1.val 0 0 = w ∧ mk rd rs1 = i := by
  subst ho
  simp [fmtFF, encodeFields_eq_iff, eq_fIdx_val_iff, and_assoc]

theorem fmtFFK_eq_ok_iff {mk : FIdx → FIdx → KIdx → Bool → Instr} : fmtFFK mk w = .ok i ↔
    ∃ rd rs1 rs2 neg, encodeFields o rd.val rs1.val rs2.val neg.toNat = w ∧ mk rd rs1 rs2 neg = i := by
  subst ho
  simp [fmtFFK, encodeFields_eq_iff, eq_fIdx_val_iff, eq_kIdx_val_iff, eq_neg_toNat_iff, and_assoc]

theorem fmtFI_eq_ok_iff {mk : FIdx → BitVec 12 → Instr} : fmtFI mk w = .ok i ↔
    ∃ rd v, encodeFields o rd.val 0 0 v.toNat = w ∧ mk rd v = i := by
  subst ho
  simp [fmtFI, encodeFields_eq_iff, eq_fIdx_val_iff, eq_imm_toNat_iff, and_assoc]

theorem fmtXFF_eq_ok_iff {mk : FIdx → FIdx → Instr} : fmtXFF mk w = .ok i ↔
    ∃ rs1 rs2, encodeFields o 0 rs1.val rs2.val 0 = w ∧ mk rs1 rs2 = i := by
  subst ho
  simp [fmtXFF, encodeFields_eq_iff, eq_fIdx_val_iff, and_assoc]

theorem fmtPFF_eq_ok_iff {mk : PIdx → FIdx → FIdx → Instr} : fmtPFF mk w = .ok i ↔
    ∃ rd rs1 rs2, encodeFields o rd.val rs1.val rs2.val 0 = w ∧ mk rd rs1 rs2 = i := by
  subst ho
  simp [fmtPFF, encodeFields_eq_iff, eq_fIdx_val_iff, eq_pIdx_val_iff, and_assoc]

theorem fmtP_eq_ok_iff {mk : PIdx → Instr} : fmtP mk w = .ok i ↔
    ∃ rd, encodeFields o rd.val 0 0 0 = w ∧ mk rd = i := by
  subst ho
  simp [fmtP, encodeFields_eq_iff, eq_pIdx_val_iff, and_assoc]

theorem fmtFP_eq_ok_iff {mk : FIdx → PIdx → Instr} : fmtFP mk w = .ok i ↔
    ∃ rd rs1, encodeFields o rd.val rs1.val 0 0 = w ∧ mk rd rs1 = i := by
  subst ho
  simp [fmtFP, encodeFields_eq_iff, eq_fIdx_val_iff, eq_pIdx_val_iff, and_assoc]

theorem fmtPP_eq_ok_iff {mk : PIdx → PIdx → Instr} : fmtPP mk w = .ok i ↔
    ∃ rd rs1, encodeFields o rd.val rs1.val 0 0 = w ∧ mk rd rs1 = i := by
  subst ho
  simp [fmtPP, encodeFields_eq_iff, eq_pIdx_val_iff, and_assoc]

theorem fmtPPP_eq_ok_iff {mk : PIdx → PIdx → PIdx → Instr} : fmtPPP mk w = .ok i ↔
    ∃ rd rs1 rs2, encodeFields o rd.val rs1.val rs2.val 0 = w ∧ mk rd rs1 rs2 = i := by
  subst ho
  simp [fmtPPP, encodeFields_eq_iff, eq_pIdx_val_iff, and_assoc]

theorem fmtXP_eq_ok_iff {mk : PIdx → Instr} : fmtXP mk w = .ok i ↔
    ∃ rs1, encodeFields o 0 rs1.val 0 0 = w ∧ mk rs1 = i := by
  subst ho
  simp [fmtXP, encodeFields_eq_iff, eq_pIdx_val_iff, and_assoc]

theorem fmtPPK_eq_ok_iff {mk : PIdx → PIdx → KIdx → Instr} : fmtPPK mk w = .ok i ↔
    ∃ rd rs1 rs2, encodeFields o rd.val rs1.val rs2.val 0 = w ∧ mk rd rs1 rs2 = i := by
  subst ho
  simp [fmtPPK, encodeFields_eq_iff, eq_pIdx_val_iff, eq_kIdx_val_iff, and_assoc]

theorem fmtKI_eq_ok_iff {mk : KIdx → BitVec 12 → Instr} : fmtKI mk w = .ok i ↔
    ∃ rd v, encodeFields o rd.val 0 0 v.toNat = w ∧ mk rd v = i := by
  subst ho
  simp [fmtKI, encodeFields_eq_iff, eq_kIdx_val_iff, eq_imm_toNat_iff, and_assoc]

theorem fmtKF_eq_ok_iff {mk : KIdx → FIdx → Instr} : fmtKF mk w = .ok i ↔
    ∃ rd rs1, encodeFields o rd.val rs1.val 0 0 = w ∧ mk rd rs1 = i := by
  subst ho
  simp [fmtKF, encodeFields_eq_iff, eq_fIdx_val_iff, eq_kIdx_val_iff, and_assoc]

theorem fmtFK_eq_ok_iff {mk : FIdx → KIdx → Instr} : fmtFK mk w = .ok i ↔
    ∃ rd rs1, encodeFields o rd.val rs1.val 0 0 = w ∧ mk rd rs1 = i := by
  subst ho
  simp [fmtFK, encodeFields_eq_iff, eq_fIdx_val_iff, eq_kIdx_val_iff, and_assoc]

theorem fmtCFG_eq_ok_iff : fmtCFG w = .ok i ↔
    ∃ form rs1 rs2, encodeFields o form.code rs1.val rs2.val 0 = w ∧ .cfgc form rs1 rs2 = i := by
  subst ho
  simp only [fmtCFG, beq_iff_eq, CurveForm.exists_iff, CurveForm.code]
  split
  · split <;> simp_all [encodeFields_eq_iff, eq_fIdx_val_iff]
  · simp [encodeFields_eq_iff, *]

end

/-! ### Decoding and encoding are inverse (30_encoding.md R104) -/

open Laws.OpcodeField in
/-- Every command's word carries the opcode of its row. -/
theorem opcodeField (i : Instr) : Statement i := by
  cases i
  exacts [nop, cfgf, cfgc .., fadd .., fsub .., fmul .., fdiv .., finv .., fneg .., fpow .., fsqrt .., fmov ..,
    fred .., fldi .., fcmp .., mmul .., mtom .., mfrom .., pset .., pinf .., pgetx .., pgety .., pmov .., pneg ..,
    padd .., pdbl .., ponc .., pisinf .., psmul .., psmulda .., psmulml .., kldi .., kfromf .., ffromk ..]

theorem opc_encode (i : Instr) : opc (encode i) = Laws.opcodeOf i := opcodeField i

/-- The opcode selects the format of the command's row, and the format reads back every operand. -/
theorem decode_of_encode_eq (hw : encode i = w) : decode w = .ok i := by
  have ho : opc w = Laws.opcodeOf i := hw ▸ opc_encode i
  rw [decode, ho]
  cases i with
  | nop | cfgf => exact (fmtN_eq_ok_iff ho).2 ⟨hw, rfl⟩
  | cfgc form rs1 rs2 => exact (fmtCFG_eq_ok_iff ho).2 ⟨form, rs1, rs2, hw, rfl⟩
  | fadd rd rs1 rs2 | fsub rd rs1 rs2 | fmul rd rs1 rs2 | fdiv rd rs1 rs2 | mmul rd rs1 rs2 =>
    exact (fmtFFF_eq_ok_iff ho).2 ⟨rd, rs1, rs2, hw, rfl⟩
  | finv rd rs1 | fneg rd rs1 | fsqrt rd rs1 | fmov rd rs1 | fred rd rs1 | mtom rd rs1 | mfrom rd rs1 =>
    exact (fmtFF_eq_ok_iff ho).2 ⟨rd, rs1, hw, rfl⟩
  | fpow rd rs1 rs2 neg => exact (fmtFFK_eq_ok_iff ho).2 ⟨rd, rs1, rs2, neg, hw, rfl⟩
  | fldi rd v => exact (fmtFI_eq_ok_iff ho).2 ⟨rd, v, hw, rfl⟩
  | fcmp rs1 rs2 => exact (fmtXFF_eq_ok_iff ho).2 ⟨rs1, rs2, hw, rfl⟩
  | pset rd rs1 rs2 => exact (fmtPFF_eq_ok_iff ho).2 ⟨rd, rs1, rs2, hw, rfl⟩
  | pinf rd => exact (fmtP_eq_ok_iff ho).2 ⟨rd, hw, rfl⟩
  | pgetx rd rs1 | pgety rd rs1 => exact (fmtFP_eq_ok_iff ho).2 ⟨rd, rs1, hw, rfl⟩
  | pmov rd rs1 | pneg rd rs1 | pdbl rd rs1 => exact (fmtPP_eq_ok_iff ho).2 ⟨rd, rs1, hw, rfl⟩
  | padd rd rs1 rs2 => exact (fmtPPP_eq_ok_iff ho).2 ⟨rd, rs1, rs2, hw, rfl⟩
  | ponc rs1 | pisinf rs1 => exact (fmtXP_eq_ok_iff ho).2 ⟨rs1, hw, rfl⟩
  | psmul rd rs1 rs2 | psmulda rd rs1 rs2 | psmulml rd rs1 rs2 =>
    exact (fmtPPK_eq_ok_iff ho).2 ⟨rd, rs1, rs2, hw, rfl⟩
  | kldi rd v => exact (fmtKI_eq_ok_iff ho).2 ⟨rd, v, hw, rfl⟩
  | kfromf rd rs1 => exact (fmtKF_eq_ok_iff ho).2 ⟨rd, rs1, hw, rfl⟩
  | ffromk rd rs1 => exact (fmtFK_eq_ok_iff ho).2 ⟨rd, rs1, hw, rfl⟩

/-- Settles O2. -/
theorem decodeOfEncode : Obligations.DecodeOfEncode := fun _ => decode_of_encode_eq rfl

/-- Settles O3: the format of the opcode's row has a place for every bit of the word. The cases are the rows of the
opcode map, in its order. -/
theorem encodeOfDecode : Obligations.EncodeOfDecode := by
  intro w i h
  unfold decode at h
  split at h
  case h_1 ho | h_2 ho => obtain ⟨hw, rfl⟩ := (fmtN_eq_ok_iff ho).1 h; exact hw
  case h_3 ho => obtain ⟨form, rs1, rs2, hw, rfl⟩ := (fmtCFG_eq_ok_iff ho).1 h; exact hw
  case h_4 ho | h_5 ho | h_6 ho | h_7 ho | h_16 ho =>
    obtain ⟨rd, rs1, rs2, hw, rfl⟩ := (fmtFFF_eq_ok_iff ho).1 h; exact hw
  case h_8 ho | h_9 ho | h_11 ho | h_12 ho | h_13 ho | h_17 ho | h_18 ho =>
    obtain ⟨rd, rs1, hw, rfl⟩ := (fmtFF_eq_ok_iff ho).1 h; exact hw
  case h_10 ho => obtain ⟨rd, rs1, rs2, neg, hw, rfl⟩ := (fmtFFK_eq_ok_iff ho).1 h; exact hw
  case h_14 ho => obtain ⟨rd, v, hw, rfl⟩ := (fmtFI_eq_ok_iff ho).1 h; exact hw
  case h_15 ho => obtain ⟨rs1, rs2, hw, rfl⟩ := (fmtXFF_eq_ok_iff ho).1 h; exact hw
  case h_19 ho => obtain ⟨rd, rs1, rs2, hw, rfl⟩ := (fmtPFF_eq_ok_iff ho).1 h; exact hw
  case h_20 ho => obtain ⟨rd, hw, rfl⟩ := (fmtP_eq_ok_iff ho).1 h; exact hw
  case h_21 ho | h_22 ho => obtain ⟨rd, rs1, hw, rfl⟩ := (fmtFP_eq_ok_iff ho).1 h; exact hw
  case h_23 ho | h_24 ho | h_26 ho => obtain ⟨rd, rs1, hw, rfl⟩ := (fmtPP_eq_ok_iff ho).1 h; exact hw
  case h_25 ho => obtain ⟨rd, rs1, rs2, hw, rfl⟩ := (fmtPPP_eq_ok_iff ho).1 h; exact hw
  case h_27 ho | h_28 ho => obtain ⟨rs1, hw, rfl⟩ := (fmtXP_eq_ok_iff ho).1 h; exact hw
  case h_29 ho | h_30 ho | h_31 ho => obtain ⟨rd, rs1, rs2, hw, rfl⟩ := (fmtPPK_eq_ok_iff ho).1 h; exact hw
  case h_32 ho => obtain ⟨rd, v, hw, rfl⟩ := (fmtKI_eq_ok_iff ho).1 h; exact hw
  case h_33 ho => obtain ⟨rd, rs1, hw, rfl⟩ := (fmtKF_eq_ok_iff ho).1 h; exact hw
  case h_34 ho => obtain ⟨rd, rs1, hw, rfl⟩ := (fmtFK_eq_ok_iff ho).1 h; exact hw
  case h_35 => cases h

/-- Settles O1: the decoder evaluates each word. -/
theorem specWordsDecode : Obligations.SpecWordsDecode :=
  ⟨rfl, rfl, rfl, rfl, rfl, rfl, rfl, rfl, rfl, rfl, rfl, rfl, rfl⟩

end Sys2Proof
end

section
/-! The legal words are the rows of the opcode table. -/

namespace Sys2Proof

open Decode Stated

variable {w : BusWord}

/-! ### Masks of a word, field by field (30_encoding.md R103) -/

theorem opc_and (v : BusWord) : opc (w &&& v) = opc w &&& opc v := by
  simp only [opc, BitVec.toNat_and]
  exact Nat.and_mod_two_pow (n := 8)

theorem rd_and (v : BusWord) : rd (w &&& v) = rd w &&& rd v := by
  simp only [rd, BitVec.toNat_and, Nat.and_div_two_pow]
  exact Nat.and_mod_two_pow (n := 4)

theorem rs1_and (v : BusWord) : rs1 (w &&& v) = rs1 w &&& rs1 v := by
  simp only [rs1, BitVec.toNat_and, Nat.and_div_two_pow]
  exact Nat.and_mod_two_pow (n := 4)

theorem rs2_and (v : BusWord) : rs2 (w &&& v) = rs2 w &&& rs2 v := by
  simp only [rs2, BitVec.toNat_and, Nat.and_div_two_pow]
  exact Nat.and_mod_two_pow (n := 4)

theorem imm_and (v : BusWord) : imm (w &&& v) = imm w &&& imm v := by
  simp only [imm, BitVec.toNat_and, Nat.and_div_two_pow]

/-- Masking away the low `j` bits of a `k`-bit value. -/
theorem and_highBits {n k j : Nat} (hn : n < 2 ^ k) (hj : j ≤ k) : n &&& (2 ^ k - 2 ^ j) = 2 ^ j * (n / 2 ^ j) := by
  have hm : 2 ^ k - 2 ^ j = 2 ^ j * (2 ^ (k - j) - 1) := by
    rw [Nat.mul_sub, ← pow_add, mul_one, Nat.add_sub_of_le hj]
  have hlt : n / 2 ^ j < 2 ^ (k - j) := by
    rwa [Nat.div_lt_iff_lt_mul (Nat.two_pow_pos j), ← pow_add, Nat.sub_add_cancel hj]
  rw [← Nat.div_add_mod (n &&& (2 ^ k - 2 ^ j)) (2 ^ j), Nat.and_div_two_pow, Nat.and_mod_two_pow, hm,
    Nat.mul_div_cancel_left _ (Nat.two_pow_pos j), Nat.mul_mod_right, Nat.and_zero, add_zero,
    Nat.and_two_pow_sub_one_eq_mod, Nat.mod_eq_of_lt hlt]

/-- The bits from `j` up of a `k`-bit value are 0 exactly when it is below `2 ^ j`. -/
theorem and_highBits_eq_zero_iff {n k j : Nat} (hn : n < 2 ^ k) (hj : j ≤ k) :
    n &&& (2 ^ k - 2 ^ j) = 0 ↔ n < 2 ^ j := by
  rw [and_highBits hn hj, Nat.mul_eq_zero, or_iff_right (Nat.two_pow_pos j).ne',
    Nat.div_eq_zero_iff_lt (Nat.two_pow_pos j)]

/-! ### The opcode table in terms of its formats (30_encoding.md R103, R104) -/

/-- The number of free low bits of each operand field in a format; the bits above them are fixed to 0. -/
structure FreeBits where
  rd : Fin 5
  rs1 : Fin 5
  rs2 : Fin 5
  imm : Fin 13

/-- The bits that the format fixes to 0 are 0. -/
def FreeBits.Fits (f : FreeBits) (w : BusWord) : Prop :=
  Decode.rd w < 2 ^ f.rd.val ∧ Decode.rs1 w < 2 ^ f.rs1.val ∧ Decode.rs2 w < 2 ^ f.rs2.val
    ∧ Decode.imm w < 2 ^ f.imm.val

/-- The mask of the format: OPC and the bits fixed to 0. -/
def FreeBits.mask (f : FreeBits) : BusWord :=
  encodeFields 255 (2 ^ 4 - 2 ^ f.rd.val) (2 ^ 4 - 2 ^ f.rs1.val) (2 ^ 4 - 2 ^ f.rs2.val) (2 ^ 12 - 2 ^ f.imm.val)

/-- The format of each opcode (30_encoding.md R103, R104). -/
def freeBitsAt : Nat → Option FreeBits
  | 0x00 | 0x01 => some ⟨0, 0, 0, 0⟩
  | 0x02 | 0x10 | 0x11 | 0x12 | 0x13 | 0x1C => some ⟨4, 4, 4, 0⟩
  | 0x14 | 0x15 | 0x17 | 0x18 | 0x19 | 0x1D | 0x1E => some ⟨4, 4, 0, 0⟩
  | 0x16 => some ⟨4, 4, 2, 1⟩
  | 0x1A => some ⟨4, 0, 0, 12⟩
  | 0x1B => some ⟨0, 4, 4, 0⟩
  | 0x20 => some ⟨3, 4, 4, 0⟩
  | 0x21 => some ⟨3, 0, 0, 0⟩
  | 0x22 | 0x23 => some ⟨4, 3, 0, 0⟩
  | 0x24 | 0x25 | 0x27 => some ⟨3, 3, 0, 0⟩
  | 0x26 => some ⟨3, 3, 3, 0⟩
  | 0x28 | 0x29 => some ⟨0, 3, 0, 0⟩
  | 0x30 | 0x31 | 0x32 => some ⟨3, 3, 2, 0⟩
  | 0x38 => some ⟨2, 0, 0, 12⟩
  | 0x39 => some ⟨2, 4, 0, 0⟩
  | 0x3A => some ⟨4, 2, 0, 0⟩
  | _ => none

theorem lt_of_freeBitsAt {o : Nat} {f : FreeBits} (h : freeBitsAt o = some f) : o < 59 := by
  unfold freeBitsAt at h
  split at h
  case h_35 => cases h
  all_goals decide

/-- The row of the opcode table for an opcode and its format. -/
def tableRow (o : Nat) (f : FreeBits) : Row := ⟨encodeFields o 0 0 0 0, f.mask⟩

/-- The table of the statement is built from the formats. -/
theorem rows_eq : rows = (List.range 59).filterMap fun o => (freeBitsAt o).map (tableRow o) := by rfl

theorem two_pow_sub_two_pow_lt (k j : Nat) : 2 ^ k - 2 ^ j < 2 ^ k :=
  Nat.sub_lt (Nat.two_pow_pos k) (Nat.two_pow_pos j)

theorem pattern_tableRow_eq_two_iff {o : Nat} (ho : o < 256) {f : FreeBits} : (tableRow o f).pattern = 2 ↔ o = 2 :=
  (encodeFields_eq_iff ho (by decide) (by decide) (by decide) (by decide)).trans
    ⟨fun h => h.1.symm, fun h => ⟨h.symm, rfl, rfl, rfl, rfl⟩⟩

theorem mask_fields (f : FreeBits) :
    opc f.mask = 255 ∧ rd f.mask = 2 ^ 4 - 2 ^ f.rd.val ∧ rs1 f.mask = 2 ^ 4 - 2 ^ f.rs1.val
      ∧ rs2 f.mask = 2 ^ 4 - 2 ^ f.rs2.val ∧ imm f.mask = 2 ^ 12 - 2 ^ f.imm.val :=
  (encodeFields_eq_iff (by decide) (two_pow_sub_two_pow_lt 4 f.rd) (two_pow_sub_two_pow_lt 4 f.rs1)
    (two_pow_sub_two_pow_lt 4 f.rs2) (two_pow_sub_two_pow_lt 12 f.imm)).1 rfl

theorem opc_and_255 (w : BusWord) : opc w &&& 255 = opc w := by
  rw [Nat.and_two_pow_sub_one_eq_mod (n := 8)]
  exact Nat.mod_eq_of_lt (opc_lt w)

/-- A word matches a row exactly when it has the row's opcode and the bits that the format fixes to 0 are 0. -/
theorem matches_tableRow_iff {o : Nat} (ho : o < 256) (f : FreeBits) :
    w &&& (tableRow o f).mask = (tableRow o f).pattern ↔ opc w = o ∧ f.Fits w := by
  obtain ⟨hopc, hrd, hrs1, hrs2, himm⟩ := mask_fields f
  rw [eq_comm, tableRow, encodeFields_eq_iff ho (by decide) (by decide) (by decide) (by decide), opc_and, rd_and,
    rs1_and, rs2_and, imm_and, hopc, hrd, hrs1, hrs2, himm, opc_and_255,
    and_highBits_eq_zero_iff (rd_lt w) f.rd.is_le, and_highBits_eq_zero_iff (rs1_lt w) f.rs1.is_le,
    and_highBits_eq_zero_iff (rs2_lt w) f.rs2.is_le, and_highBits_eq_zero_iff (k := 12) (imm_lt w) f.imm.is_le,
    FreeBits.Fits]

/-! ### The legal words (30_encoding.md R105, R108) -/

theorem exists_guardZero_eq_ok_iff {ok : Bool} {i : Instr} : (∃ j, guardZero ok i = .ok j) ↔ ok = true := by
  simp

/-- CFGC with FORM 3 or above is illegal (30_encoding.md R108). -/
theorem exists_fmtCFG_eq_ok_iff : (∃ i, fmtCFG w = .ok i) ↔ imm w = 0 ∧ rd w < 3 := by
  simp only [fmtCFG, beq_iff_eq]
  split
  · split <;> simp_all
    omega
  · simp_all

/-- A word decodes to some command exactly when its opcode is assigned, the bits that the format fixes to 0 are 0,
and FORM of CFGC is below 3. -/
theorem exists_decode_eq_ok_iff : (∃ i, decode w = .ok i) ↔
    ∃ f, freeBitsAt (opc w) = some f ∧ f.Fits w ∧ (opc w = 2 → rd w < 3) := by
  unfold decode
  split
  case h_3 ho => simp [freeBitsAt, ho, exists_fmtCFG_eq_ok_iff, FreeBits.Fits]
  case h_35 => simp [freeBitsAt, *]
  all_goals
    rename_i ho
    exact exists_guardZero_eq_ok_iff.trans (by simp [freeBitsAt, ho, FreeBits.Fits, and_assoc])

/-- The FORM field of the statement is RD. -/
theorem shiftRight_mod_lt_three_iff : (w >>> 8) % 16 < (3 : BusWord) ↔ rd w < 3 := by
  simp [BitVec.lt_def, rd, Nat.shiftRight_eq_div_pow]

/-- Settles O4: both sides say that the opcode has a format that the word fits. -/
theorem legalWordsAreTheTableRows : Obligations.LegalWordsAreTheTableRows := by
  intro w
  rw [exists_decode_eq_ok_iff, rows_eq]
  simp only [List.mem_filterMap, List.mem_range, Option.map_eq_some_iff, shiftRight_mod_lt_three_iff]
  constructor
  · rintro ⟨f, hf, hfit, h3⟩
    exact ⟨tableRow (opc w) f, ⟨opc w, lt_of_freeBitsAt hf, f, hf, rfl⟩,
      (matches_tableRow_iff (opc_lt w) f).2 ⟨rfl, hfit⟩, fun h => h3 ((pattern_tableRow_eq_two_iff (opc_lt w)).1 h)⟩
  · rintro ⟨_, ⟨o, ho, f, hf, rfl⟩, hm, h3⟩
    replace ho : o < 256 := ho.trans (by decide)
    obtain ⟨rfl, hfit⟩ := (matches_tableRow_iff ho f).1 hm
    exact ⟨f, hf, hfit, fun h => h3 ((pattern_tableRow_eq_two_iff ho).2 h)⟩

end Sys2Proof
end

section
/-! Polynomials over GF(2) as numbers: each primitive is the operation of the polynomials modulo f. -/

namespace Sys2Proof.Machine

open Polynomial

/-! ### The polynomial of a number (41_field.md R155) -/

/-- The polynomial over GF(2) that `v` stands for: bit i is the coefficient of x^i. -/
noncomputable def toPoly (v : Nat) : (ZMod 2)[X] :=
  ∑ i ∈ Finset.range (v.log2 + 1), if v.testBit i = true then X ^ i else 0

theorem testBit_eq_false_of_log2_lt {v i : Nat} (h : v.log2 < i) : v.testBit i = false :=
  Nat.testBit_lt_two_pow (Nat.lt_log2_self.trans_le (Nat.pow_le_pow_right two_pos h))

theorem coeff_toPoly (v i : Nat) : (toPoly v).coeff i = if v.testBit i = true then 1 else 0 := by
  have hterm : ∀ j, (if v.testBit j = true then X ^ j else 0 : (ZMod 2)[X]).coeff i
      = if i = j then if v.testBit i = true then 1 else 0 else 0 := by
    intro j
    by_cases hij : i = j
    · subst hij
      split <;> simp
    · split <;> simp [coeff_X_pow, hij]
  rw [toPoly, finsetSum_coeff, Finset.sum_congr rfl fun j _ => hterm j, Finset.sum_ite_eq]
  split
  · rfl
  · rename_i hi
    simp [testBit_eq_false_of_log2_lt (v := v) (i := i) (by simpa using hi)]

theorem toPoly_injective : Function.Injective toPoly := by
  intro a b h
  refine Nat.eq_of_testBit_eq fun i => ?_
  have hi : (toPoly a).coeff i = (toPoly b).coeff i := by rw [h]
  rw [coeff_toPoly, coeff_toPoly] at hi
  cases ha : a.testBit i <;> cases hb : b.testBit i <;> simp [ha, hb] at hi ⊢

@[simp] theorem toPoly_zero : toPoly 0 = 0 := by
  ext i
  simp [coeff_toPoly]

@[simp] theorem toPoly_xor (a b : Nat) : toPoly (a ^^^ b) = toPoly a + toPoly b := by
  ext i
  simp only [coeff_toPoly, coeff_add, Nat.testBit_xor]
  cases a.testBit i <;> cases b.testBit i <;> decide

@[simp] theorem toPoly_shiftLeft (a k : Nat) : toPoly (a <<< k) = toPoly a * X ^ k := by
  ext i
  by_cases h : k ≤ i <;> simp [coeff_toPoly, coeff_mul_X_pow', Nat.testBit_shiftLeft, h]

/-- `clmul` is the product of polynomials. -/
@[simp] theorem toPoly_clmul (a b : Nat) : toPoly (clmul a b) = toPoly a * toPoly b := by
  have hfold : ∀ n, toPoly ((List.range n).foldl (fun acc i => if b.testBit i then acc ^^^ (a <<< i) else acc) 0)
      = toPoly a * ∑ i ∈ Finset.range n, if b.testBit i = true then X ^ i else 0 := by
    intro n
    induction n with
    | zero => simp
    | succ n ih =>
      rw [List.range_succ, List.foldl_append, Finset.sum_range_succ, mul_add, ← ih]
      cases hb : b.testBit n <;> simp [hb]
  exact hfold _

/-- The degree of a polynomial is the position of its top bit. -/
theorem degree_toPoly {f : Nat} (hf : f ≠ 0) : (toPoly f).degree = f.log2 := by
  refine le_antisymm ((degree_le_iff_coeff_zero _ _).mpr fun i hi => ?_) (le_degree_of_ne_zero ?_)
  · simp [coeff_toPoly, testBit_eq_false_of_log2_lt (by exact_mod_cast hi : f.log2 < i)]
  · simp [coeff_toPoly, testBit_log2 hf]

theorem degree_toPoly_lt {v n : Nat} (h : v < 2 ^ n) : (toPoly v).degree < n := by
  rcases eq_or_ne v 0 with rfl | hv
  · simp
  · rw [degree_toPoly hv]
    exact_mod_cast (Nat.log2_lt hv).mpr h

/-! ### Residues modulo f -/

/-- The residue of the polynomial `v` modulo f, as the prime field has that of a number in `ZMod`. -/
noncomputable def residue (f v : Nat) : AdjoinRoot (toPoly f) := AdjoinRoot.mk (toPoly f) (toPoly v)

section
variable {f : Nat}

@[simp] theorem residue_xor (a b : Nat) : residue f (a ^^^ b) = residue f a + residue f b := by simp [residue]
@[simp] theorem residue_clmul (a b : Nat) : residue f (clmul a b) = residue f a * residue f b := by simp [residue]
@[simp] theorem residue_shiftLeft_self (k : Nat) : residue f (f <<< k) = 0 := by simp [residue]

/-- Each pass of `pmod` takes away a multiple of f. -/
theorem residue_pmodLoop : ∀ n v, residue f (pmodLoop n v f) = residue f v := by
  intro n
  induction n with
  | zero => exact fun _ => rfl
  | succ n ih =>
    intro v
    rw [pmodLoop]
    split
    · rw [ih, residue_xor, residue_shiftLeft_self, add_zero]
    · rfl

@[simp] theorem residue_pmod (v : Nat) : residue f (pmod v f) = residue f v := residue_pmodLoop _ v

/-- Below the degree of f a polynomial is determined by its residue. -/
theorem eq_of_residue_eq {a b : Nat} (hf : f ≠ 0) (ha : a < 2 ^ f.log2) (hb : b < 2 ^ f.log2)
    (h : residue f a = residue f b) : a = b := by
  have hdvd : toPoly f ∣ toPoly a - toPoly b := AdjoinRoot.mk_eq_mk.mp h
  have hdeg : (toPoly a - toPoly b).degree < (toPoly f).degree := by
    rw [degree_toPoly hf]
    exact (degree_sub_le _ _).trans_lt (max_lt (degree_toPoly_lt ha) (degree_toPoly_lt hb))
  exact toPoly_injective (sub_eq_zero.mp (eq_zero_of_dvd_of_degree_lt hdvd hdeg))

theorem residue_eq_residue_iff {a b : Nat} (hf : f ≠ 0) : residue f a = residue f b ↔ pmod a f = pmod b f := by
  constructor
  · exact fun h => eq_of_residue_eq hf (pmod_lt hf a) (pmod_lt hf b) (by simpa using h)
  · intro h
    rw [← residue_pmod a, h, residue_pmod]

end

/-! ### The primitives of a binary field (41_field.md R152, R156) -/

section
variable {c : FieldCfg} (hk : c.kind = .binary)
include hk

theorem residue_fadd (a b : Nat) : residue c.modulus (fadd c a b) = residue c.modulus a + residue c.modulus b := by
  simp [fadd, hk]

theorem residue_fmul (a b : Nat) : residue c.modulus (fmul c a b) = residue c.modulus a * residue c.modulus b := by
  simp [fmul, hk]

/-- Canonical values are equal exactly when their residues are. -/
theorem eq_iff_residue_eq (h : FieldWf c) {a b : Nat} (ha : canon c a = true) (hb : canon c b = true) :
    a = b ↔ residue c.modulus a = residue c.modulus b := by
  obtain ⟨hl, hne⟩ := h.log2_modulus hk
  rw [canon_binary hk, ← hl] at ha hb
  exact ⟨fun hab => by rw [hab], eq_of_residue_eq hne ha hb⟩

end

end Sys2Proof.Machine
end

section
/-! The conditions of the curve: on its coefficients, and on the coordinates of a point; and the results of NOP and
CFGC. -/

namespace Sys2Proof.Machine

open Sys2Proof.Stated

variable {s : State}

/-! ### Residues modulo p -/

section
variable {c : FieldCfg} (hk : c.kind = .prime)
include hk

/-- Over a prime field a sum is canonical whatever is added. -/
theorem canon_fadd_prime (h : FieldWf c) (a b : Nat) : canon c (fadd c a b) = true := by
  simpa [fadd, hk] using canon_mod h hk (a + b)

/-- Canonical values with the residues of `m` and `n` are equal exactly when `m` and `n` are congruent. -/
theorem eq_iff_mod_eq {a b m n : Nat} (ha : canon c a = true) (hb : canon c b = true)
    (hm : (a : ZMod c.modulus) = (m : Nat)) (hn : (b : ZMod c.modulus) = (n : Nat)) :
    a = b ↔ m % c.modulus = n % c.modulus := by
  rw [← ZMod.natCast_eq_natCast_iff', ← hm, ← hn]
  exact ⟨congrArg _, eq_of_cast_eq hk ha hb⟩

/-- A canonical value with the residue of `z` is 0 exactly when p divides `z`. -/
theorem ne_zero_iff_emod_ne_zero {a : Nat} {z : Int} (ha : canon c a = true)
    (hz : (a : ZMod c.modulus) = (z : Int)) : a ≠ 0 ↔ z % c.modulus ≠ 0 := by
  rw [not_iff_not, ← cast_eq_zero_iff hk ha, hz, ZMod.intCast_zmod_eq_zero_iff_dvd, Int.dvd_iff_emod_eq_zero]

end

/-! ### The equation of the curve (43_point.md R202) -/

section
variable {c : FieldCfg} {e : CurveCfg}

theorem onCurve_infinity_iff : onCurve c e .infinity = true ↔ e.form ≠ .edwards := by
  cases hf : e.form <;> simp [onCurve, hf]

theorem onCurve_weierstrass_iff (hf : e.form = .weierstrass) {x y : Nat} : onCurve c e (.affine x y) = true ↔
    fmul c y y = fadd c (fadd c (fmul c (fmul c x x) x) (fmul c e.a x)) e.b := by
  simp [onCurve, hf]

theorem onCurve_montgomery_iff (hf : e.form = .montgomery) {x y : Nat} : onCurve c e (.affine x y) = true ↔
    fmul c e.b (fmul c y y) = fadd c (fadd c (fmul c (fmul c x x) x) (fmul c e.a (fmul c x x))) x := by
  simp [onCurve, hf]

theorem onCurve_edwards_iff (hf : e.form = .edwards) {x y : Nat} : onCurve c e (.affine x y) = true ↔
    fadd c (fmul c x x) (fmul c y y)
      = fadd c (fnorm c 1) (fmul c e.a (fmul c (fmul c x x) (fmul c y y))) := by
  simp [onCurve, hf]

theorem onCurve_weierstrass_prime_iff (h : FieldWf c) (hk : c.kind = .prime) (hf : e.form = .weierstrass)
    (x y : Nat) : onCurve c e (.affine x y) = true ↔
      y ^ 2 % c.modulus = (x ^ 3 + e.a * x + e.b) % c.modulus := by
  rw [onCurve_weierstrass_iff hf]
  refine eq_iff_mod_eq hk (canon_fmul h _ _) (canon_fadd_prime hk h _ _) ?_ ?_
  · push_cast [cast_fmul hk]
    ring
  · push_cast [cast_fadd hk, cast_fmul hk]
    ring

theorem onCurve_montgomery_prime_iff (h : FieldWf c) (hk : c.kind = .prime) (hf : e.form = .montgomery)
    (x y : Nat) : onCurve c e (.affine x y) = true ↔
      e.b * y ^ 2 % c.modulus = (x ^ 3 + e.a * x ^ 2 + x) % c.modulus := by
  rw [onCurve_montgomery_iff hf]
  refine eq_iff_mod_eq hk (canon_fmul h _ _) (canon_fadd_prime hk h _ _) ?_ ?_
  · push_cast [cast_fmul hk]
    ring
  · push_cast [cast_fadd hk, cast_fmul hk]
    ring

theorem onCurve_edwards_prime_iff (h : FieldWf c) (hk : c.kind = .prime) (hf : e.form = .edwards)
    (x y : Nat) : onCurve c e (.affine x y) = true ↔
      (x ^ 2 + y ^ 2) % c.modulus = (1 + e.a * x ^ 2 * y ^ 2) % c.modulus := by
  rw [onCurve_edwards_iff hf]
  refine eq_iff_mod_eq hk (canon_fadd_prime hk h _ _) (canon_fadd_prime hk h _ _) ?_ ?_
  · push_cast [cast_fadd hk, cast_fmul hk]
    ring
  · push_cast [cast_fadd hk, cast_fmul hk, cast_fnorm hk]
    ring

theorem onCurve_weierstrass_binary_iff (h : FieldWf c) (hk : c.kind = .binary) (hf : e.form = .weierstrass)
    (hb : canon c e.b = true) (x y : Nat) :
    onCurve c e (.affine x y) = true ↔
      pmod (clmul y y) c.modulus = pmod (clmul (clmul x x) x ^^^ clmul e.a x ^^^ e.b) c.modulus := by
  have hsum : canon c (fadd c (fadd c (fmul c (fmul c x x) x) (fmul c e.a x)) e.b) = true :=
    canon_fadd h (canon_fadd h (canon_fmul h _ _) (canon_fmul h _ _)) hb
  rw [onCurve_weierstrass_iff hf, eq_iff_residue_eq hk h (canon_fmul h _ _) hsum,
    ← residue_eq_residue_iff (h.log2_modulus hk).2]
  simp only [residue_fadd hk, residue_fmul hk, residue_xor, residue_clmul]

end

/-- Settles O38: the two sides that `on_curve` compares are canonical, and have the residues of the two sides of the
equation. -/
theorem curveEquations : Obligations.CurveEquations := by
  intro c e x y h
  refine ⟨onCurve_infinity_iff, fun hk => ?_, fun hk hf hb => onCurve_weierstrass_binary_iff h hk hf hb x y⟩
  split
  case h_1 hf => exact onCurve_weierstrass_prime_iff h hk hf x y
  case h_2 hf => exact onCurve_montgomery_prime_iff h hk hf x y
  case h_3 hf => exact onCurve_edwards_prime_iff h hk hf x y

/-! ### The check of the coefficients (40_control.md R136) -/

section
variable {c : FieldCfg} {form : CurveForm} {c1 c2 : Nat}

theorem weierstrass_or_prime_of_notDegenerate (h : NotDegenerate c form c1 c2) :
    form = .weierstrass ∨ c.kind = .prime := by
  cases hk : c.kind with
  | prime => exact .inr rfl
  | binary =>
    cases form with
    | weierstrass => exact .inl rfl
    | montgomery | edwards => simp [NotDegenerate, hk] at h

theorem curveOk_weierstrass_prime_iff (h : FieldWf c) (hk : c.kind = .prime) :
    curveOk c .weierstrass c1 c2 = true ↔ NotDegenerate c .weierstrass c1 c2 := by
  simp only [curveOk, NotDegenerate, hk, bne_iff_ne]
  refine (ne_zero_iff_emod_ne_zero hk (canon_fadd_prime hk h _ _)
    (z := ((4 * c1 ^ 3 + 27 * c2 ^ 2 : Nat) : Int)) ?_).trans (by norm_cast)
  push_cast [cast_fadd hk, cast_fmul hk, cast_fnorm hk]
  ring

theorem curveOk_montgomery_prime_iff (h : FieldWf c) (hk : c.kind = .prime) :
    curveOk c .montgomery c1 c2 = true ↔ NotDegenerate c .montgomery c1 c2 := by
  simp only [curveOk, NotDegenerate, hk, bne_iff_ne]
  refine ne_zero_iff_emod_ne_zero hk (canon_fmul h _ _) ?_
  push_cast [cast_fmul hk, cast_fsub hk h.modulus_pos, cast_fnorm hk]
  ring

/-- Over an admitted field `curve_ok` is the condition of R136 on the integers. -/
theorem curveOk_iff (h : FieldWf c) (hadm : form = .weierstrass ∨ c.kind = .prime) :
    curveOk c form c1 c2 = true ↔ NotDegenerate c form c1 c2 := by
  cases hk : c.kind with
  | binary =>
    obtain rfl : form = .weierstrass := hadm.resolve_right (by simp [hk])
    simp [curveOk, NotDegenerate, hk]
  | prime =>
    cases form with
    | weierstrass => exact curveOk_weierstrass_prime_iff h hk
    | montgomery => exact curveOk_montgomery_prime_iff h hk
    | edwards => simp [curveOk, NotDegenerate, hk]

end

/-! ### CFGC -/

/-- What committing a curve does (40_control.md R135). -/
theorem commitCurve_complete (s : State) (e : CurveCfg) :
    Succeeds s (s.commitCurve e).complete ∧ SameFlags s (s.commitCurve e).complete
      ∧ (s.commitCurve e).complete.curve = e ∧ (s.commitCurve e).complete.field = s.field
      ∧ SameF s (s.commitCurve e).complete ∧ StaleP s (s.commitCurve e).complete
      ∧ SameK s (s.commitCurve e).complete :=
  ⟨succeeds_of_status rfl rfl rfl ⟨rfl, rfl, rfl, rfl, rfl, rfl, rfl, rfl, rfl⟩, flagOf_complete _, rfl, rfl,
    fun _ => rfl, fun j => by simp [Tag.toStale_eq], fun _ => rfl⟩

section
variable {form : CurveForm} {rs1 rs2 : FIdx} {c1 c2 : Nat}

theorem cfgcSecond_holds (h2 : if form = .edwards then c2 = 0 else HoldsCanon s rs2 c2) :
    cfgcSecond s form rs2 = .ok c2 := by
  cases form with
  | edwards => exact congrArg Except.ok h2.symm
  | weierstrass | montgomery => exact srcF_canon h2

/-- CFGC on operands that can be read (40_control.md R135, R137). -/
theorem cfgcOutcome_holds (hv : s.field.valid = true) (h1 : HoldsCanon s rs1 c1)
    (h2 : if form = .edwards then c2 = 0 else HoldsCanon s rs2 c2) :
    cfgcOutcome form rs1 rs2 s =
      if form ≠ .weierstrass ∧ s.field.kind = .binary then .error .unsupported
      else if curveOk s.field form c1 c2 then
        .ok (s.commitCurve ⟨true, form, BitVec.ofNat _ c1, BitVec.ofNat _ c2⟩)
      else .error .invalidCurveParameters := by
  simp only [cfgcOutcome, needField_valid hv, srcF_canon h1, cfgcSecond_holds h2, ok_bind]

theorem exec_cfgc_error {x : Err} (h : cfgcOutcome form rs1 rs2 s = .error x) :
    ∃ t, exec (.cfgc form rs1 rs2) s = .next t ∧ Raises s t x.code.toNat :=
  ⟨_, by rw [exec_cfgc, h, finish_error], raises_raiseError s x⟩

end

/-- Settles O25: over an admitted field CFGC commits exactly when `curve_ok` holds, which is the condition of the
statement. -/
theorem cfgcResults : Obligations.CfgcResults := by
  intro s form rs1 rs2 c1 c2 hv hw h1 h2
  have hout := cfgcOutcome_holds hv h1 h2
  have hadmitted : form = .weierstrass ∨ s.field.kind = .prime →
      ¬(form ≠ .weierstrass ∧ s.field.kind = .binary) := by
    rintro (h | h) ⟨hne, hb⟩
    · exact hne h
    · simp [h] at hb
  refine ⟨fun hnd => ?_, fun hne hb => ?_, fun hadm hd => ?_⟩
  · have hadm := weierstrass_or_prime_of_notDegenerate hnd
    rw [if_neg (hadmitted hadm), if_pos ((curveOk_iff hw hadm).mpr hnd)] at hout
    exact ⟨_, by rw [exec_cfgc, hout, finish_ok], commitCurve_complete s _⟩
  · rw [if_pos ⟨hne, hb⟩] at hout
    exact exec_cfgc_error hout
  · rw [if_neg (hadmitted hadm), if_neg (mt (curveOk_iff hw hadm).mp hd)] at hout
    exact exec_cfgc_error hout

/-! ### NOP -/

/-- Settles O22: NOP completes the state as it is. -/
theorem nopCompletes : Obligations.NopCompletes := fun s =>
  ⟨s.complete, exec_nop s, writesNoRegister_of rfl rfl rfl rfl, flagOf_complete s⟩

end Sys2Proof.Machine
end

section
/-! Division and the extended Euclid of polynomials over GF(2), and the inverses of both kinds of field. -/

namespace Sys2Proof.Machine

open Polynomial

/-! ### The product (41_field.md R155) -/

@[simp] theorem toPoly_one : toPoly 1 = 1 := by
  ext i
  simp [coeff_toPoly, coeff_one, Nat.testBit_one_eq_true_iff_self_eq_zero]

@[simp] theorem clmul_zero (a : Nat) : clmul a 0 = 0 := toPoly_injective (by simp)
@[simp] theorem clmul_one (a : Nat) : clmul a 1 = a := toPoly_injective (by simp)

theorem clmul_comm (a b : Nat) : clmul a b = clmul b a := toPoly_injective (by simp [mul_comm])

theorem clmul_xor (a b v : Nat) : clmul a (b ^^^ v) = clmul a b ^^^ clmul a v :=
  toPoly_injective (by simp [mul_add])

theorem xor_clmul (a b v : Nat) : clmul (a ^^^ b) v = clmul a v ^^^ clmul b v :=
  toPoly_injective (by simp [add_mul])

theorem clmul_shiftLeft (a b k : Nat) : clmul a (b <<< k) = clmul a b <<< k :=
  toPoly_injective (by simp [mul_assoc])

/-! ### Division (41_field.md R155) -/

theorem pdivmodLoop_snd (g : Nat) : ∀ n q u, (pdivmodLoop n q u g).2 = pmodLoop n u g := by
  intro n
  induction n with
  | zero => exact fun _ _ => rfl
  | succ n ih =>
    intro q u
    rw [pdivmodLoop, pmodLoop]
    split
    · exact ih _ _
    · rfl

/-- The remainder of `pdivmod` is that of `pmod`. -/
@[simp] theorem pdivmod_snd (u g : Nat) : (pdivmod u g).2 = pmod u g := pdivmodLoop_snd g _ _ _

/-- Each pass of `pdivmod` moves a multiple of g from the rest to the quotient. -/
theorem clmul_xor_pdivmodLoop (g : Nat) : ∀ n q u,
    clmul g (pdivmodLoop n q u g).1 ^^^ (pdivmodLoop n q u g).2 = clmul g q ^^^ u := by
  intro n
  induction n with
  | zero => exact fun _ _ => rfl
  | succ n ih =>
    intro q u
    rw [pdivmodLoop]
    split
    · rw [ih, clmul_xor, clmul_shiftLeft, clmul_one]
      simp [Nat.xor_assoc, Nat.xor_comm, Nat.xor_left_comm]
    · rfl

/-- Quotient and remainder give the dividend back. -/
theorem clmul_xor_pmod (u g : Nat) : clmul g (pdivmod u g).1 ^^^ pmod u g = u := by
  have h := clmul_xor_pdivmodLoop g (u.log2 + 1) 0 u
  rw [clmul_zero, Nat.zero_xor] at h
  rw [← pdivmod_snd]
  exact h

/-- The remainder is the dividend with a multiple of the divisor taken away. -/
theorem pmod_eq_xor (u g : Nat) : pmod u g = clmul g (pdivmod u g).1 ^^^ u := by
  calc pmod u g = clmul g (pdivmod u g).1 ^^^ (clmul g (pdivmod u g).1 ^^^ pmod u g) :=
        (Nat.xor_xor_cancel_left _ _).symm
    _ = clmul g (pdivmod u g).1 ^^^ u := by rw [clmul_xor_pmod]

/-- Settles O28: each law is one of the polynomials, and the quotient is that of `pdivmod`. -/
theorem polynomialHelpers : Obligations.PolynomialHelpers := by
  intro a b v f hf
  refine ⟨⟨pmod_lt hf v, (pdivmod v f).1, (clmul_xor_pmod v f).symm⟩, clmul_zero a, clmul_one a, ?_,
    clmul_xor a b v, xor_clmul a b v, clmul_comm a b⟩
  simpa [Nat.shiftLeft_eq, mul_comm] using clmul_shiftLeft a b 1

/-! ### The extended Euclid (41_field.md R157) -/

section
variable {f a : Nat}

@[simp] theorem residue_one : residue f 1 = 1 := by simp [residue]

/-- The passes keep each rest equal to its cofactor times `a`, modulo f. -/
theorem residue_pgcdinvLoop : ∀ n r0 r1 s0 s1, residue f r0 = residue f s0 * residue f a →
    residue f r1 = residue f s1 * residue f a →
    residue f (pgcdinvLoop n r0 r1 s0 s1).1 = residue f (pgcdinvLoop n r0 r1 s0 s1).2 * residue f a := by
  intro n
  induction n with
  | zero => exact fun _ _ _ _ h0 _ => h0
  | succ n ih =>
    intro r0 r1 s0 s1 h0 h1
    rw [pgcdinvLoop]
    split
    · exact h0
    · refine ih _ _ _ _ h1 ?_
      rw [pdivmod_snd, pmod_eq_xor, residue_xor, residue_clmul, residue_xor, residue_clmul, h0, h1]
      ring

/-- The cofactor that `pgcdinv` answers, times `a`, is its gcd modulo f. -/
theorem residue_pgcdinv : residue f (pgcdinv a f).1 = residue f (pgcdinv a f).2 * residue f a :=
  residue_pgcdinvLoop _ _ _ _ _ (by simp [residue]) (by simp)

/-- With a pass for each degree below that of r1, the rest that is answered divides both rests. -/
theorem toPoly_pgcdinvLoop_dvd : ∀ n r0 r1 s0 s1, r1 < 2 ^ n →
    toPoly (pgcdinvLoop (n + 1) r0 r1 s0 s1).1 ∣ toPoly r0 ∧
      toPoly (pgcdinvLoop (n + 1) r0 r1 s0 s1).1 ∣ toPoly r1 := by
  intro n
  induction n with
  | zero =>
    intro r0 r1 s0 s1 h
    obtain rfl : r1 = 0 := by simpa using h
    simp [pgcdinvLoop]
  | succ n ih =>
    intro r0 r1 s0 s1 h
    rw [pgcdinvLoop]
    split
    case isTrue h0 => simp [h0]
    case isFalse h0 =>
      have hlog : r1.log2 ≤ n := Nat.lt_succ_iff.mp ((Nat.log2_lt h0).mpr h)
      have hrest : pmod r0 r1 < 2 ^ n := (pmod_lt h0 r0).trans_le (Nat.pow_le_pow_right two_pos hlog)
      rw [pdivmod_snd]
      obtain ⟨h1, hm⟩ := ih r1 (pmod r0 r1) s1 (s0 ^^^ clmul (pdivmod r0 r1).1 s1) hrest
      have hr0 : toPoly r0 = toPoly r1 * toPoly (pdivmod r0 r1).1 + toPoly (pmod r0 r1) := by
        rw [← toPoly_clmul, ← toPoly_xor, clmul_xor_pmod]
      exact ⟨hr0 ▸ dvd_add (h1.mul_right _) hm, h1⟩

/-- The gcd that `pgcdinv` answers divides both operands. -/
theorem toPoly_pgcdinv_dvd (ha : a < 2 ^ f.log2) :
    toPoly (pgcdinv a f).1 ∣ toPoly f ∧ toPoly (pgcdinv a f).1 ∣ toPoly a :=
  toPoly_pgcdinvLoop_dvd _ _ _ _ _ (ha.trans (Nat.pow_lt_pow_right one_lt_two (Nat.lt_succ_self _)))

/-- The only polynomial over GF(2) that divides 1 is 1. -/
theorem eq_one_of_toPoly_dvd_one {g : Nat} (h : toPoly g ∣ 1) : g = 1 := by
  obtain ⟨u, hu, hg⟩ := isUnit_iff.mp (isUnit_of_dvd_one h)
  refine toPoly_injective ?_
  rw [← hg, isUnit_iff_eq_one.mp hu, toPoly_one, C_1]

/-- An `a` with an inverse modulo f has gcd 1 with f. -/
theorem pgcdinv_fst_eq_one {r : Nat} (ha : a < 2 ^ f.log2) (h : residue f a * residue f r = 1) :
    (pgcdinv a f).1 = 1 := by
  obtain ⟨hf, hga⟩ := toPoly_pgcdinv_dvd ha
  have hmod : toPoly f ∣ toPoly a * toPoly r - 1 := by
    rw [← AdjoinRoot.mk_eq_mk, map_mul, map_one]
    exact h
  exact eq_one_of_toPoly_dvd_one ((dvd_sub_right (hga.mul_right _)).mp (hf.trans hmod))

end

/-! ### Inverses (41_field.md R158) -/

section
variable {c : FieldCfg}

@[simp] theorem finv_zero : finv c 0 = .error .divisionByZero := rfl

theorem finv_prime (hk : c.kind = .prime) {a : Nat} (ha : a ≠ 0) : finv c a = .ok (powNat c a (c.modulus - 2)) := by
  simp [finv, hk, ha]

theorem finv_binary (hk : c.kind = .binary) {a : Nat} (ha : a ≠ 0) :
    finv c a = if (pgcdinv a c.modulus).1 = 1 then .ok (pmod (pgcdinv a c.modulus).2 c.modulus)
      else .error .notInvertible := by
  simp only [finv, hk, if_neg ha, ne_eq, ite_not]

theorem ne_zero_of_finv_ok {a r : Nat} (hr : finv c a = .ok r) : a ≠ 0 := by
  rintro rfl
  cases hr

theorem fmul_finv_prime (h : FieldWf c) (hk : c.kind = .prime) (hp : Nat.Prime c.modulus) {a r : Nat}
    (ha : canon c a = true) (hr : finv c a = .ok r) : fmul c a r = 1 := by
  have : Fact (Nat.Prime c.modulus) := ⟨hp⟩
  have hne : (a : ZMod c.modulus) ≠ 0 := mt (cast_eq_zero_iff hk ha).mp (ne_zero_of_finv_ok hr)
  obtain ⟨i, hi, hc⟩ := cast_finv hk hp hne
  obtain rfl : i = r := Except.ok.inj (hi.symm.trans hr)
  refine eq_of_cast_eq hk (canon_fmul h _ _) (canon_one h) ?_
  rw [cast_fmul hk, hc, mul_inv_cancel₀ hne, Nat.cast_one]

theorem fmul_finv_binary (h : FieldWf c) (hk : c.kind = .binary) {a r : Nat} (hr : finv c a = .ok r) :
    fmul c a r = 1 := by
  rw [finv_binary hk (ne_zero_of_finv_ok hr)] at hr
  split at hr
  case isFalse => cases hr
  case isTrue hg =>
    cases hr
    rw [eq_iff_residue_eq hk h (canon_fmul h _ _) (canon_one h), residue_fmul hk, residue_pmod, mul_comm,
      ← residue_pgcdinv, hg]

/-- Over a binary field the operands refused are those without an inverse. -/
theorem finv_notInvertible_iff (h : FieldWf c) (hk : c.kind = .binary) {a : Nat} (ha : canon c a = true)
    (h0 : a ≠ 0) : finv c a = .error .notInvertible ↔ ∀ r, canon c r = true → fmul c a r ≠ 1 := by
  have hout := finv_binary hk h0
  constructor
  · intro he r _ hm
    have hunit : residue c.modulus a * residue c.modulus r = 1 := by rw [← residue_fmul hk, hm, residue_one]
    rw [canon_binary hk, ← (h.log2_modulus hk).1] at ha
    rw [he, if_pos (pgcdinv_fst_eq_one ha hunit)] at hout
    cases hout
  · intro hno
    split at hout
    · exact absurd (fmul_finv_binary h hk hout) (hno _ (canon_finv h hout))
    · exact hout

end

/-- Settles O30: Fermat's inverse modulo a prime, and the extended Euclid modulo a polynomial, whose gcd is 1 exactly
for the elements with an inverse. -/
theorem inverseMultipliesBack : Obligations.InverseMultipliesBack := by
  refine ⟨fun c a r h hp ha hr => ⟨canon_finv h hr, ?_⟩, fun c a h hk => finv_notInvertible_iff h hk⟩
  cases hk : c.kind with
  | prime => exact fmul_finv_prime h hk (hp hk) ha hr
  | binary => exact fmul_finv_binary h hk hr

end Sys2Proof.Machine
end

section
/-! Powers and square roots in the field: the squaring loop is repeated multiplication. -/

namespace Sys2Proof.Machine

variable {c : FieldCfg}

/-! ### The product (41_field.md R156) -/

theorem fmul_assoc (h : FieldWf c) (a b d : Nat) : fmul c (fmul c a b) d = fmul c a (fmul c b d) := by
  cases hk : c.kind with
  | prime =>
    refine eq_of_cast_eq hk (canon_fmul h _ _) (canon_fmul h _ _) ?_
    simp only [cast_fmul hk, mul_assoc]
  | binary =>
    rw [eq_iff_residue_eq hk h (canon_fmul h _ _) (canon_fmul h _ _)]
    simp only [residue_fmul hk, mul_assoc]

theorem one_fmul (h : FieldWf c) {a : Nat} (ha : canon c a = true) : fmul c 1 a = a := by
  cases hk : c.kind with
  | prime => exact eq_of_cast_eq hk (canon_fmul h _ _) ha (by simp [cast_fmul hk])
  | binary =>
    rw [eq_iff_residue_eq hk h (canon_fmul h _ _) ha]
    simp [residue_fmul hk]

/-- Multiplying by a square is multiplying twice. -/
theorem fmul_square_eq_iterate (h : FieldWf c) (a : Nat) :
    (fun r => fmul c r (fmul c a a)) = (fun r => fmul c r a)^[2] :=
  funext fun r => (fmul_assoc h r a a).symm

/-! ### Powers (41_field.md R160) -/

/-- The squaring loop multiplies `r` by `base` e times. -/
theorem powLoop_eq_iterate (h : FieldWf c) : ∀ n e base r, e < 2 ^ n →
    powLoop c n e base r = (fun x => fmul c x base)^[e] r := by
  intro n
  induction n with
  | zero =>
    intro e base r he
    obtain rfl : e = 0 := by simpa using he
    rfl
  | succ n ih =>
    intro e base r he
    rw [powLoop, ih _ _ _ (by omega), fmul_square_eq_iterate h, ← Function.iterate_mul]
    split
    case isTrue hodd =>
      rw [← Function.iterate_succ_apply (fun x => fmul c x base)]
      congr 1
      omega
    case isFalse heven =>
      congr 1
      omega

/-- A power is the product of e factors. -/
theorem powNat_eq_iterate (h : FieldWf c) (a e : Nat) : powNat c a e = (fun r => fmul c r a)^[e] 1 := by
  rw [powNat]
  split
  case isTrue he => rw [he]; rfl
  case isFalse => exact powLoop_eq_iterate h _ _ _ _ Nat.lt_log2_self

/-- The power 2^n is n squarings. -/
theorem powNat_two_pow (h : FieldWf c) (n : Nat) {a : Nat} (ha : canon c a = true) :
    powNat c a (2 ^ n) = (fun r => fmul c r r)^[n] a := by
  rw [powNat_eq_iterate h]
  induction n generalizing a with
  | zero => exact one_fmul h ha
  | succ n ih =>
    rw [pow_succ', Function.iterate_mul, ← fmul_square_eq_iterate h, ih (canon_fmul h a a)]
    rfl

theorem fpow_zero (a : Nat) (neg : Bool) : fpow c a 0 neg = .ok 1 := rfl

theorem fpow_pos (h : FieldWf c) (a e : Nat) : fpow c a e false = .ok ((fun r => fmul c r a)^[e] 1) := by
  rw [← powNat_eq_iterate h, fpow]
  split
  case isTrue he => rw [he]; rfl
  case isFalse => rfl

/-- A negative power is that of the inverse, with its error. -/
theorem fpow_neg (h : FieldWf c) (a : Nat) {e : Nat} (he : e ≠ 0) :
    fpow c a e true = finv c a >>= fun i => .ok ((fun r => fmul c r i)^[e] 1) := by
  simp only [fpow, if_neg he, if_true, ← powNat_eq_iterate h]
  rfl

/-! ### Square roots (41_field.md R161) -/

theorem fsqrt_binary (h : FieldWf c) (hk : c.kind = .binary) {a : Nat} (ha : canon c a = true) :
    fsqrt c a = .ok (some ((fun r => fmul c r r)^[c.degree - 1] a)) := by
  simp only [fsqrt, hk, powNat_two_pow h _ ha]

/-- Over a prime field Euler's criterion and the shape of p decide. -/
theorem fsqrt_prime (h : FieldWf c) (hk : c.kind = .prime) (a : Nat) :
    fsqrt c a = if a = 0 then .ok (some 0)
      else if a ^ ((c.modulus - 1) / 2) % c.modulus ≠ 1 then .ok none
      else if c.modulus % 4 = 3 then .ok (some (a ^ ((c.modulus + 1) / 4) % c.modulus))
      else .error .unsupported := by
  have hp : 1 < c.modulus := (canon_prime hk 1).mp (canon_one h)
  simp only [fsqrt, hk, powNat_prime hk hp]

theorem FieldWf.modulus_odd (h : FieldWf c) (hk : c.kind = .prime) : c.modulus % 2 = 1 := by
  simp only [FieldWf, hk] at h
  exact h.2.1

/-- Euler's criterion, on the residue. -/
theorem pow_mod_eq_one_iff (hp : 1 < c.modulus) (a e : Nat) :
    a ^ e % c.modulus = 1 ↔ (a : ZMod c.modulus) ^ e = 1 := by
  rw [← Nat.cast_pow, ← Nat.cast_one (R := ZMod c.modulus), ZMod.natCast_eq_natCast_iff', Nat.mod_eq_of_lt hp]

/-- An operand that passes Euler's criterion is the square of its power (p + 1) / 4 when p mod 4 = 3. -/
theorem fmul_root_self (h : FieldWf c) (hk : c.kind = .prime) {a : Nat} (ha : canon c a = true)
    (h3 : c.modulus % 4 = 3) (he : a ^ ((c.modulus - 1) / 2) % c.modulus = 1) :
    fmul c (a ^ ((c.modulus + 1) / 4) % c.modulus) (a ^ ((c.modulus + 1) / 4) % c.modulus) = a := by
  rw [pow_mod_eq_one_iff (by omega)] at he
  refine eq_of_cast_eq hk (canon_fmul h _ _) ha ?_
  have hexp : (c.modulus + 1) / 4 + (c.modulus + 1) / 4 = (c.modulus - 1) / 2 + 1 := by omega
  rw [cast_fmul hk, ZMod.natCast_mod, Nat.cast_pow, ← pow_add, hexp, pow_succ, he, one_mul]

/-- A nonzero square passes Euler's criterion modulo an odd prime. -/
theorem euler_of_fmul_self (hk : c.kind = .prime) (hp : Nat.Prime c.modulus) (hodd : c.modulus % 2 = 1) {a r : Nat}
    (ha : canon c a = true) (h0 : a ≠ 0) (hr : fmul c r r = a) : a ^ ((c.modulus - 1) / 2) % c.modulus = 1 := by
  have : Fact (Nat.Prime c.modulus) := ⟨hp⟩
  have hne : (a : ZMod c.modulus) ≠ 0 := mt (cast_eq_zero_iff hk ha).mp h0
  have hsq : IsSquare (a : ZMod c.modulus) := ⟨r, by rw [← cast_fmul hk, hr]⟩
  rw [pow_mod_eq_one_iff hp.one_lt, show (c.modulus - 1) / 2 = c.modulus / 2 by omega]
  exact (ZMod.euler_criterion c.modulus hne).mp hsq

/-- Settles O33: a root has the exponent (p + 1) / 4, and NR is answered where Euler's criterion fails. -/
theorem squareRootIsARoot : Obligations.SquareRootIsARoot := by
  rintro c a h ⟨hk, hp⟩ ha
  rw [fsqrt_prime h hk]
  by_cases h0 : a = 0
  · simp [h0, fmul, hk]
  rw [if_neg h0]
  by_cases he : a ^ ((c.modulus - 1) / 2) % c.modulus = 1
  · rw [if_neg (not_not_intro he)]
    split
    case isTrue h3 => simpa using fmul_root_self h hk ha h3 he
    case isFalse => simp
  · rw [if_pos he]
    exact ⟨by simp, fun _ r hr => he (euler_of_fmul_self hk hp (h.modulus_odd hk) ha h0 hr)⟩

end Sys2Proof.Machine
end

section
/-! The results of the F commands: each reads its operands and ends with the answer of its primitive. -/

namespace Sys2Proof.Machine

open Sys2Proof.Stated

variable {s : State}

/-! ### Ending with a value -/

section
variable {i : Instr} {rd : FIdx} {o : Except Err Nat}
  (hx : exec i s = finish s (o >>= fun r => .ok (s.putF rd r)))
include hx

theorem exec_writesF {r : Nat} (ho : o = .ok r) : ∃ t, exec i s = .next t ∧ WritesF s t rd r := by
  subst ho
  exact ⟨_, hx, writesF_putF s rd r⟩

theorem exec_raises {e : Err} (ho : o = .error e) : ∃ t, exec i s = .next t ∧ Raises s t e.code.toNat := by
  subst ho
  exact ⟨_, hx, raises_raiseError s e⟩

end

/-! ### The commands, on operands that can be read -/

section
variable {rd rs1 rs2 : FIdx} {a b v : Nat} (hv : s.field.valid = true)
include hv

theorem exec_fadd_holds (ha : HoldsCanon s rs1 a) (hb : HoldsCanon s rs2 b) :
    ∃ t, exec (.fadd rd rs1 rs2) s = .next t ∧ WritesF s t rd (fadd s.field a b) :=
  exec_writesF ((exec_fadd ..).trans (binaryF_holds hv ha hb)) rfl

theorem exec_fsub_holds (ha : HoldsCanon s rs1 a) (hb : HoldsCanon s rs2 b) :
    ∃ t, exec (.fsub rd rs1 rs2) s = .next t ∧ WritesF s t rd (fsub s.field a b) :=
  exec_writesF ((exec_fsub ..).trans (binaryF_holds hv ha hb)) rfl

theorem exec_fmul_holds (ha : HoldsCanon s rs1 a) (hb : HoldsCanon s rs2 b) :
    ∃ t, exec (.fmul rd rs1 rs2) s = .next t ∧ WritesF s t rd (fmul s.field a b) :=
  exec_writesF ((exec_fmul ..).trans (binaryF_holds hv ha hb)) rfl

theorem exec_fneg_holds (ha : HoldsCanon s rs1 a) :
    ∃ t, exec (.fneg rd rs1) s = .next t ∧ WritesF s t rd (fneg s.field a) :=
  exec_writesF ((exec_fneg ..).trans (unaryF_canon hv ha)) rfl

theorem exec_fmov_holds (ha : HoldsF s rs1 v) : ∃ t, exec (.fmov rd rs1) s = .next t ∧ WritesF s t rd v :=
  exec_writesF ((exec_fmov ..).trans (unaryF_holds hv ha)) rfl

theorem exec_fred_holds (ha : HoldsF s rs1 v) :
    ∃ t, exec (.fred rd rs1) s = .next t ∧ WritesF s t rd (fnorm s.field v) :=
  exec_writesF ((exec_fred ..).trans (unaryF_holds hv ha)) rfl

theorem exec_fldi_valid (imm : BitVec 12) :
    ∃ t, exec (.fldi rd imm) s = .next t ∧ WritesF s t rd (fnorm s.field imm.toNat) := by
  refine exec_writesF (o := .ok (fnorm s.field imm.toNat)) ?_ rfl
  show finish s (do needField s; return s.putF rd (fnorm s.field (immValue imm))) = _
  rw [needField_valid hv]
  rfl

theorem exec_fcmp_holds (ha : HoldsCanon s rs1 a) (hb : HoldsCanon s rs2 b) :
    exec (.fcmp rs1 rs2) s = .next (s.setZ (a == b)).complete := by
  show finish s (do
    needField s; let a ← srcF s rs1 true; let b ← srcF s rs2 true; return s.setZ (a == b)) = _
  rw [needField_valid hv, srcF_canon ha, srcF_canon hb]
  rfl

theorem exec_fpow_holds {rs2 : KIdx} {e : Nat} (neg : Bool) (ha : HoldsCanon s rs1 a) (he : HoldsK s rs2 e) :
    exec (.fpow rd rs1 rs2 neg) s = finish s (fpow s.field a e neg >>= fun r => .ok (s.putF rd r)) := by
  show finish s (do
    needField s; let a ← srcF s rs1 true; let e ← srcK s rs2
    let r ← fpow s.field a e neg
    return s.putF rd r) = _
  rw [needField_valid hv, srcF_canon ha, srcK_holds he]
  rfl

theorem exec_fsqrt_holds (ha : HoldsCanon s rs1 a) :
    exec (.fsqrt rd rs1) s = finish s (fsqrt s.field a >>= fun r => .ok (s.putRoot rd r)) := by
  show finish s (do
    needField s; let a ← srcF s rs1 true; let r ← fsqrt s.field a; return s.putRoot rd r) = _
  rw [needField_valid hv, srcF_canon ha]
  rfl

theorem exec_fsqrt_root (ha : HoldsCanon s rs1 a) (hr : fsqrt s.field a = .ok (some v)) :
    ∃ t, exec (.fsqrt rd rs1) s = .next t ∧ WritesRoot s t rd v :=
  ⟨_, by rw [exec_fsqrt_holds hv ha, hr]; rfl, rfl, writesF_putF s rd v⟩

theorem exec_fsqrt_none (ha : HoldsCanon s rs1 a) (hr : fsqrt s.field a = .ok none) :
    exec (.fsqrt rd rs1) s = .next (s.setNR true).complete := by
  rw [exec_fsqrt_holds hv ha, hr]
  rfl

theorem exec_fsqrt_error {x : Err} (ha : HoldsCanon s rs1 a) (hr : fsqrt s.field a = .error x) :
    ∃ t, exec (.fsqrt rd rs1) s = .next t ∧ Raises s t x.code.toNat :=
  ⟨_, by rw [exec_fsqrt_holds hv ha, hr]; rfl, raises_raiseError s x⟩

end

/-! ### Ring commands (41_field.md R162–R164, R169) -/

/-- Settles O27: the primitive of each command, by the kind of the field. -/
theorem ringCommandResults : Obligations.RingCommandResults := by
  intro s rd rs1 rs2 a b hv ha
  have hlt : ∀ {v}, canon s.field v = true → s.field.kind = .prime → v ≤ s.field.modulus :=
    fun hc hk => ((canon_prime hk _).mp hc).le
  refine ⟨fun hk => ?_, fun hk => ?_, fun hb hk => ⟨?_, ?_, ?_⟩, fun hb hk => ⟨?_, ?_, ?_⟩⟩
  · simpa [fneg_prime hk (hlt ha.2 hk)] using exec_fneg_holds (rd := rd) hv ha
  · simpa [fneg, hk] using exec_fneg_holds (rd := rd) hv ha
  · simpa [fadd, hk] using exec_fadd_holds (rd := rd) hv ha hb
  · simpa [fsub_prime hk (hlt hb.2 hk)] using exec_fsub_holds (rd := rd) hv ha hb
  · simpa [fmul, hk] using exec_fmul_holds (rd := rd) hv ha hb
  · simpa [fadd, hk] using exec_fadd_holds (rd := rd) hv ha hb
  · simpa [fsub, hk] using exec_fsub_holds (rd := rd) hv ha hb
  · simpa [fmul, hk] using exec_fmul_holds (rd := rd) hv ha hb

/-! ### Inverse and quotient (41_field.md R165, R166) -/

section
variable {c : FieldCfg}

/-- Fermat's exponent, whatever canonical operand there is. -/
theorem finv_prime_canon (hk : c.kind = .prime) {a : Nat} (ha : canon c a = true) (h0 : a ≠ 0) :
    finv c a = .ok (a ^ (c.modulus - 2) % c.modulus) := by
  rw [canon_prime hk] at ha
  rw [finv_prime hk h0, powNat_prime hk (by omega)]

theorem fdiv_eq_bind (a b : Nat) : fdiv c a b = finv c b >>= fun i => .ok (fmul c a i) := rfl

end

/-- Settles O29: `finv` of the operand or of the divisor, by the kind of the field. -/
theorem inverseAndDivisionResults : Obligations.InverseAndDivisionResults := by
  intro s rd rs1 rs2 a b hv ha hb
  have hinv : exec (.finv rd rs1) s = _ := (exec_finv ..).trans (unaryF_canon hv ha)
  have hdiv : exec (.fdiv rd rs1 rs2) s = _ := (exec_fdiv ..).trans (binaryF_holds hv ha hb)
  refine ⟨fun h0 => ?_, fun h0 => ?_, fun hk h0 => ?_, fun hk h0 => ?_, fun hk h0 => ?_, fun hk h0 => ?_⟩
  · exact exec_raises hinv (by rw [h0, finv_zero])
  · exact exec_raises hdiv (by rw [fdiv_eq_bind, h0, finv_zero, error_bind])
  · exact exec_writesF hinv (finv_prime_canon hk ha.2 h0)
  · refine exec_writesF hdiv ?_
    rw [fdiv_eq_bind, finv_prime_canon hk hb.2 h0, ok_bind]
    simp [fmul, hk]
  · split
    case isTrue hg => exact exec_writesF hinv (by rw [finv_binary hk h0, if_pos hg])
    case isFalse hg => exact exec_raises hinv (by rw [finv_binary hk h0, if_neg hg])
  · split
    case isTrue hg => exact exec_writesF hdiv (by rw [fdiv_eq_bind, finv_binary hk h0, if_pos hg, ok_bind])
    case isFalse hg => exact exec_raises hdiv (by rw [fdiv_eq_bind, finv_binary hk h0, if_neg hg, error_bind])

/-! ### Powers and roots (41_field.md R167, R168) -/

/-- Settles O31: the power is repeated multiplication (`powNat_eq_iterate`), of the inverse for a negative sign. -/
theorem powerResults : Obligations.PowerResults := by
  intro s rd rs1 rs2 a e hv hw ha he
  have hneg : exec (.fpow rd rs1 rs2 true) s = _ := exec_fpow_holds hv true ha he
  refine ⟨?_, fun h0 => ?_, fun h0 i hi => ?_, fun h0 x hx => ?_⟩
  · exact exec_writesF (exec_fpow_holds hv false ha he) (fpow_pos hw a e)
  · exact exec_writesF hneg (by rw [h0, fpow_zero])
  · exact exec_writesF hneg (by rw [fpow_neg hw a h0, hi, ok_bind])
  · exact exec_raises hneg (by rw [fpow_neg hw a h0, hx, error_bind])

/-- Settles O32: the branches of `fsqrt_prime`, and the squarings of a binary field. -/
theorem squareRootResults : Obligations.SquareRootResults := by
  intro s rd rs1 a hv hw ha
  refine ⟨fun hk h0 => ?_, fun hk h0 he => ?_, fun hk h0 he h3 => ?_, fun hk h0 he h1 => ?_, fun hk => ?_⟩
  · exact exec_fsqrt_root hv ha (by rw [fsqrt_prime hw hk, if_pos h0])
  · exact ⟨_, exec_fsqrt_none hv ha (by rw [fsqrt_prime hw hk, if_neg h0, if_pos he]),
      writesNoRegister_of rfl rfl rfl rfl, rfl, rfl, rfl, rfl⟩
  · exact exec_fsqrt_root hv ha (by rw [fsqrt_prime hw hk, if_neg h0, if_neg (not_not_intro he), if_pos h3])
  · exact exec_fsqrt_error hv ha
      (by rw [fsqrt_prime hw hk, if_neg h0, if_neg (not_not_intro he), if_neg (by omega)])
  · exact exec_fsqrt_root hv ha (fsqrt_binary hw hk ha.2)

/-! ### Move, reduction, load and comparison (41_field.md R170–R173) -/

/-- Settles O34: the value read, its `fnorm` by the kind of the field, and the flag of the comparison. -/
theorem moveReduceLoadCompareResults : Obligations.MoveReduceLoadCompareResults := by
  intro s rd rs1 rs2 imm v a b hv
  refine ⟨exec_fmov_holds hv, fun h hk => ?_, fun h hk => ?_, fun hk => ?_, fun hk => ?_, fun ha hb => ?_⟩
  · simpa [fnorm, hk] using exec_fred_holds (rd := rd) hv h
  · simpa [fnorm, hk] using exec_fred_holds (rd := rd) hv h
  · simpa [fnorm, hk] using exec_fldi_valid (rd := rd) hv imm
  · simpa [fnorm, hk] using exec_fldi_valid (rd := rd) hv imm
  · exact ⟨_, exec_fcmp_holds hv ha hb, writesNoRegister_of rfl rfl rfl rfl, rfl, rfl, rfl, rfl⟩

end Sys2Proof.Machine
end

section
/-! The Montgomery primitives and their commands: on residues R and R⁻¹ cancel, so each law is one of the ring of
residues modulo p, prime or composite. -/

namespace Sys2Proof.Machine

open Sys2Proof.Stated

/-! ### Residues of the primitives (42_montmul.md R190) -/

section
variable {c : FieldCfg}

theorem cast_mont (a b : Nat) : ((mont c a b : Nat) : ZMod c.modulus) = a * b * montRinv c := by simp [mont]
theorem cast_mtom (a : Nat) : ((mtom c a : Nat) : ZMod c.modulus) = a * montR := by simp [mtom]
theorem cast_mfrom (a : Nat) : ((mfrom c a : Nat) : ZMod c.modulus) = a * montRinv c := by simp [mfrom]

theorem canon_mont (h : FieldWf c) (hk : c.kind = .prime) (a b : Nat) : canon c (mont c a b) = true :=
  canon_mod h hk _
theorem canon_mtom (h : FieldWf c) (hk : c.kind = .prime) (a : Nat) : canon c (mtom c a) = true := canon_mod h hk _
theorem canon_mfrom (h : FieldWf c) (hk : c.kind = .prime) (a : Nat) : canon c (mfrom c a) = true :=
  canon_mod h hk _

theorem cast_montR_mul_montRinv (h : FieldWf c) (hk : c.kind = .prime) :
    (montR : ZMod c.modulus) * montRinv c = 1 := by
  rw [montR, Nat.cast_pow, mul_comm]
  exact cast_montRinv (h.modulus_odd hk)

/-! ### The laws (42_montmul.md R195) -/

/-- What R190 asks of `mont`: times R it is the product. -/
theorem mtom_mont (h : FieldWf c) (hk : c.kind = .prime) (a b : Nat) : mtom c (mont c a b) = fmul c a b := by
  refine eq_of_cast_eq hk (canon_mtom h hk _) (canon_fmul h _ _) ?_
  rw [cast_mtom, cast_mont, cast_fmul hk]
  linear_combination (a * b : ZMod c.modulus) * cast_montR_mul_montRinv h hk

/-- What R190 asks of `mfrom`: times R it is the operand. -/
theorem mtom_mfrom (h : FieldWf c) (hk : c.kind = .prime) {a : Nat} (ha : canon c a = true) :
    mtom c (mfrom c a) = a := by
  refine eq_of_cast_eq hk (canon_mtom h hk _) ha ?_
  rw [cast_mtom, cast_mfrom]
  linear_combination (a : ZMod c.modulus) * cast_montR_mul_montRinv h hk

theorem mfrom_mtom (h : FieldWf c) (hk : c.kind = .prime) {a : Nat} (ha : canon c a = true) :
    mfrom c (mtom c a) = a := by
  refine eq_of_cast_eq hk (canon_mfrom h hk _) ha ?_
  rw [cast_mfrom, cast_mtom]
  linear_combination (a : ZMod c.modulus) * cast_montR_mul_montRinv h hk

theorem mont_mtom (h : FieldWf c) (hk : c.kind = .prime) (a b : Nat) : mont c a (mtom c b) = fmul c a b := by
  refine eq_of_cast_eq hk (canon_mont h hk _ _) (canon_fmul h _ _) ?_
  rw [cast_mont, cast_mtom, cast_fmul hk]
  linear_combination (a * b : ZMod c.modulus) * cast_montR_mul_montRinv h hk

theorem fmul_mtom (h : FieldWf c) (hk : c.kind = .prime) (a b : Nat) : fmul c (mtom c a) b = mtom c (fmul c a b) := by
  refine eq_of_cast_eq hk (canon_fmul h _ _) (canon_mtom h hk _) ?_
  rw [cast_fmul hk, cast_mtom, cast_mtom, cast_fmul hk]
  ring

theorem mont_comm (a b : Nat) : mont c a b = mont c b a := by rw [mont, mont, mul_comm a]

end

/-- Settles O37: each law by its own lemma, the first by `mont_mtom` on an operand in the Montgomery domain. -/
theorem montgomeryLaws : Obligations.MontgomeryLaws := fun _ a b h hk ha _ =>
  ⟨(mont_mtom h hk _ b).trans (fmul_mtom h hk a b), mfrom_mtom h hk ha, mtom_mfrom h hk ha, mont_comm a b,
    mont_mtom h hk a b⟩

/-! ### The commands (42_montmul.md R191–R193) -/

theorem primeOnly_prime {c : FieldCfg} (hk : c.kind = .prime) (r : Nat) : primeOnly c r = .ok r := by
  rw [primeOnly, hk]

theorem primeOnly_binary {c : FieldCfg} (hk : c.kind = .binary) (r : Nat) : primeOnly c r = .error .unsupported := by
  rw [primeOnly, hk]

/-- Settles O36: the primitive of each command over a prime field, with `mtom` for the product by R, and the refusal
of `primeOnly` over a binary one. -/
theorem montgomeryResults : Obligations.MontgomeryResults := by
  intro s rd rs1 rs2 a b hv hw ha hb
  have hmul : exec (.mmul rd rs1 rs2) s = _ := (exec_mmul ..).trans (binaryF_holds hv ha hb)
  have hto : exec (.mtom rd rs1) s = _ := (exec_mtom ..).trans (unaryF_canon hv ha)
  have hfrom : exec (.mfrom rd rs1) s = _ := (exec_mfrom ..).trans (unaryF_canon hv ha)
  refine ⟨fun hk => ⟨?_, ?_, ?_⟩, fun hk => ⟨?_, ?_, ?_⟩⟩
  · obtain ⟨t, ht, hr⟩ := exec_writesF hmul (primeOnly_prime hk _)
    have hprod : mtom s.field (mont s.field a b) = a * b % s.field.modulus := by
      simpa [fmul, hk] using mtom_mont hw hk a b
    exact ⟨t, _, ht, hr, (canon_prime hk _).mp (canon_mont hw hk a b), hprod⟩
  · exact exec_writesF hto (primeOnly_prime hk _)
  · obtain ⟨t, ht, hr⟩ := exec_writesF hfrom (primeOnly_prime hk _)
    exact ⟨t, _, ht, hr, (canon_prime hk _).mp (canon_mfrom hw hk a), mtom_mfrom hw hk ha.2⟩
  · exact exec_raises hmul (primeOnly_binary hk _)
  · exact exec_raises hto (primeOnly_binary hk _)
  · exact exec_raises hfrom (primeOnly_binary hk _)

end Sys2Proof.Machine
end

section
/-! The commands that make, read, move and negate a point, and PADD and PDBL: each ends with the answer of its
primitive. -/

namespace Sys2Proof.Machine

open Sys2Proof.Stated

variable {s : State}

/-! ### Ending with a point -/

theorem endsWithPoint_of_exec {i : Instr} {rd : PIdx} {o : Except Err Point}
    (hx : exec i s = finish s (o >>= fun r => .ok (s.putP rd r))) : EndsWithPoint s rd i o := by
  constructor
  · rintro pt rfl
    exact ⟨_, hx, writesP_putP s rd pt⟩
  · rintro e rfl
    exact ⟨_, hx, raises_raiseError s e⟩

/-- `checked` is `chk` after the computation (43_point.md R203). -/
theorem checked_eq_bind (s : State) (r : Except Err Point) : checked s r = r >>= chk s.field s.curve := by
  cases r <;> rfl

theorem checked_padd (s : State) (p q : Point) :
    checked s (padd s.field s.curve p q) = paddChk s.field s.curve p q := checked_eq_bind ..

theorem checked_pdbl (s : State) (p : Point) : checked s (pdbl s.field s.curve p) = pdblChk s.field s.curve p :=
  checked_eq_bind ..

section
variable {rd rs1 rs2 : PIdx} {a b : Point} (hv : s.curve.valid = true)
include hv

theorem exec_pset_holds {fs1 fs2 : FIdx} {x y : Nat} (hx : HoldsCanon s fs1 x) (hy : HoldsCanon s fs2 y) :
    EndsWithPoint s rd (.pset rd fs1 fs2) (chk s.field s.curve (.affine x y)) := by
  refine endsWithPoint_of_exec ?_
  show finish s (do
    needCurve s; let x ← srcF s fs1 true; let y ← srcF s fs2 true
    let pt ← chk s.field s.curve (.affine x y)
    return s.putP rd pt) = _
  rw [needCurve_valid hv, srcF_canon hx, srcF_canon hy]
  rfl

theorem exec_pinf_valid : EndsWithPoint s rd (.pinf rd) (chk s.field s.curve (ident s.curve)) := by
  refine endsWithPoint_of_exec ?_
  show finish s (do needCurve s; let pt ← chk s.field s.curve (ident s.curve); return s.putP rd pt) = _
  rw [needCurve_valid hv]
  rfl

theorem exec_pmov_holds (ha : HoldsP s rs1 a) : EndsWithPoint s rd (.pmov rd rs1) (chk s.field s.curve a) :=
  endsWithPoint_of_exec ((exec_pmov ..).trans (unaryP_holds hv ha))

theorem exec_pneg_holds (ha : HoldsP s rs1 a) :
    EndsWithPoint s rd (.pneg rd rs1) (chk s.field s.curve (pneg s.field s.curve a)) :=
  endsWithPoint_of_exec ((exec_pneg ..).trans (unaryP_holds hv ha))

theorem exec_padd_holds (ha : HoldsP s rs1 a) (hb : HoldsP s rs2 b) :
    EndsWithPoint s rd (.padd rd rs1 rs2) (paddChk s.field s.curve a b) :=
  endsWithPoint_of_exec (execPadd_holds hv ha hb)

theorem exec_pdbl_holds (ha : HoldsP s rs1 a) : EndsWithPoint s rd (.pdbl rd rs1) (pdblChk s.field s.curve a) :=
  endsWithPoint_of_exec ((exec_pdbl ..).trans (unaryP_holds hv ha))

end

/-! ### PSET, PINF, PGETX and PGETY (43_point.md R210–R213) -/

theorem ident_of_ne_edwards {e : CurveCfg} (hf : e.form ≠ .edwards) : ident e = .infinity := by
  cases h : e.form with
  | edwards => exact absurd h hf
  | weierstrass | montgomery => simp [ident, h]

theorem ident_of_edwards {e : CurveCfg} (hf : e.form = .edwards) : ident e = .affine 0 1 := by
  simp [ident, hf]

/-- Settles O39: `chk` decides PSET, and the identity of the form passes it. -/
theorem pointCreationResults : Obligations.PointCreationResults := by
  refine ⟨fun s rd rs1 rs2 x y hv hx hy => ?_, fun s rd hI hv => ?_⟩
  · obtain ⟨hok, herr⟩ := exec_pset_holds (rd := rd) hv hx hy
    exact ⟨fun h => hok _ (chk_of_onCurve h), fun h => herr _ (chk_of_not_onCurve h)⟩
  · have hid := chk_of_onCurve (onCurve_ident (hI.fieldWf_of_curve hv) (hI.curveWf hv))
    have hend := (exec_pinf_valid (rd := rd) hv).1 _ hid
    exact ⟨fun hf => ident_of_ne_edwards hf ▸ hend, fun hf => ident_of_edwards hf ▸ hend⟩

/-- Settles O40: `getCoord` of an affine point and of O. -/
theorem coordinateResults : Obligations.CoordinateResults := by
  intro s rd rs1 hv
  refine ⟨fun x y hp => ⟨?_, ?_⟩, fun hp => ⟨?_, ?_⟩⟩
  · exact ⟨_, (exec_pgetx ..).trans (getCoord_affine hv hp), writesF_putF s rd x⟩
  · exact ⟨_, (exec_pgety ..).trans (getCoord_affine hv hp), writesF_putF s rd y⟩
  · exact ⟨_, (exec_pgetx ..).trans (getCoord_infinity hv hp), raises_raiseError s .identityCoord⟩
  · exact ⟨_, (exec_pgety ..).trans (getCoord_infinity hv hp), raises_raiseError s .identityCoord⟩

/-! ### PMOV and PNEG (43_point.md R204, R214, R215) -/

section
variable {c : FieldCfg} {e : CurveCfg} {x y : Nat}

theorem pneg_infinity : pneg c e .infinity = .infinity := by
  cases hf : e.form <;> simp [pneg, isId, ident, hf]

theorem pneg_weierstrass_binary (hf : e.form = .weierstrass) (hk : c.kind = .binary) :
    pneg c e (.affine x y) = .affine x y := by
  simp [pneg, isId, ident, hf, hk]

theorem pneg_of_ne_edwards (hf : e.form ≠ .edwards) (hk : c.kind = .prime) :
    pneg c e (.affine x y) = .affine x (fneg c y) := by
  cases h : e.form with
  | edwards => exact absurd h hf
  | weierstrass | montgomery => simp [pneg, isId, ident, h, hk]

theorem fneg_zero : fneg c 0 = 0 := by
  cases hk : c.kind with
  | prime => simp [fneg_prime hk (Nat.zero_le _)]
  | binary => simp [fneg, hk]

theorem pneg_edwards (hf : e.form = .edwards) : pneg c e (.affine x y) = .affine (fneg c x) y := by
  by_cases hid : isId e (.affine x y) = true
  · obtain ⟨rfl, rfl⟩ : x = 0 ∧ y = 1 := by simpa [isId, ident, hf] using hid
    simp [pneg, isId, ident, hf, fneg_zero]
  · simp [pneg, hid, hf]

/-- A square does not see the sign. -/
theorem fmul_fneg_self (h : FieldWf c) (a : Nat) : fmul c (fneg c a) (fneg c a) = fmul c a a := by
  cases hk : c.kind with
  | prime =>
    refine eq_of_cast_eq hk (canon_fmul h _ _) (canon_fmul h _ _) ?_
    simp only [cast_fmul hk, cast_fneg hk h.modulus_pos, neg_mul_neg]
  | binary => simp [fneg, hk]

/-- The negative of a point of the curve is a point of the curve. -/
theorem onCurve_pneg (h : FieldWf c) (hw : CurveWf c e) {pt : Point} (hp : onCurve c e pt = true) :
    onCurve c e (pneg c e pt) = true := by
  cases pt with
  | infinity => rwa [pneg_infinity]
  | affine x y =>
    cases hf : e.form with
    | weierstrass =>
      cases hk : c.kind with
      | prime =>
        rw [pneg_of_ne_edwards (by simp [hf]) hk, onCurve_weierstrass_iff hf, fmul_fneg_self h]
        exact (onCurve_weierstrass_iff hf).mp hp
      | binary => rwa [pneg_weierstrass_binary hf hk]
    | montgomery =>
      rw [pneg_of_ne_edwards (by simp [hf]) (hw.primeForm (by simp [hf])), onCurve_montgomery_iff hf, fmul_fneg_self h]
      exact (onCurve_montgomery_iff hf).mp hp
    | edwards =>
      rw [pneg_edwards hf, onCurve_edwards_iff hf, fmul_fneg_self h]
      exact (onCurve_edwards_iff hf).mp hp

end

/-- Settles O41: the point read and its negative both pass `chk`, and `pneg` is evaluated by form and kind of field. -/
theorem moveAndNegateResults : Obligations.MoveAndNegateResults := by
  intro s rd rs1 pt hI hv hp
  have hw := hI.fieldWf_of_curve hv
  have hpt := hI.pointWf hp
  have hneg := (exec_pneg_holds (rd := rd) hv hp).1 _ (chk_of_onCurve (onCurve_pneg hw (hI.curveWf hv) hpt.2))
  have hprime : ∀ {v}, canon s.field v = true → s.field.kind = .prime →
      fneg s.field v = (s.field.modulus - v) % s.field.modulus :=
    fun hc hk => fneg_prime hk ((canon_prime hk _).mp hc).le
  refine ⟨(exec_pmov_holds hv hp).1 _ (chk_of_onCurve hpt.2), ?_, ?_⟩
  · rintro rfl
    rwa [pneg_infinity] at hneg
  · rintro x y rfl
    obtain ⟨hx, hy⟩ := hpt.1
    refine ⟨fun hf hk => ?_, fun hf hk => ?_, fun hf => ?_⟩
    · rwa [pneg_weierstrass_binary hf hk] at hneg
    · rwa [pneg_of_ne_edwards hf hk, hprime hy hk] at hneg
    · rwa [pneg_edwards hf, hprime hx ((hI.curveWf hv).primeForm (by simp [hf]))] at hneg

/-! ### PADD and PDBL (43_point.md R216, R217, R220) -/

theorem CurveWf.weierstrass_of_binary {c : FieldCfg} {e : CurveCfg} (hw : CurveWf c e) (hk : c.kind = .binary) :
    e.form = .weierstrass := by
  by_contra hf
  simp [hw.primeForm hf] at hk

/-- Over a binary field a point is its own negative. -/
theorem padd_self_binary {c : FieldCfg} {e : CurveCfg} (hw : CurveWf c e) (hk : c.kind = .binary) (a : Point) :
    padd c e a a = .ok .infinity := by
  cases a <;> simp [padd, paddWM, hw.weierstrass_of_binary hk, fneg, hk]

/-- Settles O42: the shapes of the two commands, and the case split of `padd` on two points that are one. -/
theorem addAndDoubleResults : Obligations.AddAndDoubleResults := by
  intro s rd rs1 rs2 a b hv ha
  rw [checked_padd, checked_pdbl]
  refine ⟨exec_padd_holds hv ha, exec_pdbl_holds hv ha, fun hI hk ha2 _ => ?_⟩
  refine (exec_padd_holds hv ha ha2).1 _ ?_
  have hw := hI.curveWf hv
  rw [paddChk_eq, padd_self_binary hw hk, ok_bind]
  exact chk_of_onCurve (onCurve_infinity_iff.mpr (by simp [hw.weierstrass_of_binary hk]))

end Sys2Proof.Machine
end

section
/-! The chord, the tangent and the Edwards sum: what `padd` and `pdbl` answer on affine points, in residues modulo p
and in polynomials modulo f. -/

namespace Sys2Proof.Machine

open Sys2Proof.Stated

variable {c : FieldCfg} {e : CurveCfg} {x1 y1 x2 y2 : Nat}

/-! ### The case split (43_point.md R205–R207, R209) -/

/-- The slope of the tangent, by form (43_point.md R206, R207). -/
def tangentSlope (c : FieldCfg) (e : CurveCfg) (x y : Nat) : Except Err Nat :=
  match e.form with
  | .montgomery => tangentM c e x y
  | _ => tangentW c e x y

theorem tangentSlope_weierstrass (hf : e.form = .weierstrass) (x y : Nat) :
    tangentSlope c e x y = tangentW c e x y := by
  simp [tangentSlope, hf]

theorem tangentSlope_montgomery (hf : e.form = .montgomery) (x y : Nat) :
    tangentSlope c e x y = tangentM c e x y := by
  simp [tangentSlope, hf]

theorem padd_eq_paddWM (hf : e.form ≠ .edwards) (p q : Point) : padd c e p q = paddWM c e p q := by
  cases h : e.form with
  | edwards => exact absurd h hf
  | weierstrass | montgomery => simp only [padd, h]

theorem padd_infinity_left (hf : e.form ≠ .edwards) (q : Point) : padd c e .infinity q = .ok q :=
  padd_eq_paddWM hf _ _

theorem padd_infinity_right (hf : e.form ≠ .edwards) (p : Point) : padd c e p .infinity = .ok p := by
  rw [padd_eq_paddWM hf]
  cases p <;> rfl

theorem padd_of_ne (hf : e.form ≠ .edwards) (hx : x1 ≠ x2) : padd c e (.affine x1 y1) (.affine x2 y2)
    = fdiv c (fsub c y2 y1) (fsub c x2 x1) >>= fun l => .ok (lineThird c e l x1 y1 x2) := by
  rw [padd_eq_paddWM hf, paddWM, if_neg hx]
  rfl

theorem padd_opposite (hf : e.form ≠ .edwards) (hy : y2 = fneg c y1) :
    padd c e (.affine x1 y1) (.affine x1 y2) = .ok .infinity := by
  rw [padd_eq_paddWM hf, paddWM, if_pos rfl, if_pos hy]

theorem padd_of_x_eq (hf : e.form ≠ .edwards) (hy : y2 ≠ fneg c y1) :
    padd c e (.affine x1 y1) (.affine x1 y2) = pdbl c e (.affine x1 y1) := by
  rw [padd_eq_paddWM hf, paddWM, if_pos rfl, if_neg hy]

theorem pdbl_infinity (hf : e.form ≠ .edwards) : pdbl c e .infinity = .ok .infinity := by
  cases h : e.form with
  | edwards => exact absurd h hf
  | weierstrass => simp [pdbl, h, pdblW]
  | montgomery => simp [pdbl, h, pdblM]

theorem pdbl_of_y_zero (hf : e.form ≠ .edwards) (x : Nat) : pdbl c e (.affine x 0) = .ok .infinity := by
  cases h : e.form with
  | edwards => exact absurd h hf
  | weierstrass => simp [pdbl, h, pdblW]
  | montgomery => simp [pdbl, h, pdblM]

theorem pdbl_of_y_ne_zero (hf : e.form ≠ .edwards) {x y : Nat} (hy : y ≠ 0) :
    pdbl c e (.affine x y) = tangentSlope c e x y >>= fun l => .ok (lineThird c e l x y x) := by
  cases h : e.form with
  | edwards => exact absurd h hf
  | weierstrass => simp only [pdbl, h, pdblW, if_neg hy, tangentSlope]; rfl
  | montgomery => simp only [pdbl, h, pdblM, if_neg hy, tangentSlope]; rfl

theorem padd_edwards (hf : e.form = .edwards) (p q : Point) : padd c e p q = paddE c e p q := by
  simp only [padd, hf]

theorem pdbl_edwards (hf : e.form = .edwards) (p : Point) : pdbl c e p = padd c e p p := by
  simp only [pdbl, padd, hf]

/-! ### Modulo p -/

section
variable (hk : c.kind = .prime)
include hk

theorem cast_ne_zero {a : Nat} (ha : canon c a = true) (h0 : a ≠ 0) : (a : ZMod c.modulus) ≠ 0 :=
  mt (cast_eq_zero_iff hk ha).mp h0

/-- Over a prime field a difference is canonical whatever is subtracted. -/
theorem canon_fsub_prime (h : FieldWf c) (a b : Nat) : canon c (fsub c a b) = true := by
  have hp : (0 : Int) < c.modulus := by exact_mod_cast h.modulus_pos
  rw [canon_prime hk]
  simp only [fsub, hk]
  have := Int.emod_lt_of_pos ((a : Int) - b) hp
  omega

theorem cast_two_ne_zero (h : FieldWf c) : (2 : ZMod c.modulus) ≠ 0 := by
  simp only [FieldWf, hk] at h
  have h2 : canon c 2 = true := (canon_prime hk 2).mpr (by omega)
  exact_mod_cast cast_ne_zero hk h2 two_ne_zero

/-- The condition of R136 on the coefficients of a form W, on residues. -/
theorem CurveWf.discriminant_ne_zero (h : FieldWf c) (hw : CurveWf c e) (hf : e.form = .weierstrass) :
    4 * (e.a : ZMod c.modulus) ^ 3 + 27 * (e.b : ZMod c.modulus) ^ 2 ≠ 0 := by
  have hok : NotDegenerate c .weierstrass e.a e.b := (curveOk_weierstrass_prime_iff h hk).mp (hf ▸ hw.ok)
  simp only [NotDegenerate, hk] at hok
  intro h0
  refine hok (Nat.mod_eq_zero_of_dvd ((ZMod.natCast_eq_zero_iff _ _).mp ?_))
  push_cast
  exact h0

/-- The condition of R136 on the coefficients of a form M, on residues. -/
theorem CurveWf.montgomery_ne_zero (h : FieldWf c) (hw : CurveWf c e) (hf : e.form = .montgomery) :
    (e.b : ZMod c.modulus) * ((e.a : ZMod c.modulus) ^ 2 - 4) ≠ 0 := by
  have hok : NotDegenerate c .montgomery e.a e.b := (curveOk_montgomery_prime_iff h hk).mp (hf ▸ hw.ok)
  simp only [NotDegenerate, hk] at hok
  intro h0
  refine hok (Int.emod_eq_zero_of_dvd ((ZMod.intCast_zmod_eq_zero_iff_dvd _ _).mp ?_))
  push_cast
  exact h0

/-- The third point of a line, on residues (43_point.md R205–R207). -/
theorem lineThird_prime (h : FieldWf c) (l : Nat) : ∃ x3 y3, lineThird c e l x1 y1 x2 = .affine x3 y3
    ∧ (e.form = .weierstrass → (x3 : ZMod c.modulus) = l ^ 2 - x1 - x2)
    ∧ (e.form = .montgomery → (x3 : ZMod c.modulus) = e.b * l ^ 2 - e.a - x1 - x2)
    ∧ (y3 : ZMod c.modulus) = l * (x1 - x3) - y1 := by
  have hsub := cast_fsub hk h.modulus_pos
  refine ⟨_, _, rfl, fun hf => ?_, fun hf => ?_, ?_⟩
  · simp only [hf, hsub, cast_fmul hk, pow_two]
  · simp only [hf, hsub, cast_fmul hk, pow_two]
  · simp only [hsub, cast_fmul hk]

section
variable (h : FieldWf c) (hp : Nat.Prime c.modulus)
include h hp

omit h in
/-- A quotient multiplies back to the dividend. -/
theorem fdiv_mul_cancel {a b : Nat} (hb : (b : ZMod c.modulus) ≠ 0) :
    ∃ l, fdiv c a b = .ok l ∧ (l : ZMod c.modulus) * b = a := by
  have : Fact (Nat.Prime c.modulus) := ⟨hp⟩
  obtain ⟨l, hl, hc⟩ := cast_fdiv hk hp a hb
  exact ⟨l, hl, by rw [hc, mul_assoc, inv_mul_cancel₀ hb, mul_one]⟩

/-- The slope of the chord (43_point.md R205). -/
theorem chord_slope (hx1 : canon c x1 = true) (hx2 : canon c x2 = true) (hx : x1 ≠ x2) :
    ∃ l, fdiv c (fsub c y2 y1) (fsub c x2 x1) = .ok l ∧ (l : ZMod c.modulus) * (x2 - x1) = y2 - y1 := by
  have hsub := cast_fsub hk h.modulus_pos
  have hne : ((fsub c x2 x1 : Nat) : ZMod c.modulus) ≠ 0 := by
    rw [hsub, sub_ne_zero]
    exact fun heq => hx (eq_of_cast_eq hk hx1 hx2 heq.symm)
  simpa only [hsub] using fdiv_mul_cancel hk hp (a := fsub c y2 y1) hne

/-- The slope of the tangent (43_point.md R206, R207). -/
theorem tangent_slope (hw : CurveWf c e) (hf : e.form ≠ .edwards) (hy1 : canon c y1 = true) (hy : y1 ≠ 0) :
    ∃ l, tangentSlope c e x1 y1 = .ok l
      ∧ (e.form = .weierstrass → (l : ZMod c.modulus) * (2 * y1) = 3 * x1 ^ 2 + e.a)
      ∧ (e.form = .montgomery → (l : ZMod c.modulus) * (2 * e.b * y1) = 3 * x1 ^ 2 + 2 * e.a * x1 + 1) := by
  have : Fact (Nat.Prime c.modulus) := ⟨hp⟩
  have h2 := cast_two_ne_zero hk h
  have hy' := cast_ne_zero hk hy1 hy
  cases hform : e.form with
  | edwards => exact absurd hform hf
  | weierstrass =>
    have hden : ((fmul c (fnorm c 2) y1 : Nat) : ZMod c.modulus) ≠ 0 := by
      simpa [cast_fmul hk, cast_fnorm hk] using ⟨h2, hy'⟩
    obtain ⟨l, hl, hmul⟩ := fdiv_mul_cancel hk hp (a := fadd c (fmul c (fnorm c 3) (fmul c x1 x1)) e.a) hden
    refine ⟨l, by rw [tangentSlope_weierstrass hform, tangentW, hk]; exact hl, fun _ => ?_, nofun⟩
    push_cast [cast_fadd hk, cast_fmul hk, cast_fnorm hk] at hmul
    linear_combination hmul
  | montgomery =>
    have hb := left_ne_zero_of_mul (hw.montgomery_ne_zero hk h hform)
    have hden : ((fmul c (fmul c (fnorm c 2) e.b) y1 : Nat) : ZMod c.modulus) ≠ 0 := by
      simpa [cast_fmul hk, cast_fnorm hk] using ⟨⟨h2, hb⟩, hy'⟩
    obtain ⟨l, hl, hmul⟩ := fdiv_mul_cancel hk hp (a := fadd c
      (fadd c (fmul c (fnorm c 3) (fmul c x1 x1)) (fmul c (fmul c (fnorm c 2) e.a) x1)) (fnorm c 1)) hden
    refine ⟨l, by rw [tangentSlope_montgomery hform, tangentM]; exact hl, nofun, fun _ => ?_⟩
    push_cast [cast_fadd hk, cast_fmul hk, cast_fnorm hk] at hmul
    linear_combination hmul

theorem padd_chord_prime (hw : CurveWf c e) (hf : e.form ≠ .edwards) (h1 : CanonPoint c (.affine x1 y1))
    (h2 : CanonPoint c (.affine x2 y2)) (hx : x1 ≠ x2) :
    ∃ l x3 y3, padd c e (.affine x1 y1) (.affine x2 y2) = .ok (.affine x3 y3)
      ∧ x3 < c.modulus ∧ y3 < c.modulus
      ∧ (l : ZMod c.modulus) * (x2 - x1) = y2 - y1
      ∧ (e.form = .weierstrass → (x3 : ZMod c.modulus) = l ^ 2 - x1 - x2)
      ∧ (e.form = .montgomery → (x3 : ZMod c.modulus) = e.b * l ^ 2 - e.a - x1 - x2)
      ∧ (y3 : ZMod c.modulus) = l * (x1 - x3) - y1 := by
  obtain ⟨l, hl, hslope⟩ := chord_slope hk h hp (y1 := y1) (y2 := y2) h1.1 h2.1 hx
  obtain ⟨x3, y3, hline, hxW, hxM, hy3⟩ := lineThird_prime (e := e) (x1 := x1) (y1 := y1) (x2 := x2) hk h l
  have hsum : padd c e (.affine x1 y1) (.affine x2 y2) = .ok (.affine x3 y3) := by
    rw [padd_of_ne hf hx, hl, ok_bind, hline]
  obtain ⟨hx3, hy3'⟩ := canonPoint_padd h hw h1 h2 hsum
  exact ⟨l, x3, y3, hsum, (canon_prime hk _).mp hx3, (canon_prime hk _).mp hy3', hslope, hxW, hxM, hy3⟩

theorem pdbl_tangent_prime (hw : CurveWf c e) (hf : e.form ≠ .edwards) (h1 : CanonPoint c (.affine x1 y1))
    (hy : y1 ≠ 0) :
    ∃ l x3 y3, pdbl c e (.affine x1 y1) = .ok (.affine x3 y3) ∧ x3 < c.modulus ∧ y3 < c.modulus
      ∧ (e.form = .weierstrass →
        (l : ZMod c.modulus) * (2 * y1) = 3 * x1 ^ 2 + e.a ∧ (x3 : ZMod c.modulus) = l ^ 2 - 2 * x1)
      ∧ (e.form = .montgomery →
        (l : ZMod c.modulus) * (2 * e.b * y1) = 3 * x1 ^ 2 + 2 * e.a * x1 + 1
          ∧ (x3 : ZMod c.modulus) = e.b * l ^ 2 - e.a - 2 * x1)
      ∧ (y3 : ZMod c.modulus) = l * (x1 - x3) - y1 := by
  obtain ⟨l, hl, hlW, hlM⟩ := tangent_slope hk h hp (x1 := x1) hw hf h1.2 hy
  obtain ⟨x3, y3, hline, hxW, hxM, hy3⟩ := lineThird_prime (e := e) (x1 := x1) (y1 := y1) (x2 := x1) hk h l
  have hdbl : pdbl c e (.affine x1 y1) = .ok (.affine x3 y3) := by
    rw [pdbl_of_y_ne_zero hf hy, hl, ok_bind, hline]
  obtain ⟨hx3, hy3'⟩ := canonPoint_pdbl h hw h1 hdbl
  refine ⟨l, x3, y3, hdbl, (canon_prime hk _).mp hx3, (canon_prime hk _).mp hy3', fun hW => ⟨hlW hW, ?_⟩,
    fun hM => ⟨hlM hM, ?_⟩, hy3⟩
  · rw [hxW hW]; ring
  · rw [hxM hM]; ring

end

end

/-! ### Modulo f -/

theorem polyMul_eq_fmul (hk : c.kind = .binary) (a b : Nat) : polyMul c.modulus a b = fmul c a b := by
  simp only [polyMul, fmul, hk]

theorem fmul_comm (a b : Nat) : fmul c a b = fmul c b a := by
  cases hk : c.kind with
  | prime => simp only [fmul, hk, Nat.mul_comm]
  | binary => simp only [fmul, hk, clmul_comm]

theorem fdiv_of_finv_ok {a b i : Nat} (hi : finv c b = .ok i) : fdiv c a b = .ok (fmul c a i) := by
  rw [fdiv_eq_bind, hi, ok_bind]

section
variable (hk : c.kind = .binary)
include hk

/-- A quotient multiplies back to the dividend. -/
theorem fmul_fdiv_binary (h : FieldWf c) {a b l : Nat} (ha : canon c a = true) (hl : fdiv c a b = .ok l) :
    fmul c l b = a := by
  obtain ⟨i, hi, rfl⟩ := fdiv_ok hl
  rw [fmul_assoc h, fmul_comm i, fmul_finv_binary h hk hi, fmul_comm, one_fmul h ha]

/-- A nonzero divisor without an inverse is refused. -/
theorem fdiv_error_binary (a : Nat) {b : Nat} (hb : b ≠ 0) {x : Err} (hx : finv c b = .error x) :
    x = .notInvertible ∧ fdiv c a b = .error .notInvertible := by
  have hx' : x = .notInvertible := by
    rw [finv_binary hk hb] at hx
    split at hx <;> cases hx
    rfl
  exact ⟨hx', by rw [fdiv_eq_bind, hx, hx', error_bind]⟩

theorem canon_xor {a b : Nat} (ha : canon c a = true) (hb : canon c b = true) : canon c (a ^^^ b) = true := by
  rw [canon_binary hk] at *
  exact Nat.xor_lt_two_pow ha hb

section
variable (hf : e.form = .weierstrass)
include hf

/-- The third point of a line of form W (43_point.md R205, R206). -/
theorem lineThird_binary (l x y x' : Nat) : lineThird c e l x y x'
    = .affine (polyMul c.modulus l l ^^^ x ^^^ x')
        (polyMul c.modulus l (x ^^^ (polyMul c.modulus l l ^^^ x ^^^ x')) ^^^ y) := by
  simp only [lineThird, hf, fsub, hk, polyMul_eq_fmul hk]

theorem tangentSlope_binary (x y : Nat) : tangentSlope c e x y = fdiv c (polyMul c.modulus x x ^^^ e.a) y := by
  simp only [tangentSlope_weierstrass hf, tangentW, fadd, hk, polyMul_eq_fmul hk]

theorem padd_chord_binary (hx : x1 ≠ x2) : padd c e (.affine x1 y1) (.affine x2 y2)
    = fdiv c (y1 ^^^ y2) (x1 ^^^ x2) >>= fun l => .ok (lineThird c e l x1 y1 x2) := by
  rw [padd_of_ne (by simp [hf]) hx, Nat.xor_comm y1, Nat.xor_comm x1]
  simp only [fsub, hk]

theorem padd_chord_binary_ok (h : FieldWf c) (hy1 : canon c y1 = true) (hy2 : canon c y2 = true) (hx : x1 ≠ x2)
    {i : Nat} (hi : finv c (x1 ^^^ x2) = .ok i) :
    ∃ l x3 y3, padd c e (.affine x1 y1) (.affine x2 y2) = .ok (.affine x3 y3)
      ∧ canon c l = true ∧ polyMul c.modulus l (x1 ^^^ x2) = y1 ^^^ y2
      ∧ x3 = polyMul c.modulus l l ^^^ x1 ^^^ x2
      ∧ y3 = polyMul c.modulus l (x1 ^^^ x3) ^^^ y1 := by
  have hl := fdiv_of_finv_ok (a := y1 ^^^ y2) hi
  refine ⟨_, _, _, ?_, canon_fdiv h hl, ?_, rfl, rfl⟩
  · rw [padd_chord_binary hk hf hx, hl, ok_bind, lineThird_binary hk hf]
  · rw [polyMul_eq_fmul hk]
    exact fmul_fdiv_binary hk h (canon_xor hk hy1 hy2) hl

theorem padd_chord_binary_error (hx : x1 ≠ x2) {x : Err} (he : finv c (x1 ^^^ x2) = .error x) :
    x = .notInvertible ∧ padd c e (.affine x1 y1) (.affine x2 y2) = .error .notInvertible := by
  obtain ⟨rfl, hl⟩ := fdiv_error_binary hk (y1 ^^^ y2) (mt Nat.xor_eq_zero_iff.mp hx) he
  exact ⟨rfl, by rw [padd_chord_binary hk hf hx, hl, error_bind]⟩

theorem pdbl_tangent_binary_ok (h : FieldWf c) (ha : canon c e.a = true) (hy : y1 ≠ 0) {i : Nat}
    (hi : finv c y1 = .ok i) :
    ∃ l x3 y3, pdbl c e (.affine x1 y1) = .ok (.affine x3 y3)
      ∧ canon c l = true ∧ polyMul c.modulus l y1 = polyMul c.modulus x1 x1 ^^^ e.a
      ∧ x3 = polyMul c.modulus l l
      ∧ y3 = polyMul c.modulus l (x1 ^^^ x3) ^^^ y1 := by
  have hl := fdiv_of_finv_ok (a := polyMul c.modulus x1 x1 ^^^ e.a) hi
  refine ⟨_, _, _, ?_, canon_fdiv h hl, ?_, rfl, rfl⟩
  · rw [pdbl_of_y_ne_zero (by simp [hf]) hy, tangentSlope_binary hk hf, hl, ok_bind, lineThird_binary hk hf,
      Nat.xor_xor_cancel_right]
  · rw [polyMul_eq_fmul hk]
    exact fmul_fdiv_binary hk h (canon_xor hk (canon_pmod h hk _) ha) hl

theorem pdbl_tangent_binary_error (hy : y1 ≠ 0) {x : Err} (he : finv c y1 = .error x) :
    x = .notInvertible ∧ pdbl c e (.affine x1 y1) = .error .notInvertible := by
  obtain ⟨rfl, hl⟩ := fdiv_error_binary hk (polyMul c.modulus x1 x1 ^^^ e.a) hy he
  exact ⟨rfl, by rw [pdbl_of_y_ne_zero (by simp [hf]) hy, tangentSlope_binary hk hf, hl, error_bind]⟩

end

end

/-- Settles O43: the chord and the tangent of each kind of field by their lemmas, and the case split of `padd` and
`pdbl`. -/
theorem chordAndTangentFormulas : Obligations.ChordAndTangentFormulas := by
  intro c e x1 y1 x2 y2 h hw hf h1 h2
  refine ⟨fun ⟨hk, hp⟩ => ⟨padd_chord_prime hk h hp hw hf h1 h2, pdbl_tangent_prime hk h hp hw hf h1⟩,
    fun hk => ?_, fun hk => ?_, ?_, pdbl_infinity hf, fun pt => ⟨padd_infinity_left hf pt, padd_infinity_right hf pt⟩⟩
  · have hW := hw.weierstrass_of_binary hk
    have hneg : fneg c y1 = y1 := by simp only [fneg, hk]
    refine ⟨fun hx => ⟨fun _ => padd_chord_binary_ok hk hW h h1.2 h2.2 hx, fun _ => padd_chord_binary_error hk hW hx⟩,
      fun hy => ⟨fun _ => pdbl_tangent_binary_ok hk hW h hw.canonA hy, fun _ => pdbl_tangent_binary_error hk hW hy⟩,
      ?_, ?_⟩
    · rintro rfl hy
      exact padd_opposite hf (by rw [hneg, hy])
    · rintro rfl hy
      exact padd_of_x_eq hf (by rw [hneg]; exact hy.symm)
  · rw [← fneg_prime hk ((canon_prime hk _).mp h1.2).le]
    constructor
    · rintro rfl hy
      exact padd_opposite hf hy
    · rintro rfl hy
      exact padd_of_x_eq hf hy
  · rintro rfl
    exact pdbl_of_y_zero hf x1

/-! ### The Edwards sum (43_point.md R208) -/

/-- The product d·x1·x2·y1·y2 that the denominators of R208 are made of. -/
def edwardsT (c : FieldCfg) (e : CurveCfg) (x1 y1 x2 y2 : Nat) : Nat :=
  fmul c e.a (fmul c (fmul c x1 x2) (fmul c y1 y2))

theorem paddE_affine : paddE c e (.affine x1 y1) (.affine x2 y2) =
    if fadd c (fnorm c 1) (edwardsT c e x1 y1 x2 y2) = 0 ∨ fsub c (fnorm c 1) (edwardsT c e x1 y1 x2 y2) = 0 then
      .ok (.affine 0 1)
    else
      fdiv c (fadd c (fmul c x1 y2) (fmul c y1 x2)) (fadd c (fnorm c 1) (edwardsT c e x1 y1 x2 y2)) >>= fun x3 =>
      fdiv c (fsub c (fmul c y1 y2) (fmul c x1 x2)) (fsub c (fnorm c 1) (edwardsT c e x1 y1 x2 y2)) >>= fun y3 =>
      .ok (.affine x3 y3) := rfl

section
variable (hk : c.kind = .prime)
include hk

theorem cast_edwardsT : ((edwardsT c e x1 y1 x2 y2 : Nat) : ZMod c.modulus) = e.a * x1 * x2 * y1 * y2 := by
  simp only [edwardsT, cast_fmul hk]
  ring

section
variable (h : FieldWf c)
include h

theorem edwards_plus_eq_zero_iff : fadd c (fnorm c 1) (edwardsT c e x1 y1 x2 y2) = 0 ↔
    1 + (e.a * x1 * x2 * y1 * y2 : ZMod c.modulus) = 0 := by
  rw [← cast_eq_zero_iff hk (canon_fadd_prime hk h _ _), cast_fadd hk, cast_fnorm hk, cast_edwardsT hk, Nat.cast_one]

theorem edwards_minus_eq_zero_iff : fsub c (fnorm c 1) (edwardsT c e x1 y1 x2 y2) = 0 ↔
    1 - (e.a * x1 * x2 * y1 * y2 : ZMod c.modulus) = 0 := by
  rw [← cast_eq_zero_iff hk (canon_fsub_prime hk h _ _), cast_fsub hk h.modulus_pos, cast_fnorm hk, cast_edwardsT hk,
    Nat.cast_one]

theorem paddE_of_zero (h0 : 1 + (e.a * x1 * x2 * y1 * y2 : ZMod c.modulus) = 0
    ∨ 1 - (e.a * x1 * x2 * y1 * y2 : ZMod c.modulus) = 0) :
    paddE c e (.affine x1 y1) (.affine x2 y2) = .ok (.affine 0 1) := by
  rw [paddE_affine, if_pos (h0.imp (edwards_plus_eq_zero_iff hk h).mpr (edwards_minus_eq_zero_iff hk h).mpr)]

theorem paddE_of_ne_zero (hp : Nat.Prime c.modulus) (hplus : 1 + (e.a * x1 * x2 * y1 * y2 : ZMod c.modulus) ≠ 0)
    (hminus : 1 - (e.a * x1 * x2 * y1 * y2 : ZMod c.modulus) ≠ 0) :
    ∃ x3 y3, paddE c e (.affine x1 y1) (.affine x2 y2) = .ok (.affine x3 y3)
      ∧ x3 < c.modulus ∧ y3 < c.modulus
      ∧ (x3 : ZMod c.modulus) * (1 + e.a * x1 * x2 * y1 * y2) = x1 * y2 + y1 * x2
      ∧ (y3 : ZMod c.modulus) * (1 - e.a * x1 * x2 * y1 * y2) = y1 * y2 - x1 * x2 := by
  have hsub := cast_fsub hk h.modulus_pos
  have hp' : ((fadd c (fnorm c 1) (edwardsT c e x1 y1 x2 y2) : Nat) : ZMod c.modulus) = _ := cast_fadd hk _ _
  have hm' : ((fsub c (fnorm c 1) (edwardsT c e x1 y1 x2 y2) : Nat) : ZMod c.modulus) = _ := hsub _ _
  rw [cast_fnorm hk, cast_edwardsT hk, Nat.cast_one] at hp' hm'
  obtain ⟨x3, hx3, hxmul⟩ :=
    fdiv_mul_cancel hk hp (a := fadd c (fmul c x1 y2) (fmul c y1 x2)) (hp' ▸ hplus)
  obtain ⟨y3, hy3, hymul⟩ :=
    fdiv_mul_cancel hk hp (a := fsub c (fmul c y1 y2) (fmul c x1 x2)) (hm' ▸ hminus)
  rw [hp', cast_fadd hk, cast_fmul hk, cast_fmul hk] at hxmul
  rw [hm', hsub, cast_fmul hk, cast_fmul hk] at hymul
  refine ⟨x3, y3, ?_, (canon_prime hk _).mp (canon_fdiv h hx3), (canon_prime hk _).mp (canon_fdiv h hy3), hxmul, hymul⟩
  rw [paddE_affine, if_neg (not_or.mpr ⟨mt (edwards_plus_eq_zero_iff hk h).mp hplus,
    mt (edwards_minus_eq_zero_iff hk h).mp hminus⟩), hx3, ok_bind, hy3, ok_bind]

end

end

/-- Settles O44: the denominators are 0 exactly when their residues are, and else each quotient multiplies back. -/
theorem edwardsFormulas : Obligations.EdwardsFormulas := by
  intro c e x1 y1 x2 y2 h ⟨hk, hp⟩ hw hf
  simp only [padd_edwards hf]
  exact ⟨paddE_of_zero hk h, paddE_of_ne_zero hk h hp, (pdbl_edwards hf _).trans (padd_edwards hf _ _)⟩

end Sys2Proof.Machine
end

section
/-! The curves of form W and M over a prime field with a prime modulus as elliptic curves: `padd` and `pdbl` are the
addition of their group, so the laws of the group are those of the point unit. -/

namespace Sys2Proof.Machine

open Sys2Proof.Stated WeierstrassCurve.Affine

variable {c : FieldCfg} {e : CurveCfg}

/-! ### The elliptic curve of a form W or M (43_point.md R202) -/

/-- The factor B of form M: (Bx, B²y) is on a monic curve when (x, y) is on the curve of form M. -/
def curveScale (c : FieldCfg) (e : CurveCfg) : ZMod c.modulus :=
  match e.form with
  | .montgomery => e.b
  | _ => 1

/-- The elliptic curve that the points (x, y) of form W, and (Bx, B²y) of form M, are on. -/
def groupCurve (c : FieldCfg) (e : CurveCfg) : WeierstrassCurve (ZMod c.modulus) :=
  match e.form with
  | .montgomery => ⟨0, e.a * e.b, 0, (e.b : ZMod c.modulus) ^ 2, 0⟩
  | _ => ⟨0, 0, 0, e.a, e.b⟩

theorem curveScale_weierstrass (hf : e.form = .weierstrass) : curveScale c e = 1 := by
  simp only [curveScale, hf]

theorem curveScale_montgomery (hf : e.form = .montgomery) : curveScale c e = e.b := by
  simp only [curveScale, hf]

theorem groupCurve_weierstrass (hf : e.form = .weierstrass) : groupCurve c e = ⟨0, 0, 0, e.a, e.b⟩ := by
  simp only [groupCurve, hf]

theorem groupCurve_montgomery (hf : e.form = .montgomery) :
    groupCurve c e = ⟨0, e.a * e.b, 0, (e.b : ZMod c.modulus) ^ 2, 0⟩ := by
  simp only [groupCurve, hf]

@[simp] theorem groupCurve_a₁ : (groupCurve c e).a₁ = 0 := by cases hf : e.form <;> simp [groupCurve, hf]
@[simp] theorem groupCurve_a₃ : (groupCurve c e).a₃ = 0 := by cases hf : e.form <;> simp [groupCurve, hf]

@[simp] theorem groupCurve_negY (x y : ZMod c.modulus) : negY (groupCurve c e) x y = -y := by
  simp [negY]

/-- The points of the group. -/
abbrev GroupPoint (c : FieldCfg) (e : CurveCfg) : Type := WeierstrassCurve.Affine.Point (groupCurve c e)

/-- The value `p` is the point `P` of the group. -/
inductive StandsFor (c : FieldCfg) (e : CurveCfg) : Point → GroupPoint c e → Prop where
  | infinity : StandsFor c e .infinity 0
  | affine {x y : Nat} (hx : canon c x = true) (hy : canon c y = true)
    (h : Nonsingular (groupCurve c e) (curveScale c e * x) (curveScale c e ^ 2 * y)) :
    StandsFor c e (.affine x y) (.some _ _ h)

theorem standsFor_some {x y : Nat} {X Y : ZMod c.modulus} (hx : canon c x = true) (hy : canon c y = true)
    (hX : curveScale c e * x = X) (hY : curveScale c e ^ 2 * y = Y) (h : Nonsingular (groupCurve c e) X Y) :
    StandsFor c e (.affine x y) (.some X Y h) := by
  subst hX hY
  exact .affine hx hy h

section
variable [hp : Fact (Nat.Prime c.modulus)] (hk : c.kind = .prime) (h : FieldWf c) (hw : CurveWf c e)
  (hf : e.form ≠ .edwards)
include hk h hw hf

theorem curveScale_ne_zero : curveScale c e ≠ 0 := by
  cases hform : e.form with
  | edwards => exact absurd hform hf
  | weierstrass => rw [curveScale_weierstrass hform]; exact one_ne_zero
  | montgomery =>
    rw [curveScale_montgomery hform]
    exact left_ne_zero_of_mul (hw.montgomery_ne_zero hk h hform)

/-- What CFGC has checked of the coefficients is that the curve is not singular (40_control.md R136). -/
theorem groupCurve_discriminant_ne_zero : (groupCurve c e).Δ ≠ 0 := by
  have h2 := cast_two_ne_zero hk h
  cases hform : e.form with
  | edwards => exact absurd hform hf
  | weierstrass =>
    have hd := hw.discriminant_ne_zero hk h hform
    have hΔ : (groupCurve c e).Δ = -2 ^ 4 * (4 * (e.a : ZMod c.modulus) ^ 3 + 27 * (e.b : ZMod c.modulus) ^ 2) := by
      rw [groupCurve_weierstrass hform]
      simp only [WeierstrassCurve.Δ, WeierstrassCurve.b₂, WeierstrassCurve.b₄, WeierstrassCurve.b₆, WeierstrassCurve.b₈]
      ring
    rw [hΔ]
    exact mul_ne_zero (neg_ne_zero.mpr (pow_ne_zero 4 h2)) hd
  | montgomery =>
    have hd := hw.montgomery_ne_zero hk h hform
    have hΔ : (groupCurve c e).Δ
        = 2 ^ 4 * ((e.b : ZMod c.modulus) ^ 5 * (e.b * ((e.a : ZMod c.modulus) ^ 2 - 4))) := by
      rw [groupCurve_montgomery hform]
      simp only [WeierstrassCurve.Δ, WeierstrassCurve.b₂, WeierstrassCurve.b₄, WeierstrassCurve.b₆, WeierstrassCurve.b₈]
      ring
    rw [hΔ]
    exact mul_ne_zero (pow_ne_zero 4 h2) (mul_ne_zero (pow_ne_zero 5 (left_ne_zero_of_mul hd)) hd)

/-- The equation of the elliptic curve is that of `on_curve`. -/
theorem equation_iff_onCurve (x y : Nat) :
    Equation (groupCurve c e) (curveScale c e * x) (curveScale c e ^ 2 * y) ↔ onCurve c e (.affine x y) = true := by
  rw [equation_iff]
  cases hform : e.form with
  | edwards => exact absurd hform hf
  | weierstrass =>
    rw [onCurve_weierstrass_prime_iff h hk hform, ← ZMod.natCast_eq_natCast_iff', curveScale_weierstrass hform,
      groupCurve_weierstrass hform]
    push_cast
    constructor <;> intro heq <;> linear_combination heq
  | montgomery =>
    have hb : (e.b : ZMod c.modulus) ^ 3 ≠ 0 :=
      pow_ne_zero 3 (left_ne_zero_of_mul (hw.montgomery_ne_zero hk h hform))
    rw [onCurve_montgomery_prime_iff h hk hform, ← ZMod.natCast_eq_natCast_iff', curveScale_montgomery hform,
      groupCurve_montgomery hform]
    push_cast
    refine Iff.trans ?_ (mul_right_inj' hb)
    constructor <;> intro heq <;> linear_combination heq

theorem nonsingular_iff_onCurve (x y : Nat) :
    Nonsingular (groupCurve c e) (curveScale c e * x) (curveScale c e ^ 2 * y) ↔ onCurve c e (.affine x y) = true :=
  (equation_iff_nonsingular_of_Δ_ne_zero (groupCurve_discriminant_ne_zero hk h hw hf)).symm.trans
    (equation_iff_onCurve hk h hw hf x y)

theorem exists_standsFor {p : Point} (hpt : PointWf c e p) : ∃ P, StandsFor c e p P := by
  cases p with
  | infinity => exact ⟨_, .infinity⟩
  | affine x y => exact ⟨_, .affine hpt.1.1 hpt.1.2 ((nonsingular_iff_onCurve hk h hw hf x y).mpr hpt.2)⟩

theorem StandsFor.pointWf {p : Point} {P : GroupPoint c e} (hs : StandsFor c e p P) :
    PointWf c e p := by
  cases hs with
  | infinity => exact ⟨trivial, onCurve_infinity_iff.mpr hf⟩
  | affine hx hy hn => exact ⟨⟨hx, hy⟩, (nonsingular_iff_onCurve hk h hw hf _ _).mp hn⟩

theorem eq_of_curveScale_mul_eq {a b : Nat} (ha : canon c a = true) (hb : canon c b = true) {n : Nat}
    (heq : curveScale c e ^ n * a = curveScale c e ^ n * b) : a = b := by
  exact eq_of_cast_eq hk ha hb (mul_left_cancel₀ (pow_ne_zero n (curveScale_ne_zero hk h hw hf)) heq)

/-- A point of the group is one value. -/
theorem StandsFor.injective {p q : Point} {P : GroupPoint c e}
    (hs : StandsFor c e p P) (ht : StandsFor c e q P) : p = q := by
  cases hs with
  | infinity => cases ht; rfl
  | affine hx hy hn =>
    generalize hP : WeierstrassCurve.Affine.Point.some _ _ hn = P at ht
    cases ht with
    | infinity => cases hP
    | affine hx' hy' hn' =>
      obtain ⟨hX, hY⟩ := WeierstrassCurve.Affine.Point.some.inj hP
      rw [eq_of_curveScale_mul_eq hk h hw hf hx hx' (n := 1) (by simpa using hX),
        eq_of_curveScale_mul_eq hk h hw hf hy hy' hY]

/-! ### The sum is that of the group (43_point.md R205–R207, R221) -/

omit hk h hw in
/-- The x coordinate of the third point of a line is that of the group. -/
theorem curveScale_mul_x {l : ZMod c.modulus} {x1 x2 x3 : Nat}
    (hxW : e.form = .weierstrass → (x3 : ZMod c.modulus) = l ^ 2 - x1 - x2)
    (hxM : e.form = .montgomery → (x3 : ZMod c.modulus) = e.b * l ^ 2 - e.a - x1 - x2) :
    curveScale c e * x3
      = addX (groupCurve c e) (curveScale c e * x1) (curveScale c e * x2) (curveScale c e * l) := by
  cases hform : e.form with
  | edwards => exact absurd hform hf
  | weierstrass =>
    rw [hxW hform, curveScale_weierstrass hform, groupCurve_weierstrass hform, addX]
    ring
  | montgomery =>
    rw [hxM hform, curveScale_montgomery hform, groupCurve_montgomery hform, addX]
    ring

omit hk h hw in
/-- The third point of the line of slope `l` through two points of the group is their sum. -/
theorem standsFor_line {l : ZMod c.modulus} {x1 y1 x2 y2 x3 y3 : Nat}
    {hn1 : Nonsingular (groupCurve c e) (curveScale c e * x1) (curveScale c e ^ 2 * y1)}
    {hn2 : Nonsingular (groupCurve c e) (curveScale c e * x2) (curveScale c e ^ 2 * y2)}
    (hne : ¬(curveScale c e * x1 = curveScale c e * x2
      ∧ curveScale c e ^ 2 * y1 = negY (groupCurve c e) (curveScale c e * x2) (curveScale c e ^ 2 * y2)))
    (hslope : curveScale c e * l = slope (groupCurve c e) (curveScale c e * x1) (curveScale c e * x2)
      (curveScale c e ^ 2 * y1) (curveScale c e ^ 2 * y2))
    (hc : CanonPoint c (.affine x3 y3))
    (hxW : e.form = .weierstrass → (x3 : ZMod c.modulus) = l ^ 2 - x1 - x2)
    (hxM : e.form = .montgomery → (x3 : ZMod c.modulus) = e.b * l ^ 2 - e.a - x1 - x2)
    (hy : (y3 : ZMod c.modulus) = l * (x1 - x3) - y1) :
    StandsFor c e (.affine x3 y3) (.some _ _ hn1 + .some _ _ hn2) := by
  have hX := curveScale_mul_x hf hxW hxM
  rw [WeierstrassCurve.Affine.Point.add_some hne]
  refine standsFor_some hc.1 hc.2 (hslope ▸ hX) ?_ _
  rw [addY, negAddY, ← hslope, ← hX, groupCurve_negY, hy]
  ring

theorem padd_chord_standsFor {x1 y1 x2 y2 : Nat} {P Q : GroupPoint c e}
    (hs : StandsFor c e (.affine x1 y1) P) (ht : StandsFor c e (.affine x2 y2) Q) (hx : x1 ≠ x2) :
    ∃ r, padd c e (.affine x1 y1) (.affine x2 y2) = .ok r ∧ StandsFor c e r (P + Q) := by
  have hc1 := (hs.pointWf hk h hw hf).1
  have hc2 := (ht.pointWf hk h hw hf).1
  obtain ⟨l, x3, y3, hsum, -, -, hslope, hxW, hxM, hy⟩ := padd_chord_prime hk h hp.out hw hf hc1 hc2 hx
  cases hs with | affine hx1 hy1 hn1 =>
  cases ht with | affine hx2 hy2 hn2 =>
  have hX : curveScale c e * x1 ≠ curveScale c e * x2 :=
    fun heq => hx (eq_of_curveScale_mul_eq hk h hw hf hx1 hx2 (n := 1) (by simpa using heq))
  refine ⟨_, hsum, standsFor_line hf (fun hn => hX hn.1) ?_ (canonPoint_padd h hw hc1 hc2 hsum) hxW hxM hy⟩
  rw [slope_of_X_ne hX, eq_div_iff (sub_ne_zero.mpr hX)]
  linear_combination -curveScale c e ^ 2 * hslope

/-- A point with y ≠ 0 is not its own negative, as 2 is not 0 modulo p. -/
theorem curveScale_mul_y_ne_neg {y : Nat} (hc : canon c y = true) (hy : y ≠ 0) :
    curveScale c e ^ 2 * y ≠ -(curveScale c e ^ 2 * y) := by
  have h2y : 2 * (curveScale c e ^ 2 * y) ≠ 0 := mul_ne_zero (cast_two_ne_zero hk h)
    (mul_ne_zero (pow_ne_zero 2 (curveScale_ne_zero hk h hw hf)) (cast_ne_zero hk hc hy))
  exact fun heq => h2y (by linear_combination heq)

theorem pdbl_standsFor {p : Point} {P : GroupPoint c e} (hs : StandsFor c e p P) :
    ∃ r, pdbl c e p = .ok r ∧ StandsFor c e r (P + P) := by
  have hc := (hs.pointWf hk h hw hf).1
  cases hs with
  | infinity => exact ⟨_, pdbl_infinity hf, by rw [add_zero]; exact .infinity⟩
  | @affine x y hx hy hn =>
    by_cases hy0 : y = 0
    · subst hy0
      refine ⟨_, pdbl_of_y_zero hf x, ?_⟩
      rw [WeierstrassCurve.Affine.Point.add_self_of_Y_eq (by simp)]
      exact .infinity
    · obtain ⟨l, x3, y3, hdbl, -, -, hW, hM, hyres⟩ := pdbl_tangent_prime hk h hp.out hw hf hc hy0
      have hY := curveScale_mul_y_ne_neg hk h hw hf hy hy0
      have hY' : curveScale c e ^ 2 * (y : ZMod c.modulus)
          ≠ negY (groupCurve c e) (curveScale c e * x) (curveScale c e ^ 2 * y) := by rwa [groupCurve_negY]
      refine ⟨_, hdbl, standsFor_line hf (fun hn => hY' hn.2) ?_ (canonPoint_pdbl h hw hc hdbl)
        (fun hf' => by rw [(hW hf').2]; ring) (fun hf' => by rw [(hM hf').2]; ring) hyres⟩
      rw [slope_of_Y_ne rfl hY', groupCurve_negY, eq_div_iff (sub_ne_zero.mpr hY)]
      cases hform : e.form with
      | edwards => exact absurd hform hf
      | weierstrass =>
        rw [curveScale_weierstrass hform, groupCurve_weierstrass hform]
        linear_combination (hW hform).1
      | montgomery =>
        rw [curveScale_montgomery hform, groupCurve_montgomery hform]
        linear_combination (e.b : ZMod c.modulus) ^ 2 * (hM hform).1

theorem padd_standsFor {p q : Point} {P Q : GroupPoint c e} (hs : StandsFor c e p P) (ht : StandsFor c e q Q) :
    ∃ r, padd c e p q = .ok r ∧ StandsFor c e r (P + Q) := by
  cases hs with
  | infinity => exact ⟨q, padd_infinity_left hf q, by rwa [zero_add]⟩
  | @affine x1 y1 hx1 hy1 hn1 =>
    cases ht with
    | infinity => exact ⟨_, padd_infinity_right hf _, by rw [add_zero]; exact .affine hx1 hy1 hn1⟩
    | @affine x2 y2 hx2 hy2 hn2 =>
      by_cases hx : x1 = x2
      · subst hx
        by_cases hy : y2 = fneg c y1
        · refine ⟨_, padd_opposite hf hy, ?_⟩
          rw [WeierstrassCurve.Affine.Point.add_of_Y_eq rfl
            (by rw [groupCurve_negY, hy, cast_fneg hk h.modulus_pos]; ring)]
          exact .infinity
        · have hY : curveScale c e ^ 2 * (y1 : ZMod c.modulus)
              ≠ negY (groupCurve c e) (curveScale c e * x1) (curveScale c e ^ 2 * y2) := by
            rw [groupCurve_negY]
            refine fun heq => hy (eq_of_curveScale_mul_eq hk h hw hf hy2 (canon_fneg h hy1) (n := 2) ?_)
            rw [cast_fneg hk h.modulus_pos]
            linear_combination heq
          obtain rfl : y1 = y2 :=
            eq_of_curveScale_mul_eq hk h hw hf hy1 hy2 (Y_eq_of_Y_ne hn1.1 hn2.1 rfl hY)
          rw [padd_of_x_eq hf hy]
          exact pdbl_standsFor hk h hw hf (.affine hx1 hy1 hn1)
      · exact padd_chord_standsFor hk h hw hf (.affine hx1 hy1 hn1) (.affine hx2 hy2 hn2) hx

/-- The sum commutes, as the group does. -/
theorem padd_comm_of_ne_edwards {p q : Point} (hpt : PointWf c e p) (hqt : PointWf c e q) :
    padd c e p q = padd c e q p := by
  obtain ⟨P, hP⟩ := exists_standsFor hk h hw hf hpt
  obtain ⟨Q, hQ⟩ := exists_standsFor hk h hw hf hqt
  obtain ⟨r, hr, hR⟩ := padd_standsFor hk h hw hf hP hQ
  obtain ⟨r', hr', hR'⟩ := padd_standsFor hk h hw hf hQ hP
  rw [add_comm] at hR'
  rw [hr, hr', hR.injective hk h hw hf hR']

end

end Sys2Proof.Machine
end

section
/-! The laws of the point unit over a prime field, and the closure of the Edwards sum. -/

namespace Sys2Proof.Machine

open Sys2Proof.Stated

variable {c : FieldCfg} {e : CurveCfg} {x y x1 y1 x2 y2 : Nat}

/-! ### The Edwards sum as an operation (43_point.md R208, R221) -/

/-- No register holds O under the form E. -/
theorem exists_affine_of_edwards (hf : e.form = .edwards) {p : Point} (hp : PointWf c e p) :
    ∃ x y, p = .affine x y := by
  cases p with
  | infinity => exact absurd hf (onCurve_infinity_iff.mp hp.2)
  | affine x y => exact ⟨x, y, rfl⟩

theorem fadd_comm (a b : Nat) : fadd c a b = fadd c b a := by
  cases hk : c.kind with
  | prime => simp only [fadd, hk, Nat.add_comm]
  | binary => simp only [fadd, hk, Nat.xor_comm]

theorem edwardsT_comm : edwardsT c e x1 y1 x2 y2 = edwardsT c e x2 y2 x1 y1 := by
  rw [edwardsT, edwardsT, fmul_comm x1, fmul_comm y1]

theorem paddE_comm (p q : Point) : paddE c e p q = paddE c e q p := by
  cases p with
  | infinity => cases q <;> rfl
  | affine x1 y1 =>
    cases q with
    | infinity => rfl
    | affine x2 y2 =>
      rw [paddE_affine, paddE_affine, edwardsT_comm, fadd_comm (fmul c x1 y2), fmul_comm x1 y2, fmul_comm y1 x2,
        fmul_comm y1 y2, fmul_comm x1 x2]

section
variable (hk : c.kind = .prime) (h : FieldWf c)
include hk h

theorem fdiv_one {a : Nat} (ha : canon c a = true) : fdiv c a 1 = .ok a := by
  have h1 : 1 % c.modulus = 1 := Nat.mod_eq_of_lt ((canon_prime hk 1).mp (canon_one h))
  rw [fdiv_eq_bind, finv_prime_canon hk (canon_one h) one_ne_zero, one_pow, h1, ok_bind, fmul_comm, one_fmul h ha]

/-- Adding (0, 1) has the denominators 1 and 1. -/
theorem paddE_zero_one_left (hx : canon c x = true) (hy : canon c y = true) :
    paddE c e (.affine 0 1) (.affine x y) = .ok (.affine x y) := by
  have h1 := canon_one h
  have hplus : fadd c (fnorm c 1) (edwardsT c e 0 1 x y) = 1 :=
    eq_of_cast_eq hk (canon_fadd_prime hk h _ _) h1 (by simp [cast_fadd hk, cast_fnorm hk, cast_edwardsT hk])
  have hminus : fsub c (fnorm c 1) (edwardsT c e 0 1 x y) = 1 :=
    eq_of_cast_eq hk (canon_fsub_prime hk h _ _) h1
      (by simp [cast_fsub hk h.modulus_pos, cast_fnorm hk, cast_edwardsT hk])
  have hx3 : fadd c (fmul c 0 y) (fmul c 1 x) = x :=
    eq_of_cast_eq hk (canon_fadd_prime hk h _ _) hx (by simp [cast_fadd hk, cast_fmul hk])
  have hy3 : fsub c (fmul c 1 y) (fmul c 0 x) = y :=
    eq_of_cast_eq hk (canon_fsub_prime hk h _ _) hy (by simp [cast_fsub hk h.modulus_pos, cast_fmul hk])
  rw [paddE_affine, hplus, hminus, hx3, hy3, if_neg (by simp), fdiv_one hk h hx, ok_bind, fdiv_one hk h hy, ok_bind]

/-- The equation of form E, on residues (43_point.md R202). -/
theorem edwards_equation_iff (hf : e.form = .edwards) : onCurve c e (.affine x y) = true ↔
    (x : ZMod c.modulus) ^ 2 + y ^ 2 = 1 + e.a * x ^ 2 * y ^ 2 := by
  rw [onCurve_edwards_prime_iff h hk hf, ← ZMod.natCast_eq_natCast_iff']
  push_cast
  rfl

/-- On the curve the two quotients of the sum with the negative are 0 and 1. -/
theorem paddE_neg (hp : Nat.Prime c.modulus) (hf : e.form = .edwards) (hpt : onCurve c e (.affine x y) = true) :
    paddE c e (.affine x y) (.affine (fneg c x) y) = .ok (.affine 0 1) := by
  have : Fact (Nat.Prime c.modulus) := ⟨hp⟩
  by_cases h0 : 1 + (e.a * x * (fneg c x : Nat) * y * y : ZMod c.modulus) = 0
      ∨ 1 - (e.a * x * (fneg c x : Nat) * y * y : ZMod c.modulus) = 0
  · exact paddE_of_zero hk h h0
  · obtain ⟨hplus, hminus⟩ := not_or.mp h0
    obtain ⟨x3, y3, hsum, hx3, hy3, hx, hy⟩ := paddE_of_ne_zero hk h hp hplus hminus
    have heq := (edwards_equation_iff hk h hf).mp hpt
    have hneg := cast_fneg hk h.modulus_pos x
    have hx0 : x3 = 0 := by
      refine eq_of_cast_eq hk ((canon_prime hk _).mpr hx3) (canon_zero h) (mul_right_cancel₀ hplus ?_)
      rw [hx, hneg]
      push_cast
      ring
    have hy1 : y3 = 1 := by
      refine eq_of_cast_eq hk ((canon_prime hk _).mpr hy3) (canon_one h) (mul_right_cancel₀ hminus ?_)
      rw [hy, hneg]
      push_cast
      linear_combination heq
    rw [hsum, hx0, hy1]

omit hk h in
/-- The formulas of R208 stay on the curve: the sum of squares of the numerators over the common denominator is a
product of two factors, each of which is (1 + t)(1 − t) by the equations of the two points. -/
theorem edwards_closure {F : Type} [Field F] {d x1 y1 x2 y2 x3 y3 : F} (h1 : x1 ^ 2 + y1 ^ 2 = 1 + d * x1 ^ 2 * y1 ^ 2)
    (h2 : x2 ^ 2 + y2 ^ 2 = 1 + d * x2 ^ 2 * y2 ^ 2) (hplus : 1 + d * x1 * x2 * y1 * y2 ≠ 0)
    (hminus : 1 - d * x1 * x2 * y1 * y2 ≠ 0) (hx : x3 * (1 + d * x1 * x2 * y1 * y2) = x1 * y2 + y1 * x2)
    (hy : y3 * (1 - d * x1 * x2 * y1 * y2) = y1 * y2 - x1 * x2) :
    x3 ^ 2 + y3 ^ 2 = 1 + d * x3 ^ 2 * y3 ^ 2 := by
  set t := d * x1 * x2 * y1 * y2 with ht
  have hfactor1 : x1 ^ 2 + y1 ^ 2 - (x2 ^ 2 + y2 ^ 2) * (d * x1 ^ 2 * y1 ^ 2) = (1 + t) * (1 - t) := by
    rw [ht]
    linear_combination h1 - d * x1 ^ 2 * y1 ^ 2 * h2
  have hfactor2 : x2 ^ 2 + y2 ^ 2 - (x1 ^ 2 + y1 ^ 2) * (d * x2 ^ 2 * y2 ^ 2) = (1 + t) * (1 - t) := by
    rw [ht]
    linear_combination h2 - d * x2 ^ 2 * y2 ^ 2 * h1
  have hproduct : ((x1 * y2 + y1 * x2) * (1 - t)) ^ 2 + ((y1 * y2 - x1 * x2) * (1 + t)) ^ 2
      - d * ((x1 * y2 + y1 * x2) * (y1 * y2 - x1 * x2)) ^ 2
      = (x1 ^ 2 + y1 ^ 2 - (x2 ^ 2 + y2 ^ 2) * (d * x1 ^ 2 * y1 ^ 2))
        * (x2 ^ 2 + y2 ^ 2 - (x1 ^ 2 + y1 ^ 2) * (d * x2 ^ 2 * y2 ^ 2)) := by
    rw [ht]
    ring
  rw [hfactor1, hfactor2, ← hx, ← hy] at hproduct
  refine mul_right_cancel₀ (pow_ne_zero 2 (mul_ne_zero hplus hminus)) ?_
  linear_combination hproduct

/-- The Edwards sum of two points of the curve is a point of the curve. -/
theorem paddE_closed (hp : Nat.Prime c.modulus) (hf : e.form = .edwards) (h1 : onCurve c e (.affine x1 y1) = true)
    (h2 : onCurve c e (.affine x2 y2) = true) (hid : PointWf c e (ident e)) :
    ∃ r, paddE c e (.affine x1 y1) (.affine x2 y2) = .ok r ∧ PointWf c e r := by
  have : Fact (Nat.Prime c.modulus) := ⟨hp⟩
  by_cases h0 : 1 + (e.a * x1 * x2 * y1 * y2 : ZMod c.modulus) = 0
      ∨ 1 - (e.a * x1 * x2 * y1 * y2 : ZMod c.modulus) = 0
  · exact ⟨_, paddE_of_zero hk h h0, ident_of_edwards hf ▸ hid⟩
  · obtain ⟨hplus, hminus⟩ := not_or.mp h0
    obtain ⟨x3, y3, hsum, hx3, hy3, hx, hy⟩ := paddE_of_ne_zero hk h hp hplus hminus
    refine ⟨_, hsum, ⟨(canon_prime hk _).mpr hx3, (canon_prime hk _).mpr hy3⟩, ?_⟩
    rw [edwards_equation_iff hk h hf] at h1 h2 ⊢
    exact edwards_closure h1 h2 hplus hminus hx hy

/-! ### The laws, for every form (43_point.md R221) -/

theorem padd_ident_left {p : Point} (hpt : PointWf c e p) : padd c e (ident e) p = .ok p := by
  by_cases hf : e.form = .edwards
  · obtain ⟨x, y, rfl⟩ := exists_affine_of_edwards hf hpt
    rw [padd_edwards hf, ident_of_edwards hf]
    exact paddE_zero_one_left hk h hpt.1.1 hpt.1.2
  · rw [ident_of_ne_edwards hf, padd_infinity_left hf]

theorem padd_ident_right {p : Point} (hpt : PointWf c e p) : padd c e p (ident e) = .ok p := by
  by_cases hf : e.form = .edwards
  · rw [padd_edwards hf, paddE_comm, ← padd_edwards hf]
    exact padd_ident_left hk h hpt
  · rw [ident_of_ne_edwards hf, padd_infinity_right hf]

/-- A canonical y that is its own negative is 0, as p is odd. -/
theorem eq_zero_of_eq_fneg (hy : canon c y = true) (heq : y = fneg c y) : y = 0 := by
  have hodd := h.modulus_odd hk
  rw [canon_prime hk] at hy
  rw [fneg_prime hk hy.le] at heq
  by_contra h0
  rw [Nat.mod_eq_of_lt (by omega)] at heq
  omega

theorem padd_self {p : Point} (hpt : PointWf c e p) : padd c e p p = pdbl c e p := by
  by_cases hf : e.form = .edwards
  · exact (pdbl_edwards hf p).symm
  · cases p with
    | infinity => rw [padd_infinity_left hf, pdbl_infinity hf]
    | affine x y =>
      by_cases hy : y = fneg c y
      · rw [padd_opposite hf hy, eq_zero_of_eq_fneg hk h hpt.1.2 hy, pdbl_of_y_zero hf]
      · exact padd_of_x_eq hf hy

theorem padd_pneg {p : Point} (hpt : PointWf c e p) (hp : e.form ≠ .edwards ∨ Nat.Prime c.modulus) :
    padd c e p (pneg c e p) = .ok (ident e) := by
  by_cases hf : e.form = .edwards
  · obtain ⟨x, y, rfl⟩ := exists_affine_of_edwards hf hpt
    rw [pneg_edwards hf, padd_edwards hf, ident_of_edwards hf]
    exact paddE_neg hk h (hp.resolve_left (not_not_intro hf)) hf hpt.2
  · rw [ident_of_ne_edwards hf]
    cases p with
    | infinity => rw [pneg_infinity, padd_infinity_left hf]
    | affine x y => rw [pneg_of_ne_edwards hf hk, padd_opposite hf rfl]

theorem padd_comm (hw : CurveWf c e) {p q : Point} (hpt : PointWf c e p) (hqt : PointWf c e q)
    (hp : e.form = .edwards ∨ Nat.Prime c.modulus) : padd c e p q = padd c e q p := by
  by_cases hf : e.form = .edwards
  · rw [padd_edwards hf, padd_edwards hf, paddE_comm]
  · have : Fact (Nat.Prime c.modulus) := ⟨hp.resolve_left hf⟩
    exact padd_comm_of_ne_edwards hk h hw hf hpt hqt

/-- The sum of two points of a curve over a prime field with a prime modulus is a point of the curve. -/
theorem padd_closed (hp : Nat.Prime c.modulus) (hw : CurveWf c e) {p q : Point} (hpt : PointWf c e p)
    (hqt : PointWf c e q) : ∃ r, padd c e p q = .ok r ∧ PointWf c e r := by
  by_cases hf : e.form = .edwards
  · obtain ⟨x1, y1, rfl⟩ := exists_affine_of_edwards hf hpt
    obtain ⟨x2, y2, rfl⟩ := exists_affine_of_edwards hf hqt
    rw [padd_edwards hf]
    exact paddE_closed hk h hp hf hpt.2 hqt.2 (pointWf_ident h hw)
  · have : Fact (Nat.Prime c.modulus) := ⟨hp⟩
    obtain ⟨P, hP⟩ := exists_standsFor hk h hw hf hpt
    obtain ⟨Q, hQ⟩ := exists_standsFor hk h hw hf hqt
    obtain ⟨r, hr, hR⟩ := padd_standsFor hk h hw hf hP hQ
    exact ⟨r, hr, hR.pointWf hk h hw hf⟩

end

/-- Settles O45: each law by its own lemma, for E from the formulas of R208 and for W and M from the case split of R205
and the group. -/
theorem pointUnitLaws : Obligations.PointUnitLaws := by
  intro c e p q h hw hk hpt hqt
  exact ⟨padd_ident_left hk h hpt, padd_ident_right hk h hpt, padd_self hk h hpt, padd_pneg hk h hpt,
    padd_comm hk h hw hpt hqt⟩

end Sys2Proof.Machine
end

section
/-! Scalar multiplication: the loops of the model are the folds of the statement, and on a curve over a prime field
with a prime modulus both give the multiple of the point. -/

namespace Sys2Proof.Machine

open Sys2Proof.Stated

variable {c : FieldCfg} {e : CurveCfg} {s : State}

/-! ### Double-and-add and the ladder as folds (44_scalar.md R240, R241) -/

theorem addBit_eq_sumWhen (s : State) (bit : Bool) (r a : Point) :
    addBit s.field s.curve bit r a = sumWhen s bit r a := by
  rw [addBit, sumWhen, checked_padd]

theorem doubleWhen_true (s : State) (a : Point) : doubleWhen s true a = pdblChk s.field s.curve a := by
  rw [doubleWhen, if_pos rfl, checked_pdbl]

theorem doubleWhen_false (s : State) (a : Point) : doubleWhen s false a = .ok a := rfl

theorem sumWhen_true (s : State) (r a : Point) : sumWhen s true r a = paddChk s.field s.curve r a := by
  rw [sumWhen, if_pos rfl, checked_padd]

theorem addPass_eq (s : State) (k i : Nat) (r a : Point) :
    addPass s k (r, a) i
      = addBit s.field s.curve (k.testBit i) r a >>= fun r' =>
        doubleWhen s (decide (i < k.log2)) a >>= fun a' => .ok (r', a') := by
  rw [addBit_eq_sumWhen]
  rfl

theorem ladderPass_eq (s : State) (k i : Nat) (r0 r1 : Point) :
    ladderPass s k (r0, r1) i
      = paddChk s.field s.curve r0 r1 >>= fun sum =>
        pdblChk s.field s.curve (if k.testBit i = true then r1 else r0) >>= fun double =>
        .ok (if k.testBit i = true then (sum, double) else (double, sum)) := by
  rw [← sumWhen_true, ← doubleWhen_true]
  rfl

theorem shiftRight_mod_two (k j : Nat) : (k >>> j % 2 == 1) = k.testBit j := by
  rw [Nat.testBit_eq_decide_div_mod_eq, Nat.shiftRight_eq_div_pow]
  rfl

theorem shiftRight_succ_eq_zero_iff {k j : Nat} (hk : k ≠ 0) : k >>> j / 2 = 0 ↔ k.log2 ≤ j := by
  rw [← Nat.shiftRight_succ, shiftRight_eq_zero_iff_lt, ← Nat.log2_lt hk, Nat.lt_succ_iff]

/-- The loop at bit j runs on the scalar shifted down by j. -/
theorem smulDaLoop_eq_foldlM (s : State) {k : Nat} (hk : k ≠ 0) : ∀ n j a r, j + n = k.log2 →
    smulDaLoop s.field s.curve (n + 1) (k >>> j) a r
      = (List.range' j (n + 1)).foldlM (addPass s k) (r, a) >>= fun last => .ok last.1 := by
  intro n
  induction n with
  | zero =>
    intro j a r hj
    obtain rfl : j = k.log2 := hj
    rw [smulDaLoop, shiftRight_mod_two, List.range'_one, List.foldlM_cons, addPass_eq, decide_eq_false (lt_irrefl _)]
    simp only [shiftRight_succ_eq_zero_iff hk, le_refl, if_true, doubleWhen_false]
    cases addBit s.field s.curve (k.testBit k.log2) r a <;> rfl
  | succ n ih =>
    intro j a r hj
    have hlt : j < k.log2 := by omega
    rw [smulDaLoop, shiftRight_mod_two, List.range'_succ, List.foldlM_cons, addPass_eq, decide_eq_true hlt,
      doubleWhen_true]
    simp only [shiftRight_succ_eq_zero_iff hk, not_le.mpr hlt, if_false]
    cases addBit s.field s.curve (k.testBit j) r a with
    | error x => rfl
    | ok r' =>
      cases pdblChk s.field s.curve a with
      | error x => rfl
      | ok a' => exact ih (j + 1) a' r' (by omega)

theorem smulDa_eq_doubleAndAdd (s : State) (pt : Point) (k : Nat) :
    smulDa s.field s.curve pt k = doubleAndAdd s pt k := by
  have hid : isId s.curve pt = true ↔ pt = ident s.curve := by rw [isId, beq_iff_eq]
  simp only [smulDa, doubleAndAdd, hid]
  split
  case isTrue => rfl
  case isFalse hne =>
    rw [List.range_eq_range']
    exact smulDaLoop_eq_foldlM s (not_or.mp hne).1 _ 0 _ _ (Nat.zero_add _)

theorem smulMlLoop_eq_foldlM (s : State) (k : Nat) : ∀ n r0 r1,
    smulMlLoop s.field s.curve k n r0 r1
      = (List.range n).reverse.foldlM (ladderPass s k) (r0, r1) >>= fun last => .ok last.1 := by
  intro n
  induction n with
  | zero => exact fun _ _ => rfl
  | succ n ih =>
    intro r0 r1
    rw [List.range_succ, List.reverse_append, List.reverse_singleton, List.singleton_append, List.foldlM_cons,
      smulMlLoop, ladderPass_eq]
    cases paddChk s.field s.curve r0 r1 with
    | error x => rfl
    | ok sum =>
      cases k.testBit n with
      | true =>
        cases hd : pdblChk s.field s.curve r1 with
        | error x => simp [hd]
        | ok double => simpa [hd] using ih sum double
      | false =>
        cases hd : pdblChk s.field s.curve r0 with
        | error x => simp [hd]
        | ok double => simpa [hd] using ih double sum

theorem smulMl_eq_ladder (s : State) (pt : Point) (k : Nat) : smulMl s.field s.curve pt k = ladder s pt k :=
  smulMlLoop_eq_foldlM s k _ _ _

theorem smul_montgomery (hf : e.form = .montgomery) (p : Point) (k : Nat) : smul c e p k = smulMl c e p k := by
  simp only [smul, hf]

theorem smul_of_ne_montgomery (hf : e.form ≠ .montgomery) (p : Point) (k : Nat) : smul c e p k = smulDa c e p k := by
  cases h : e.form with
  | montgomery => exact absurd h hf
  | weierstrass | edwards => simp only [smul, h]

section
variable {rd rs1 : PIdx} {rs2 : KIdx} {pt : Point} {k : Nat} (hv : s.curve.valid = true) (hp : HoldsP s rs1 pt)
  (hk : HoldsK s rs2 k)
include hv hp hk

theorem exec_psmul_holds : EndsWithPoint s rd (.psmul rd rs1 rs2) (smul s.field s.curve pt k) :=
  endsWithPoint_of_exec ((exec_psmul ..).trans (scalarMul_holds hv hp hk))

theorem exec_psmulda_holds : EndsWithPoint s rd (.psmulda rd rs1 rs2) (smulDa s.field s.curve pt k) :=
  endsWithPoint_of_exec ((exec_psmulda ..).trans (scalarMul_holds hv hp hk))

theorem exec_psmulml_holds : EndsWithPoint s rd (.psmulml rd rs1 rs2) (smulMl s.field s.curve pt k) :=
  endsWithPoint_of_exec ((exec_psmulml ..).trans (scalarMul_holds hv hp hk))

end

/-- Settles O48: each loop is the fold of its passes, and each command takes its algorithm. -/
theorem scalarMultiplicationResults : Obligations.ScalarMultiplicationResults := by
  intro s rd rs1 rs2 pt k hv hp hk
  refine ⟨smulDa_eq_doubleAndAdd s pt k, smulMl_eq_ladder s pt k, exec_psmulda_holds hv hp hk,
    exec_psmulml_holds hv hp hk, fun hf => ?_, fun hf => ?_⟩
  · rw [← smul_montgomery hf]
    exact exec_psmul_holds hv hp hk
  · rw [← smul_of_ne_montgomery hf]
    exact exec_psmul_holds hv hp hk

/-! ### Multiples in a group (44_scalar.md R249) -/

/-- `padd` and `pdbl` never raise on the points that stand for elements of `G`, and add as `G` does. -/
structure AddsAs {G : Type} [AddCommMonoid G] (c : FieldCfg) (e : CurveCfg) (rel : Point → G → Prop) : Prop where
  pointWf : ∀ {p P}, rel p P → PointWf c e p
  ident : rel (ident e) 0
  eq_zero : ∀ {P}, rel (Machine.ident e) P → P = 0
  padd : ∀ {p q P Q}, rel p P → rel q Q → ∃ r, padd c e p q = .ok r ∧ rel r (P + Q)
  pdbl : ∀ {p P}, rel p P → ∃ r, pdbl c e p = .ok r ∧ rel r (P + P)

section
variable {G : Type} [AddCommMonoid G] {rel : Point → G → Prop} (hG : AddsAs c e rel)
include hG

theorem AddsAs.paddChk {p q : Point} {P Q : G} (hp : rel p P) (hq : rel q Q) :
    ∃ r, paddChk c e p q = .ok r ∧ rel r (P + Q) := by
  obtain ⟨r, hr, hR⟩ := hG.padd hp hq
  exact ⟨r, by rw [paddChk_eq, hr, ok_bind, chk_of_onCurve (hG.pointWf hR).2], hR⟩

theorem AddsAs.pdblChk {p : Point} {P : G} (hp : rel p P) : ∃ r, pdblChk c e p = .ok r ∧ rel r (P + P) := by
  obtain ⟨r, hr, hR⟩ := hG.pdbl hp
  exact ⟨r, by rw [pdblChk_eq, hr, ok_bind, chk_of_onCurve (hG.pointWf hR).2], hR⟩

theorem AddsAs.addBit {b : Bool} {r a : Point} {R A : G} (hr : rel r R) (ha : rel a A) :
    ∃ u, addBit c e b r a = .ok u ∧ rel u (R + b.toNat • A) := by
  cases b with
  | false => exact ⟨r, rfl, by simpa using hr⟩
  | true => simpa [Machine.addBit] using hG.paddChk hr ha

theorem AddsAs.smulDaLoop : ∀ n k a r A R, k < 2 ^ n → rel a A → rel r R →
    ∃ u, smulDaLoop c e n k a r = .ok u ∧ rel u (R + k • A) := by
  intro n
  induction n with
  | zero =>
    intro k a r A R hk _ hr
    obtain rfl : k = 0 := by simpa using hk
    exact ⟨r, rfl, by simpa using hr⟩
  | succ n ih =>
    intro k a r A R hk ha hr
    have hbit : (k % 2 == 1).toNat = k % 2 := by obtain h | h := Nat.mod_two_eq_zero_or_one k <;> simp [h]
    obtain ⟨r', hr', hR'⟩ := hG.addBit (b := k % 2 == 1) hr ha
    rw [hbit] at hR'
    rw [Machine.smulDaLoop, hr', ok_bind]
    split
    case isTrue h0 =>
      have hmod : k % 2 = k := by omega
      exact ⟨r', rfl, by rwa [hmod] at hR'⟩
    case isFalse h0 =>
      obtain ⟨a', ha', hA'⟩ := hG.pdblChk ha
      obtain ⟨u, hu, hU⟩ := ih (k / 2) a' r' _ _ (by omega) hA' hR'
      refine ⟨u, by rw [ha', ok_bind, hu], ?_⟩
      rwa [← two_nsmul, ← mul_nsmul, add_assoc, ← add_nsmul, Nat.mod_add_div] at hU

/-- Double-and-add gives the k-fold sum. -/
theorem AddsAs.smulDa {p : Point} {P : G} (hp : rel p P) (k : Nat) : ∃ u, smulDa c e p k = .ok u ∧ rel u (k • P) := by
  rw [Machine.smulDa]
  split
  case isTrue h0 =>
    refine ⟨_, rfl, ?_⟩
    have hzero : k • P = 0 := by
      obtain rfl | hid := h0
      · exact zero_nsmul P
      · obtain rfl : p = Machine.ident e := by simpa [isId] using hid
        rw [hG.eq_zero hp, nsmul_zero]
    rw [hzero]
    exact hG.ident
  case isFalse => simpa using hG.smulDaLoop _ k p _ P 0 Nat.lt_log2_self hp hG.ident

omit hG in
theorem mod_two_pow_succ (k n : Nat) : k % 2 ^ (n + 1) = k % 2 ^ n + 2 ^ n * (k.testBit n).toNat := by
  rw [pow_succ, Nat.mod_mul, Nat.toNat_testBit]

/-- The ladder keeps the second point one P ahead of the first. -/
theorem AddsAs.smulMlLoop (k : Nat) (P : G) : ∀ n r0 r1 R, rel r0 R → rel r1 (R + P) →
    ∃ u, smulMlLoop c e k n r0 r1 = .ok u ∧ rel u (2 ^ n • R + (k % 2 ^ n) • P) := by
  intro n
  induction n with
  | zero => exact fun r0 r1 R h0 _ => ⟨r0, rfl, by simpa [Nat.mod_one] using h0⟩
  | succ n ih =>
    intro r0 r1 R h0 h1
    obtain ⟨sum, hs, hS⟩ := hG.paddChk h0 h1
    rw [Machine.smulMlLoop, hs, ok_bind, mod_two_pow_succ]
    cases k.testBit n with
    | true =>
      obtain ⟨d, hd, hD⟩ := hG.pdblChk h1
      obtain ⟨u, hu, hU⟩ := ih sum d (R + (R + P)) hS (by rwa [add_right_comm R])
      refine ⟨u, by simp only [if_true, hd, ok_bind, hu], ?_⟩
      convert hU using 1
      simp only [Bool.toNat_true]
      module
    | false =>
      obtain ⟨d, hd, hD⟩ := hG.pdblChk h0
      obtain ⟨u, hu, hU⟩ := ih d sum (R + R) hD (by rwa [← add_assoc] at hS)
      refine ⟨u, by simp only [Bool.false_eq_true, if_false, hd, ok_bind, hu], ?_⟩
      convert hU using 1
      simp only [Bool.toNat_false]
      module

/-- The ladder gives the k-fold sum, for a scalar of NBITS bits. -/
theorem AddsAs.smulMl {p : Point} {P : G} (hp : rel p P) {k : Nat} (hk : k < 2 ^ Config.nbits) :
    ∃ u, smulMl c e p k = .ok u ∧ rel u (k • P) := by
  obtain ⟨u, hu, hU⟩ := hG.smulMlLoop k P Config.nbits (Machine.ident e) p 0 hG.ident (by rwa [zero_add])
  rw [Nat.mod_eq_of_lt hk, nsmul_zero, zero_add] at hU
  exact ⟨u, hu, hU⟩

theorem AddsAs.smul {p : Point} {P : G} (hp : rel p P) {k : Nat} (hk : k < 2 ^ Config.nbits) :
    ∃ u, smul c e p k = .ok u ∧ rel u (k • P) := by
  by_cases hf : e.form = .montgomery
  · rw [smul_montgomery hf]
    exact hG.smulMl hp hk
  · rw [smul_of_ne_montgomery hf]
    exact hG.smulDa hp k

/-- Adding the point k times to the identity gives the k-fold sum. -/
theorem AddsAs.iterate_padd {p : Point} {P : G} (hp : rel p P) (k : Nat) :
    ∃ u, (fun acc => Except.bind acc (Machine.padd c e p))^[k] (.ok (Machine.ident e)) = .ok u ∧ rel u (k • P) := by
  induction k with
  | zero => exact ⟨_, rfl, by rw [zero_nsmul]; exact hG.ident⟩
  | succ k ih =>
    obtain ⟨u, hu, hU⟩ := ih
    obtain ⟨r, hr, hR⟩ := hG.padd hp hU
    refine ⟨r, ?_, by rwa [succ_nsmul']⟩
    rw [Function.iterate_succ_apply', hu]
    exact hr

end

section
variable (hk : c.kind = .prime) (h : FieldWf c) (hw : CurveWf c e)
include hk h hw

/-- The points of form W and M add as the group of the elliptic curve. -/
theorem addsAs_standsFor [Fact (Nat.Prime c.modulus)] (hf : e.form ≠ .edwards) : AddsAs c e (StandsFor c e) where
  pointWf hs := hs.pointWf hk h hw hf
  ident := by
    rw [ident_of_ne_edwards hf]
    exact .infinity
  eq_zero hs := by
    rw [ident_of_ne_edwards hf] at hs
    cases hs
    rfl
  padd := padd_standsFor hk h hw hf
  pdbl := pdbl_standsFor hk h hw hf

/-- The points of every form add as the group of one element, which is to say that they are closed. -/
theorem addsAs_pointWf (hp : Nat.Prime c.modulus) : AddsAs c e (fun p (_ : PUnit) => PointWf c e p) where
  pointWf := id
  ident := pointWf_ident h hw
  eq_zero _ := rfl
  padd := padd_closed hk h hp hw
  pdbl hpt := padd_self hk h hpt ▸ padd_closed hk h hp hw hpt hpt

end

/-- Settles O49: all three are the k-fold multiple in the group of the curve, and one point stands for it. -/
theorem bothAlgorithmsAreRepeatedAddition : Obligations.BothAlgorithmsAreRepeatedAddition := by
  rintro c e p k h ⟨hk, hp⟩ hw hf hpt hlt
  have : Fact (Nat.Prime c.modulus) := ⟨hp⟩
  have hG := addsAs_standsFor hk h hw hf
  obtain ⟨P, hP⟩ := exists_standsFor hk h hw hf hpt
  obtain ⟨r, hda, hR⟩ := hG.smulDa hP k
  obtain ⟨r', hml, hR'⟩ := hG.smulMl hP hlt
  obtain ⟨r'', hit, hR''⟩ := hG.iterate_padd hP k
  obtain rfl := hR.injective hk h hw hf hR'
  obtain rfl := hR.injective hk h hw hf hR''
  exact ⟨r, hR.pointWf hk h hw hf, hda, hml, hit⟩

/-- A command whose computation gives a point of the curve ends with it. -/
theorem exec_writesP_pointWf {rd : PIdx} {i : Instr} {o : Except Err Point} (hi : EndsWithPoint s rd i o)
    (ho : ∃ r, o = .ok r ∧ PointWf s.field s.curve r) :
    ∃ t r, exec i s = .next t ∧ WritesP s t rd r ∧ PointWf s.field s.curve r := by
  obtain ⟨r, hr, hpt⟩ := ho
  obtain ⟨t, ht, hwr⟩ := hi.1 r hr
  exact ⟨t, r, ht, hwr, hpt⟩

/-- Settles O46: the points of the curve are closed under `padd` and `pdbl`, and so under the loops made of them. -/
theorem primeCurvesAreClosed : Obligations.PrimeCurvesAreClosed := by
  rintro s rd rs1 rs2 kn a b k hI hv ⟨hk, hp⟩ ha hb hkn i hi
  have hG := addsAs_pointWf hk (hI.fieldWf_of_curve hv) (hI.curveWf hv) hp
  have hlt : k < 2 ^ Config.nbits := srcK_lt (srcK_holds hkn)
  have hpa := hI.pointWf ha
  have hpb := hI.pointWf hb
  simp only [List.mem_cons, List.not_mem_nil, or_false] at hi
  obtain rfl | rfl | rfl | rfl | rfl := hi
  · exact exec_writesP_pointWf (exec_padd_holds hv ha hb) (hG.paddChk (P := ⟨⟩) (Q := ⟨⟩) hpa hpb)
  · exact exec_writesP_pointWf (exec_pdbl_holds hv ha) (hG.pdblChk (P := ⟨⟩) hpa)
  · exact exec_writesP_pointWf (exec_psmul_holds hv ha hkn) (hG.smul (P := ⟨⟩) hpa hlt)
  · exact exec_writesP_pointWf (exec_psmulda_holds hv ha hkn) (hG.smulDa (P := ⟨⟩) hpa k)
  · exact exec_writesP_pointWf (exec_psmulml_holds hv ha hkn) (hG.smulMl (P := ⟨⟩) hpa hlt)

end Sys2Proof.Machine
end

section
/-! The error matrix: which errors each primitive and each read can meet, and that no command's ending depends on the
error latch. -/

namespace Sys2Proof.Machine

open Sys2Proof.Stated

/-! ### The errors of the arithmetic (41_field.md R158, 43_point.md R209) -/

section
variable {c : FieldCfg} {e : CurveCfg} {x : Err}

/-- The error of a division whose divisor is not 0. -/
theorem fdiv_error_of_ne_zero {a b : Nat} (hb : b ≠ 0) (hx : fdiv c a b = .error x) : x = .notInvertible := by
  cases hk : c.kind with
  | prime =>
    rw [fdiv_eq_bind, finv_prime hk hb] at hx
    cases hx
  | binary =>
    cases hi : finv c b with
    | ok i =>
      rw [fdiv_of_finv_ok hi] at hx
      cases hx
    | error x' =>
      rw [(fdiv_error_binary hk a hb hi).2] at hx
      cases hx
      rfl

theorem finv_error {a : Nat} (hx : finv c a = .error x) : x = .divisionByZero ∨ x = .notInvertible := by
  rcases eq_or_ne a 0 with rfl | h0
  · cases hx
    exact .inl rfl
  · refine .inr (fdiv_error_of_ne_zero (c := c) (a := 1) h0 ?_)
    rw [fdiv_eq_bind, hx, error_bind]

theorem fdiv_error {a b : Nat} (hx : fdiv c a b = .error x) : x = .divisionByZero ∨ x = .notInvertible := by
  obtain hx | ⟨i, -, hx⟩ := bind_error_iff.mp hx
  · exact finv_error hx
  · cases hx

theorem fpow_error {a k : Nat} {neg : Bool} (hx : fpow c a k neg = .error x) :
    x = .divisionByZero ∨ x = .notInvertible := by
  unfold fpow at hx
  split at hx
  · cases hx
  split at hx
  · obtain hx | ⟨i, -, hx⟩ := bind_error_iff.mp hx
    · exact finv_error hx
    · cases hx
  · cases hx

theorem fsqrt_error {a : Nat} (hx : fsqrt c a = .error x) : x = .unsupported := by
  unfold fsqrt at hx
  split at hx
  · cases hx
  split at hx
  · cases hx
  split at hx
  · cases hx
  split at hx <;> cases hx
  rfl

theorem primeOnly_error {r : Nat} (hx : primeOnly c r = .error x) : x = .unsupported := by
  unfold primeOnly at hx
  split at hx <;> cases hx
  rfl

/-- The errors of the sums and doubles with their check: DivisionByZero on a curve of form M over a composite modulus
alone (notes/assumptions/13). -/
def PointError (c : FieldCfg) (e : CurveCfg) (x : Err) : Prop :=
  x = .notInvertible ∨ x = .pointNotOnCurve
    ∨ (x = .divisionByZero ∧ e.form = .montgomery ∧ c.kind = .prime ∧ ¬Nat.Prime c.modulus)

section
variable (h : FieldWf c)
include h

theorem fsub_ne_zero {a b : Nat} (ha : canon c a = true) (hb : canon c b = true) (hab : a ≠ b) : fsub c b a ≠ 0 := by
  cases hk : c.kind with
  | prime =>
    intro h0
    have hcast := cast_fsub hk h.modulus_pos b a
    rw [h0, Nat.cast_zero, eq_comm, sub_eq_zero] at hcast
    exact hab (eq_of_cast_eq hk hb ha hcast).symm
  | binary =>
    simp only [fsub, hk]
    exact mt Nat.xor_eq_zero_iff.mp hab.symm

/-- Twice a nonzero value is not 0, as p is odd. -/
theorem fmul_two_ne_zero (hk : c.kind = .prime) {y : Nat} (hy : canon c y = true) (h0 : y ≠ 0) :
    fmul c (fnorm c 2) y ≠ 0 := by
  intro hmul
  have hodd : c.modulus.Coprime 2 := Nat.coprime_two_right.mpr (Nat.odd_iff.mpr (h.modulus_odd hk))
  have hdvd : c.modulus ∣ 2 * y := by
    rw [← ZMod.natCast_eq_zero_iff, Nat.cast_mul, ← cast_fnorm hk 2, ← cast_fmul hk, hmul, Nat.cast_zero]
  rw [canon_prime hk] at hy
  exact h0 (Nat.eq_zero_of_dvd_of_lt (hodd.dvd_of_dvd_mul_left hdvd) hy)

theorem tangentSlope_error (hw : CurveWf c e) (hf : e.form ≠ .edwards) {x1 y1 : Nat} (hy : canon c y1 = true)
    (h0 : y1 ≠ 0) (hx : tangentSlope c e x1 y1 = .error x) : PointError c e x := by
  cases hk : c.kind with
  | binary =>
    rw [tangentSlope_binary hk (hw.weierstrass_of_binary hk)] at hx
    exact .inl (fdiv_error_of_ne_zero h0 hx)
  | prime =>
    by_cases hp : Nat.Prime c.modulus
    · obtain ⟨l, hl, -⟩ := tangent_slope hk h hp (x1 := x1) hw hf hy h0
      rw [hl] at hx
      cases hx
    · cases hform : e.form with
      | edwards => exact absurd hform hf
      | weierstrass =>
        rw [tangentSlope_weierstrass hform, tangentW, hk] at hx
        exact .inl (fdiv_error_of_ne_zero (fmul_two_ne_zero h hk hy h0) hx)
      | montgomery =>
        rw [tangentSlope_montgomery hform, tangentM] at hx
        exact (fdiv_error hx).elim (fun hd => .inr (.inr ⟨hd, hform, hk, hp⟩)) .inl

omit h in
theorem paddE_error {p q : Point} (hx : paddE c e p q = .error x) : x = .notInvertible := by
  cases p with
  | infinity => cases hx
  | affine x1 y1 =>
    cases q with
    | infinity => cases hx
    | affine x2 y2 =>
      rw [paddE_affine] at hx
      split at hx
      · cases hx
      · rename_i h0
        obtain ⟨hplus, hminus⟩ := not_or.mp h0
        obtain hx | ⟨x3, -, hx⟩ := bind_error_iff.mp hx
        · exact fdiv_error_of_ne_zero hplus hx
        · obtain hx | ⟨y3, -, hx⟩ := bind_error_iff.mp hx
          · exact fdiv_error_of_ne_zero hminus hx
          · cases hx

theorem pdbl_error (hw : CurveWf c e) {p : Point} (hp : CanonPoint c p) (hx : pdbl c e p = .error x) :
    PointError c e x := by
  by_cases hf : e.form = .edwards
  · rw [pdbl_edwards hf, padd_edwards hf] at hx
    exact .inl (paddE_error hx)
  · cases p with
    | infinity =>
      rw [pdbl_infinity hf] at hx
      cases hx
    | affine x1 y1 =>
      by_cases h0 : y1 = 0
      · rw [h0, pdbl_of_y_zero hf] at hx
        cases hx
      · rw [pdbl_of_y_ne_zero hf h0] at hx
        obtain hx | ⟨l, -, hx⟩ := bind_error_iff.mp hx
        · exact tangentSlope_error h hw hf hp.2 h0 hx
        · cases hx

theorem padd_error (hw : CurveWf c e) {p q : Point} (hp : CanonPoint c p) (hq : CanonPoint c q)
    (hx : padd c e p q = .error x) : PointError c e x := by
  by_cases hf : e.form = .edwards
  · rw [padd_edwards hf] at hx
    exact .inl (paddE_error hx)
  · cases p with
    | infinity =>
      rw [padd_infinity_left hf] at hx
      cases hx
    | affine x1 y1 =>
      cases q with
      | infinity =>
        rw [padd_infinity_right hf] at hx
        cases hx
      | affine x2 y2 =>
        by_cases hx12 : x1 = x2
        · subst hx12
          by_cases hy : y2 = fneg c y1
          · rw [padd_opposite hf hy] at hx
            cases hx
          · rw [padd_of_x_eq hf hy] at hx
            exact pdbl_error h hw hp hx
        · rw [padd_of_ne hf hx12] at hx
          obtain hx | ⟨l, -, hx⟩ := bind_error_iff.mp hx
          · exact .inl (fdiv_error_of_ne_zero (fsub_ne_zero h hp.1 hq.1 hx12) hx)
          · cases hx

theorem paddChk_error (hw : CurveWf c e) {p q : Point} (hp : CanonPoint c p) (hq : CanonPoint c q)
    (hx : paddChk c e p q = .error x) : PointError c e x := by
  obtain hx | ⟨r, -, hx⟩ := bind_error_iff.mp hx
  · exact padd_error h hw hp hq hx
  · exact .inr (.inl (chk_error hx))

theorem pdblChk_error (hw : CurveWf c e) {p : Point} (hp : CanonPoint c p) (hx : pdblChk c e p = .error x) :
    PointError c e x := by
  obtain hx | ⟨r, -, hx⟩ := bind_error_iff.mp hx
  · exact pdbl_error h hw hp hx
  · exact .inr (.inl (chk_error hx))

theorem addBit_canonPoint (hw : CurveWf c e) {b : Bool} {r a r' : Point} (hr : CanonPoint c r) (ha : CanonPoint c a)
    (hx : addBit c e b r a = .ok r') : CanonPoint c r' := by
  unfold addBit at hx
  split at hx
  · exact (pointWf_paddChk h hw hr ha hx).1
  · cases hx
    exact hr

theorem addBit_error (hw : CurveWf c e) {b : Bool} {r a : Point} (hr : CanonPoint c r) (ha : CanonPoint c a)
    (hx : addBit c e b r a = .error x) : PointError c e x := by
  unfold addBit at hx
  split at hx
  · exact paddChk_error h hw hr ha hx
  · cases hx

theorem smulDaLoop_error (hw : CurveWf c e) : ∀ n k a r, CanonPoint c a → CanonPoint c r →
    smulDaLoop c e n k a r = .error x → PointError c e x := by
  intro n
  induction n with
  | zero => exact fun _ _ _ _ _ hx => nomatch hx
  | succ n ih =>
    intro k a r ha hr hx
    obtain hx | ⟨r', hr', hx⟩ := bind_error_iff.mp hx
    · exact addBit_error h hw hr ha hx
    · split at hx
      · cases hx
      · obtain hx | ⟨a', ha', hx⟩ := bind_error_iff.mp hx
        · exact pdblChk_error h hw ha hx
        · exact ih _ a' r' (pointWf_pdblChk h hw ha ha').1 (addBit_canonPoint h hw hr ha hr') hx

theorem smulDa_error (hw : CurveWf c e) {p : Point} {k : Nat} (hp : CanonPoint c p)
    (hx : smulDa c e p k = .error x) : PointError c e x := by
  unfold smulDa at hx
  split at hx
  · cases hx
  · exact smulDaLoop_error h hw _ _ _ _ hp (canonPoint_ident h) hx

theorem smulMlLoop_error (hw : CurveWf c e) (k : Nat) : ∀ n r0 r1, CanonPoint c r0 → CanonPoint c r1 →
    smulMlLoop c e k n r0 r1 = .error x → PointError c e x := by
  intro n
  induction n with
  | zero => exact fun _ _ _ _ hx => nomatch hx
  | succ n ih =>
    intro r0 r1 h0 h1 hx
    obtain hx | ⟨sum, hs, hx⟩ := bind_error_iff.mp hx
    · exact paddChk_error h hw h0 h1 hx
    · have hsum := (pointWf_paddChk h hw h0 h1 hs).1
      split at hx
      · obtain hx | ⟨d, hd, hx⟩ := bind_error_iff.mp hx
        · exact pdblChk_error h hw h1 hx
        · exact ih sum d hsum (pointWf_pdblChk h hw h1 hd).1 hx
      · obtain hx | ⟨d, hd, hx⟩ := bind_error_iff.mp hx
        · exact pdblChk_error h hw h0 hx
        · exact ih d sum (pointWf_pdblChk h hw h0 hd).1 hsum hx

theorem smulMl_error (hw : CurveWf c e) {p : Point} {k : Nat} (hp : CanonPoint c p)
    (hx : smulMl c e p k = .error x) : PointError c e x :=
  smulMlLoop_error h hw k _ _ _ (canonPoint_ident h) hp hx

theorem smul_error (hw : CurveWf c e) {p : Point} {k : Nat} (hp : CanonPoint c p) (hx : smul c e p k = .error x) :
    PointError c e x := by
  by_cases hf : e.form = .montgomery
  · rw [smul_montgomery hf] at hx
    exact smulMl_error h hw hp hx
  · rw [smul_of_ne_montgomery hf] at hx
    exact smulDa_error h hw hp hx

end

end

/-! ### The errors of the reads (10_state.md R36–R38) -/

section
variable {s : State} {x : Err}

theorem needField_error (hx : needField s = .error x) : x = .notConfigured := by
  unfold needField at hx
  split at hx <;> cases hx
  rfl

theorem needCurve_error (hx : needCurve s = .error x) : x = .notConfigured := by
  unfold needCurve at hx
  split at hx <;> cases hx
  rfl

theorem srcF_error {r : FIdx} {nc : Bool} (hx : srcF s r nc = .error x) :
    x = .unwritten ∨ x = .typeMismatch ∨ (nc = true ∧ x = .nonCanonical) := by
  unfold srcF at hx
  split at hx
  · cases hx; exact .inl rfl
  · cases hx; exact .inr (.inl rfl)
  · split at hx
    · rename_i hc
      cases hx
      exact .inr (.inr ⟨(Bool.and_eq_true_iff.mp hc).1, rfl⟩)
    · cases hx

theorem srcP_error {r : PIdx} (hx : srcP s r = .error x) : x = .unwritten ∨ x = .curveMismatch := by
  unfold srcP at hx
  split at hx <;> cases hx
  · exact .inl rfl
  · exact .inr rfl

theorem srcK_error {r : KIdx} (hx : srcK s r = .error x) : x = .unwritten := by
  unfold srcK at hx
  split at hx <;> cases hx
  rfl

end

end Sys2Proof.Machine
end

section
/-! The error matrix, command by command: each reads its operands, computes, and updates the state, with one ending
whatever the error latch holds. -/

namespace Sys2Proof.Machine

open Sys2Proof.Stated

variable {s : State} {i : Instr}

/-! ### Endings that do not depend on the error latch -/

/-- The error is of the command's row of the matrix, or the one error more of the model (60_exceptions.md R261,
notes/assumptions/13). -/
def Allowed (s : State) (i : Instr) (x : Err) : Prop :=
  x.code.toNat ∈ errorCodes i ∨ (x.code.toNat = 6 ∧ addsPoints i ∧ CompositeMontgomery s)

/-- The outcomes `o`, one for each content of the error latch, all end without an error, or all with one error that the
command may raise. -/
def EndsAlike (s : State) (i : Instr) (o : Bool → BitVec 4 → BusWord → Except Err State) : Prop :=
  (∀ err code cmd, ∃ u, o err code cmd = .ok u ∧ Succeeds (withLatch s err code cmd) u.complete)
    ∨ ∃ x, Allowed s i x ∧ ∀ err code cmd, o err code cmd = .error x

theorem EndsAlike.ok {u : Bool → BitVec 4 → BusWord → State}
    (hu : ∀ err code cmd, Succeeds (withLatch s err code cmd) (u err code cmd).complete) :
    EndsAlike s i fun err code cmd => .ok (u err code cmd) :=
  .inl fun err code cmd => ⟨_, rfl, hu err code cmd⟩

theorem EndsAlike.error {x : Err} (hx : Allowed s i x) : EndsAlike s i fun _ _ _ => .error x :=
  .inr ⟨x, hx, fun _ _ _ => rfl⟩

/-- A computation that does not read the latch has one answer. -/
theorem EndsAlike.bind {α : Type} (o : Except Err α) {g : Bool → BitVec 4 → BusWord → α → Except Err State}
    (hx : ∀ x, o = .error x → Allowed s i x)
    (hg : ∀ a, o = .ok a → EndsAlike s i fun err code cmd => g err code cmd a) :
    EndsAlike s i fun err code cmd => o >>= g err code cmd := by
  cases o with
  | ok a => exact hg a rfl
  | error x => exact .error (hx x rfl)

theorem EndsAlike.ite {p : Prop} [Decidable p] {o o' : Bool → BitVec 4 → BusWord → Except Err State}
    (h : p → EndsAlike s i o) (h' : ¬p → EndsAlike s i o') :
    EndsAlike s i fun err code cmd => if p then o err code cmd else o' err code cmd := by
  by_cases hp : p
  · simpa only [if_pos hp] using h hp
  · simpa only [if_neg hp] using h' hp

/-- The command ends alike whatever the error latch holds. -/
def RowHolds (s : State) (i : Instr) : Prop :=
  ∃ o, (∀ err code cmd, exec i (withLatch s err code cmd) = finish (withLatch s err code cmd) (o err code cmd))
    ∧ EndsAlike s i o

/-! ### The reads and the updates -/

section
variable {g : Bool → BitVec 4 → BusWord → Unit → Except Err State}

theorem EndsAlike.needField
    (hg : s.field.valid = true → EndsAlike s i fun err code cmd => g err code cmd ())
    (hsub : 11 ∈ errorCodes i := by simp [errorCodes]) :
    EndsAlike s i fun err code cmd => needField (withLatch s err code cmd) >>= g err code cmd :=
  .bind (Machine.needField s) (fun _ hx => by rw [needField_error hx]; exact .inl hsub)
    fun _ hu => hg (needField_ok_iff.mp hu)

theorem EndsAlike.needCurve
    (hg : s.curve.valid = true → EndsAlike s i fun err code cmd => g err code cmd ())
    (hsub : 11 ∈ errorCodes i := by simp [errorCodes]) :
    EndsAlike s i fun err code cmd => needCurve (withLatch s err code cmd) >>= g err code cmd :=
  .bind (Machine.needCurve s) (fun _ hx => by rw [needCurve_error hx]; exact .inl hsub)
    fun _ hu => hg (needCurve_ok_iff.mp hu)

end

section
variable {g : Bool → BitVec 4 → BusWord → Nat → Except Err State}

theorem EndsAlike.srcF_canon {r : FIdx}
    (hg : ∀ v, HoldsCanon s r v → EndsAlike s i fun err code cmd => g err code cmd v)
    (hsub : [9, 4, 10] ⊆ errorCodes i := by simp [errorCodes]) :
    EndsAlike s i fun err code cmd => srcF (withLatch s err code cmd) r true >>= g err code cmd := by
  refine .bind (srcF s r true) (fun x hx => .inl (hsub ?_)) fun v hv => hg v ⟨(srcF_ok hv).1, (srcF_ok hv).2 rfl⟩
  obtain rfl | rfl | ⟨-, rfl⟩ := srcF_error hx <;> decide

theorem EndsAlike.srcF_any {r : FIdx}
    (hg : ∀ v, EndsAlike s i fun err code cmd => g err code cmd v)
    (hsub : [9, 4] ⊆ errorCodes i := by simp [errorCodes]) :
    EndsAlike s i fun err code cmd => srcF (withLatch s err code cmd) r false >>= g err code cmd := by
  refine .bind (srcF s r false) (fun x hx => .inl (hsub ?_)) fun v _ => hg v
  obtain rfl | rfl | ⟨h, -⟩ := srcF_error hx
  · decide
  · decide
  · cases h

theorem EndsAlike.srcK {r : KIdx}
    (hg : ∀ v, EndsAlike s i fun err code cmd => g err code cmd v)
    (hsub : 9 ∈ errorCodes i := by simp [errorCodes]) :
    EndsAlike s i fun err code cmd => srcK (withLatch s err code cmd) r >>= g err code cmd :=
  .bind (Machine.srcK s r) (fun _ hx => by rw [srcK_error hx]; exact .inl hsub) fun v _ => hg v

end

theorem EndsAlike.srcP {g : Bool → BitVec 4 → BusWord → Point → Except Err State} {r : PIdx}
    (hg : ∀ pt, HoldsP s r pt → EndsAlike s i fun err code cmd => g err code cmd pt)
    (hsub : [9, 5] ⊆ errorCodes i := by simp [errorCodes]) :
    EndsAlike s i fun err code cmd => srcP (withLatch s err code cmd) r >>= g err code cmd := by
  refine .bind (Machine.srcP s r) (fun x hx => .inl (hsub ?_)) fun pt hpt => hg pt (srcP_ok hpt)
  obtain rfl | rfl := srcP_error hx <;> decide

theorem endsAlike_putF (rd : FIdx) (v : Nat) :
    EndsAlike s i fun err code cmd => .ok ((withLatch s err code cmd).putF rd v) :=
  .ok fun _ _ _ => (writesF_putF _ rd v).succeeds

theorem endsAlike_putP (rd : PIdx) (pt : Point) :
    EndsAlike s i fun err code cmd => .ok ((withLatch s err code cmd).putP rd pt) :=
  .ok fun _ _ _ => (writesP_putP _ rd pt).succeeds

theorem endsAlike_putK (rd : KIdx) (v : Nat) :
    EndsAlike s i fun err code cmd => .ok ((withLatch s err code cmd).putK rd v) :=
  .ok fun _ _ _ => (writesK_putK _ rd v).succeeds

theorem endsAlike_setZ (b : Bool) : EndsAlike s i fun err code cmd => .ok ((withLatch s err code cmd).setZ b) :=
  .ok fun _ _ _ => succeeds_of_status rfl rfl rfl ⟨rfl, rfl, rfl, rfl, rfl, rfl, rfl, rfl, rfl⟩

theorem endsAlike_setONC (b : Bool) : EndsAlike s i fun err code cmd => .ok ((withLatch s err code cmd).setONC b) :=
  .ok fun _ _ _ => succeeds_of_status rfl rfl rfl ⟨rfl, rfl, rfl, rfl, rfl, rfl, rfl, rfl, rfl⟩

theorem endsAlike_putRoot (rd : FIdx) (r : Option Nat) :
    EndsAlike s i fun err code cmd => .ok ((withLatch s err code cmd).putRoot rd r) := by
  cases r <;> exact .ok fun _ _ _ => succeeds_of_status rfl rfl rfl ⟨rfl, rfl, rfl, rfl, rfl, rfl, rfl, rfl, rfl⟩

/-! ### The shapes of the commands -/

theorem binaryF_rowHolds {op : FieldCfg → Nat → Nat → Except Err Nat} {rd rs1 rs2 : FIdx}
    (hexec : ∀ t, exec i t = binaryF op rd rs1 rs2 t)
    (hop : ∀ a b x, op s.field a b = .error x → x.code.toNat ∈ errorCodes i)
    (hsub : [11, 9, 4, 10] ⊆ errorCodes i := by simp [errorCodes]) : RowHolds s i :=
  ⟨_, fun _ _ _ => hexec _, .needField (hsub := hsub (by decide)) fun _ =>
    .srcF_canon (hsub := fun _ h => hsub (.tail _ h)) fun a _ =>
    .srcF_canon (hsub := fun _ h => hsub (.tail _ h)) fun b _ =>
    .bind (op s.field a b) (fun x hx => .inl (hop a b x hx)) fun r _ => endsAlike_putF rd r⟩

theorem unaryF_canon_rowHolds {op : FieldCfg → Nat → Except Err Nat} {rd rs1 : FIdx}
    (hexec : ∀ t, exec i t = unaryF op true rd rs1 t)
    (hop : ∀ a x, op s.field a = .error x → x.code.toNat ∈ errorCodes i)
    (hsub : [11, 9, 4, 10] ⊆ errorCodes i := by simp [errorCodes]) : RowHolds s i :=
  ⟨_, fun _ _ _ => hexec _, .needField (hsub := hsub (by decide)) fun _ =>
    .srcF_canon (hsub := fun _ h => hsub (.tail _ h)) fun a _ =>
    .bind (op s.field a) (fun x hx => .inl (hop a x hx)) fun r _ => endsAlike_putF rd r⟩

theorem unaryF_any_rowHolds {op : FieldCfg → Nat → Except Err Nat} {rd rs1 : FIdx}
    (hexec : ∀ t, exec i t = unaryF op false rd rs1 t)
    (hop : ∀ a x, op s.field a = .error x → x.code.toNat ∈ errorCodes i)
    (hsub : [11, 9, 4] ⊆ errorCodes i := by simp [errorCodes]) : RowHolds s i :=
  ⟨_, fun _ _ _ => hexec _, .needField (hsub := hsub (by decide)) fun _ =>
    .srcF_any (hsub := fun _ h => hsub (.tail _ h)) fun a =>
    .bind (op s.field a) (fun x hx => .inl (hop a x hx)) fun r _ => endsAlike_putF rd r⟩

section
variable (hI : Inv s)
include hI

theorem unaryP_rowHolds {op : FieldCfg → CurveCfg → Point → Except Err Point} {rd rs1 : PIdx}
    (hexec : ∀ t, exec i t = unaryP op rd rs1 t)
    (hop : ∀ a x, FieldWf s.field → CurveWf s.field s.curve → PointWf s.field s.curve a →
      op s.field s.curve a = .error x → Allowed s i x)
    (hsub : [11, 9, 5] ⊆ errorCodes i := by simp [errorCodes]) : RowHolds s i :=
  ⟨_, fun _ _ _ => hexec _, .needCurve (hsub := hsub (by decide)) fun hv =>
    .srcP (hsub := fun _ h => hsub (.tail _ h)) fun a ha =>
    .bind (op s.field s.curve a)
      (fun x hx => hop a x (hI.fieldWf_of_curve hv) (hI.curveWf hv) (hI.pointWf ha) hx) fun r _ => endsAlike_putP rd r⟩

theorem scalarMul_rowHolds {op : FieldCfg → CurveCfg → Point → Nat → Except Err Point} {rd rs1 : PIdx} {rs2 : KIdx}
    (hexec : ∀ t, exec i t = scalarMul op rd rs1 rs2 t)
    (hop : ∀ a k x, FieldWf s.field → CurveWf s.field s.curve → PointWf s.field s.curve a →
      op s.field s.curve a k = .error x → Allowed s i x)
    (hsub : [11, 9, 5] ⊆ errorCodes i := by simp [errorCodes]) : RowHolds s i :=
  ⟨_, fun _ _ _ => hexec _, .needCurve (hsub := hsub (by decide)) fun hv =>
    .srcP (hsub := fun _ h => hsub (.tail _ h)) fun a ha => .srcK (hsub := hsub (by decide)) fun k =>
    .bind (op s.field s.curve a k)
      (fun x hx => hop a k x (hI.fieldWf_of_curve hv) (hI.curveWf hv) (hI.pointWf ha) hx)
      fun r _ => endsAlike_putP rd r⟩

end

theorem getCoord_rowHolds {sel : Nat → Nat → Nat} {rd : FIdx} {rs1 : PIdx}
    (hexec : ∀ t, exec i t = getCoord sel rd rs1 t) (h13 : 13 ∈ errorCodes i := by simp [errorCodes])
    (hsub : [11, 9, 5] ⊆ errorCodes i := by simp [errorCodes]) : RowHolds s i := by
  refine ⟨_, fun _ _ _ => hexec _, .needCurve (hsub := hsub (by decide)) fun _ =>
    .srcP (hsub := fun _ h => hsub (.tail _ h)) fun pt _ => ?_⟩
  cases pt with
  | infinity => exact .error (.inl h13)
  | affine x y => exact endsAlike_putF rd _

/-! ### All commands -/

theorem errorCodes_of_addsPoints (h : addsPoints i) : errorCodes i = [11, 9, 5, 12, 3] := by
  obtain ⟨_, _, _, rfl⟩ | ⟨_, _, rfl⟩ | ⟨_, _, _, rfl | rfl | rfl⟩ := h <;> rfl

theorem allowed_of_pointError (h : addsPoints i) {x : Err} (hx : PointError s.field s.curve x) : Allowed s i x := by
  obtain rfl | rfl | ⟨rfl, hcomposite⟩ := hx
  · exact .inl (by rw [errorCodes_of_addsPoints h]; decide)
  · exact .inl (by rw [errorCodes_of_addsPoints h]; decide)
  · exact .inr ⟨rfl, h, hcomposite⟩

theorem cfgf_rowHolds : RowHolds s .cfgf := by
  refine ⟨_, fun _ _ _ => exec_cfgf _, ?_⟩
  have hcommit : ∀ c, EndsAlike s .cfgf fun err code cmd => .ok ((withLatch s err code cmd).commitField c) :=
    fun c => .ok fun _ _ _ => (commitField_complete _ c).1
  have hrefuse : EndsAlike s .cfgf fun _ _ _ => .error .invalidParameter := .error (.inl (by decide))
  have hs : ∀ err code cmd, (withLatch s err code cmd).staging = s.staging := fun _ _ _ => rfl
  have hd : ∀ err code cmd, (withLatch s err code cmd).mrDraw = s.mrDraw := fun _ _ _ => rfl
  simp only [cfgfOutcome, hs, hd]
  cases s.staging.fkind with
  | prime => exact .ite (fun _ => hcommit _) fun _ => hrefuse
  | binary => exact .ite (fun _ => hcommit _) fun _ => hrefuse

theorem cfgcSecond_endsAlike {form : CurveForm} {rs1 rs2 : FIdx}
    {g : Bool → BitVec 4 → BusWord → Nat → Except Err State}
    (hg : ∀ v, EndsAlike s (.cfgc form rs1 rs2) fun err code cmd => g err code cmd v) :
    EndsAlike s (.cfgc form rs1 rs2)
      fun err code cmd => cfgcSecond (withLatch s err code cmd) form rs2 >>= g err code cmd := by
  cases form with
  | edwards => exact hg 0
  | weierstrass | montgomery => exact .srcF_canon fun v _ => hg v

theorem cfgc_rowHolds (form : CurveForm) (rs1 rs2 : FIdx) : RowHolds s (.cfgc form rs1 rs2) :=
  ⟨_, fun _ _ _ => exec_cfgc form rs1 rs2 _, .needField fun _ =>
    .srcF_canon fun c1 _ => cfgcSecond_endsAlike fun c2 =>
    .ite (p := form ≠ .weierstrass ∧ s.field.kind = .binary)
      (fun _ => .error (.inl (by simp [errorCodes, Err.code]))) fun _ =>
    .ite (p := curveOk s.field form c1 c2 = true) (fun _ => .ok fun _ _ _ => (commitCurve_complete _ _).1) fun _ =>
    .error (.inl (by simp [errorCodes, Err.code]))⟩

theorem rowHolds (hI : Inv s) (i : Instr) : RowHolds s i := by
  cases i with
  | nop => exact ⟨_, fun _ _ _ => exec_nop _, .ok fun _ _ _ => (writesNoRegister_of rfl rfl rfl rfl).succeeds⟩
  | cfgf => exact cfgf_rowHolds
  | cfgc form rs1 rs2 => exact cfgc_rowHolds form rs1 rs2
  | fadd => exact binaryF_rowHolds (exec_fadd _ _ _) fun _ _ _ hx => nomatch hx
  | fsub => exact binaryF_rowHolds (exec_fsub _ _ _) fun _ _ _ hx => nomatch hx
  | fmul => exact binaryF_rowHolds (exec_fmul _ _ _) fun _ _ _ hx => nomatch hx
  | fdiv =>
    refine binaryF_rowHolds (exec_fdiv _ _ _) fun _ _ _ hx => ?_
    obtain rfl | rfl := fdiv_error hx <;> simp [errorCodes, Err.code]
  | mmul =>
    refine binaryF_rowHolds (exec_mmul _ _ _) fun _ _ _ hx => ?_
    simp [primeOnly_error hx, errorCodes, Err.code]
  | finv =>
    refine unaryF_canon_rowHolds (exec_finv _ _) fun _ _ hx => ?_
    obtain rfl | rfl := finv_error hx <;> simp [errorCodes, Err.code]
  | fneg => exact unaryF_canon_rowHolds (exec_fneg _ _) fun _ _ hx => nomatch hx
  | mtom =>
    refine unaryF_canon_rowHolds (exec_mtom _ _) fun _ _ hx => ?_
    simp [primeOnly_error hx, errorCodes, Err.code]
  | mfrom =>
    refine unaryF_canon_rowHolds (exec_mfrom _ _) fun _ _ hx => ?_
    simp [primeOnly_error hx, errorCodes, Err.code]
  | fmov => exact unaryF_any_rowHolds (exec_fmov _ _) fun _ _ hx => nomatch hx
  | fred => exact unaryF_any_rowHolds (exec_fred _ _) fun _ _ hx => nomatch hx
  | fpow rd rs1 rs2 neg =>
    refine ⟨_, fun _ _ _ => rfl, .needField fun _ => .srcF_canon fun a _ => .srcK fun k =>
      .bind (fpow s.field a k neg) (fun x hx => .inl ?_) fun r _ => endsAlike_putF rd r⟩
    obtain rfl | rfl := fpow_error hx <;> simp [errorCodes, Err.code]
  | fsqrt rd rs1 =>
    refine ⟨_, fun _ _ _ => rfl, .needField fun _ => .srcF_canon fun a _ =>
      .bind (fsqrt s.field a) (fun x hx => .inl ?_) fun r _ => endsAlike_putRoot rd r⟩
    simp [fsqrt_error hx, errorCodes, Err.code]
  | fldi rd imm =>
    exact ⟨_, fun _ _ _ => rfl, .needField fun _ => endsAlike_putF rd (fnorm s.field (immValue imm))⟩
  | fcmp rs1 rs2 =>
    exact ⟨_, fun _ _ _ => rfl, .needField fun _ => .srcF_canon fun a _ => .srcF_canon fun b _ =>
      endsAlike_setZ _⟩
  | pset rd rs1 rs2 =>
    refine ⟨_, fun _ _ _ => rfl, .needCurve fun _ => .srcF_canon fun x _ => .srcF_canon fun y _ =>
      .bind (chk s.field s.curve (.affine x y)) (fun _ hx => .inl ?_)
      fun pt _ => endsAlike_putP rd pt⟩
    simp [chk_error hx, errorCodes, Err.code]
  | pinf rd =>
    refine ⟨_, fun _ _ _ => rfl, .needCurve fun hv =>
      .bind (chk s.field s.curve (ident s.curve)) (fun _ hx => ?_) fun pt _ => endsAlike_putP rd pt⟩
    rw [chk_of_onCurve (onCurve_ident (hI.fieldWf_of_curve hv) (hI.curveWf hv))] at hx
    cases hx
  | pgetx => exact getCoord_rowHolds (exec_pgetx _ _)
  | pgety => exact getCoord_rowHolds (exec_pgety _ _)
  | pmov =>
    refine unaryP_rowHolds hI (exec_pmov _ _) fun _ _ _ _ ha hx => ?_
    rw [chk_of_onCurve ha.2] at hx
    cases hx
  | pneg =>
    refine unaryP_rowHolds hI (exec_pneg _ _) fun _ _ h hw ha hx => ?_
    rw [chk_of_onCurve (onCurve_pneg h hw ha.2)] at hx
    cases hx
  | padd rd rs1 rs2 =>
    exact ⟨_, fun _ _ _ => rfl, .needCurve fun hv => .srcP fun a ha => .srcP fun b hb =>
      .bind (paddChk s.field s.curve a b)
        (fun x hx => allowed_of_pointError (.inl ⟨_, _, _, rfl⟩)
          (paddChk_error (hI.fieldWf_of_curve hv) (hI.curveWf hv) (hI.pointWf ha).1 (hI.pointWf hb).1 hx))
        fun r _ => endsAlike_putP rd r⟩
  | pdbl =>
    exact unaryP_rowHolds hI (exec_pdbl _ _) fun _ _ h hw ha hx =>
      allowed_of_pointError (.inr (.inl ⟨_, _, rfl⟩)) (pdblChk_error h hw ha.1 hx)
  | ponc rs1 =>
    exact ⟨_, fun _ _ _ => rfl, .needCurve fun _ => .srcP fun pt _ => endsAlike_setONC (onCurve s.field s.curve pt)⟩
  | pisinf rs1 =>
    exact ⟨_, fun _ _ _ => rfl, .needCurve fun _ => .srcP fun pt _ => endsAlike_setZ (isId s.curve pt)⟩
  | psmul =>
    exact scalarMul_rowHolds hI (exec_psmul _ _ _) fun _ _ _ h hw ha hx =>
      allowed_of_pointError (.inr (.inr ⟨_, _, _, .inl rfl⟩)) (smul_error h hw ha.1 hx)
  | psmulda =>
    exact scalarMul_rowHolds hI (exec_psmulda _ _ _) fun _ _ _ h hw ha hx =>
      allowed_of_pointError (.inr (.inr ⟨_, _, _, .inr (.inl rfl)⟩)) (smulDa_error h hw ha.1 hx)
  | psmulml =>
    exact scalarMul_rowHolds hI (exec_psmulml _ _ _) fun _ _ _ h hw ha hx =>
      allowed_of_pointError (.inr (.inr ⟨_, _, _, .inr (.inr rfl)⟩)) (smulMl_error h hw ha.1 hx)
  | kldi rd imm => exact ⟨_, fun _ _ _ => exec_kldi rd imm _, endsAlike_putK rd _⟩
  | kfromf rd rs1 =>
    exact ⟨_, fun _ _ _ => rfl, .needField fun _ => .srcF_any fun v => endsAlike_putK rd v⟩
  | ffromk rd rs1 =>
    exact ⟨_, fun _ _ _ => rfl, .needField fun _ => .srcK fun v => endsAlike_putF rd (fnorm s.field v)⟩

/-- Settles O55, by the one ending of each command (`rowHolds`). -/
theorem errorMatrix : Obligations.ErrorMatrix := by
  intro s i hI
  obtain ⟨o, hexec, hok | ⟨x, hx, herr⟩⟩ := rowHolds hI i
  · refine .inl fun err code cmd => ?_
    obtain ⟨u, hu, hs⟩ := hok err code cmd
    exact ⟨_, by rw [hexec, hu, finish_ok], hs⟩
  · refine .inr ⟨x.code.toNat, hx, fun err code cmd => ?_⟩
    exact ⟨_, by rw [hexec, herr, finish_error], raises_raiseError _ x⟩

end Sys2Proof.Machine
end

section
/-! The scalars 0 and 1 under both loops, and the commands of the scalar registers. -/

namespace Sys2Proof.Machine

open Sys2Proof.Stated

/-! ### The identity in the loops (44_scalar.md R240, R241) -/

section
variable {c : FieldCfg} {e : CurveCfg} {p : Point}

theorem smulDa_zero (p : Point) : smulDa c e p 0 = .ok (ident e) := rfl

section
variable (h : FieldWf c) (hw : CurveWf c e)
include h hw

/-- Over every field the sum of the identity and a point of the curve is that point, and passes its check. -/
theorem paddChk_ident_left (hpt : PointWf c e p) : paddChk c e (ident e) p = .ok p := by
  have hsum : padd c e (ident e) p = .ok p := by
    by_cases hf : e.form = .edwards
    · exact padd_ident_left (hw.primeForm (by simp [hf])) h hpt
    · rw [ident_of_ne_edwards hf, padd_infinity_left hf]
  rw [paddChk_eq, hsum, ok_bind, chk_of_onCurve hpt.2]

theorem pdblChk_ident : pdblChk c e (ident e) = .ok (ident e) := by
  have hid := pointWf_ident h hw
  by_cases hf : e.form = .edwards
  · rw [pdblChk_eq, pdbl_edwards hf, ← paddChk_eq, paddChk_ident_left h hw hid]
  · rw [ident_of_ne_edwards hf] at hid ⊢
    rw [pdblChk_eq, pdbl_infinity hf, ok_bind, chk_of_onCurve hid.2]

theorem smulDa_one (hpt : PointWf c e p) : smulDa c e p 1 = .ok p := by
  rw [smulDa]
  split
  case isTrue hid =>
    obtain rfl : p = ident e := by simpa [isId] using hid
    rfl
  case isFalse => simp [smulDaLoop, addBit, paddChk_ident_left h hw hpt]

/-- The bit positions above the scalar leave the ladder at the identity and the point. -/
theorem smulMlLoop_leading_zeros (hpt : PointWf c e p) {k i : Nat} (hk : k < 2 ^ i) : ∀ n,
    smulMlLoop c e k (i + n) (ident e) p = smulMlLoop c e k i (ident e) p := by
  intro n
  induction n with
  | zero => rfl
  | succ n ih =>
    have hbit : k.testBit (i + n) = false :=
      Nat.testBit_lt_two_pow (hk.trans_le (Nat.pow_le_pow_right two_pos (Nat.le_add_right i n)))
    rw [← Nat.add_assoc, smulMlLoop, paddChk_ident_left h hw hpt, ok_bind, hbit, if_neg Bool.false_ne_true,
      pdblChk_ident h hw, ok_bind, ih]

theorem smulMl_zero (hpt : PointWf c e p) : smulMl c e p 0 = .ok (ident e) := by
  have hloop := smulMlLoop_leading_zeros h hw hpt (i := 0) one_pos Config.nbits
  rwa [Nat.zero_add] at hloop

/-- The last pass of the ladder at the scalar 1 doubles the point, and keeps only the error of that double. -/
theorem smulMl_one (hpt : PointWf c e p) : smulMl c e p 1 = pdblChk c e p >>= fun _ => .ok p := by
  have hlast : smulMl c e p 1 = smulMlLoop c e 1 1 (ident e) p :=
    smulMlLoop_leading_zeros h hw hpt one_lt_two (Config.nbits - 1)
  rw [hlast, smulMlLoop, paddChk_ident_left h hw hpt]
  rfl

theorem smul_scalar_zero (hpt : PointWf c e p) : smul c e p 0 = .ok (ident e) := by
  by_cases hf : e.form = .montgomery
  · rw [smul_montgomery hf, smulMl_zero h hw hpt]
  · rw [smul_of_ne_montgomery hf, smulDa_zero]

/-- Over a prime field with a prime modulus the double of the ladder's last pass never raises. -/
theorem smulMl_one_of_prime (hc : TruePrime c) (hpt : PointWf c e p) : smulMl c e p 1 = .ok p := by
  obtain ⟨hk, hp⟩ := hc
  obtain ⟨q, hq, -⟩ := (addsAs_pointWf hk h hw hp).pdblChk (P := ⟨⟩) hpt
  rw [smulMl_one h hw hpt, hq, ok_bind]

theorem smul_scalar_one_of_prime (hc : TruePrime c) (hpt : PointWf c e p) : smul c e p 1 = .ok p := by
  by_cases hf : e.form = .montgomery
  · rw [smul_montgomery hf, smulMl_one_of_prime h hw hc hpt]
  · rw [smul_of_ne_montgomery hf, smulDa_one h hw hpt]

end
end

/-- Settles O50: the two loops at the scalars 0 and 1, under the command that takes each. -/
theorem zeroAndOneScalars : Obligations.ZeroAndOneScalars := by
  intro s rd rs1 rs2 pt hI hv hp
  have h := hI.fieldWf_of_curve hv
  have hw := hI.curveWf hv
  have hpt := hI.pointWf hp
  refine ⟨fun hk i hi => ?_, fun hk => ?_⟩
  · simp only [List.mem_cons, List.not_mem_nil, or_false] at hi
    obtain rfl | rfl | rfl := hi
    · exact (exec_psmul_holds hv hp hk).1 _ (smul_scalar_zero h hw hpt)
    · exact (exec_psmulda_holds hv hp hk).1 _ (smulDa_zero pt)
    · exact (exec_psmulml_holds hv hp hk).1 _ (smulMl_zero h hw hpt)
  · have hda := smulDa_one h hw hpt
    have hml := smulMl_one h hw hpt
    obtain ⟨hok, herr⟩ := exec_psmulml_holds (rd := rd) hv hp hk
    refine ⟨(exec_psmulda_holds hv hp hk).1 _ hda, fun hf => ?_, fun hc i hi => ?_, fun q hq => ?_, fun x hx => ?_⟩
    · exact (exec_psmul_holds hv hp hk).1 _ ((smul_of_ne_montgomery hf pt 1).trans hda)
    · simp only [List.mem_cons, List.not_mem_nil, or_false] at hi
      obtain rfl | rfl := hi
      · exact (exec_psmul_holds hv hp hk).1 _ (smul_scalar_one_of_prime h hw hc hpt)
      · exact hok _ (smulMl_one_of_prime h hw hc hpt)
    · rw [checked_pdbl] at hq
      exact hok _ (by rw [hml, hq, ok_bind])
    · rw [checked_pdbl] at hx
      exact herr _ (by rw [hml, hx, error_bind])

/-! ### KLDI, KFROMF and FFROMK (44_scalar.md R246–R248) -/

section
variable {s : State} {v : Nat}

theorem exec_kfromf_holds {kd : KIdx} {fs : FIdx} (hv : s.field.valid = true) (ha : HoldsF s fs v) :
    ∃ t, exec (.kfromf kd fs) s = .next t ∧ WritesK s t kd v := by
  refine ⟨_, ?_, writesK_putK s kd v⟩
  show execKfromf kd fs s = _
  rw [execKfromf, needField_valid hv, srcF_holds ha]
  rfl

theorem exec_ffromk_holds {fd : FIdx} {kn : KIdx} (hv : s.field.valid = true) (ha : HoldsK s kn v) :
    ∃ t, exec (.ffromk fd kn) s = .next t ∧ WritesF s t fd (fnorm s.field v) := by
  refine ⟨_, ?_, writesF_putF s fd (fnorm s.field v)⟩
  show execFfromk fd kn s = _
  rw [execFfromk, needField_valid hv, srcK_holds ha]
  rfl

end

/-- Settles O51: each command writes the answer of its read, and FFROMK the `fnorm` of its kind of field. -/
theorem scalarRegisterResults : Obligations.ScalarRegisterResults := by
  intro s kd kn fd fs imm v
  refine ⟨⟨_, exec_kldi kd imm s, writesK_putK s kd imm.toNat⟩, exec_kfromf_holds, fun hv ha hk => ?_,
    fun hv ha hk => ?_⟩
  · simpa only [fnorm, hk] using exec_ffromk_holds (fd := fd) hv ha
  · simpa only [fnorm, hk] using exec_ffromk_holds (fd := fd) hv ha

end Sys2Proof.Machine
end

section
/-! The interrupt line, from the words that the port shows, and the configuration a command needs, which it asks
before any operand (60_exceptions.md R261, R264, R265). -/

namespace Sys2Proof.Machine

open Sys2Proof.Stated

variable {s : State} {i : Instr}

/-! ### The interrupt line -/

/-- The events of the interrupt line stand in bits 1 to 3 of STATUS (10_state.md R46). -/
theorem busRead_status_events (s : State) :
    (busRead s 0x00C).getLsbD 1 = s.status.done ∧ (busRead s 0x00C).getLsbD 2 = s.status.err
      ∧ (busRead s 0x00C).getLsbD 3 = s.status.ovf := by
  rw [show busRead s 0x00C = s.status.word from rfl, statusWord_eq_bitsWord]
  exact ⟨getLsbD_bitsWord _ (by decide), getLsbD_bitsWord _ (by decide), getLsbD_bitsWord _ (by decide)⟩

/-- Their enables stand in bits 0 to 2 of IRQEN (10_state.md R49). -/
theorem busRead_irqen_enables (s : State) :
    (busRead s 0x010).getLsbD 0 = s.irqen.doneie ∧ (busRead s 0x010).getLsbD 1 = s.irqen.errie
      ∧ (busRead s 0x010).getLsbD 2 = s.irqen.ovfie := by
  rw [show busRead s 0x010 = s.irqen.word from rfl, irqenWord_eq_bitsWord]
  exact ⟨getLsbD_bitsWord _ (by decide), getLsbD_bitsWord _ (by decide), getLsbD_bitsWord _ (by decide)⟩

/-- Settles O19: each bit that the host reads is the bit the line is made of. -/
theorem irqLine : Obligations.IrqLine := by
  intro s
  obtain ⟨hdone, herr, hovf⟩ := busRead_status_events s
  obtain ⟨hdoneie, herrie, hovfie⟩ := busRead_irqen_enables s
  rw [hdone, herr, hovf, hdoneie, herrie, hovfie, State.irq]

/-! ### The configuration comes first -/

/-- A command that needs a committed field asks for it before anything else. -/
theorem exec_of_needsField (h : needsField i = true) (s : State) :
    ∃ g, exec i s = finish s (needField s >>= g) := by
  cases i with
  | cfgc | fadd | fsub | fmul | fdiv | finv | fneg | fpow | fsqrt | fmov | fred | fldi | fcmp | mmul | mtom | mfrom
  | kfromf | ffromk => exact ⟨_, rfl⟩
  | _ => cases h

/-- A command that needs a committed curve asks for it before anything else. -/
theorem exec_of_needsCurve (h : needsCurve i = true) (s : State) :
    ∃ g, exec i s = finish s (needCurve s >>= g) := by
  cases i with
  | pset | pinf | pgetx | pgety | pmov | pneg | padd | pdbl | ponc | pisinf | psmul | psmulda | psmulml =>
    exact ⟨_, rfl⟩
  | _ => cases h

theorem not_configured_iff :
    ¬Configured s i ↔ (needsField i = true ∧ s.field.valid = false) ∨ (needsCurve i = true ∧ s.curve.valid = false) := by
  simp only [Configured, Classical.not_and_iff_not_or_not, Classical.not_imp, Bool.not_eq_true]

theorem exec_of_not_configured (h : ¬Configured s i) : exec i s = .next (s.raiseError .notConfigured) := by
  obtain ⟨hn, hv⟩ | ⟨hn, hv⟩ := not_configured_iff.mp h
  · obtain ⟨g, hg⟩ := exec_of_needsField hn s
    rw [hg, needField_invalid hv, error_bind, finish_error]
  · obtain ⟨g, hg⟩ := exec_of_needsCurve hn s
    rw [hg, needCurve_invalid hv, error_bind, finish_error]

/-- Settles O52: the first thing asked is the configuration (`exec_of_not_configured`). -/
theorem notConfiguredComesFirst : Obligations.NotConfiguredComesFirst := by
  intro s i h
  exact ⟨_, exec_of_not_configured h, raises_raiseError s .notConfigured⟩

end Sys2Proof.Machine
end

section
/-! Reset (70_reset_and_hazards.md): the soft reset through CTRL and the hardware reset, from every state. -/

namespace Sys2Proof.Machine

/-- CTRL is written also while BUSY = 1 (20_memory.md R80): a write of 1 to SRST is a reset. -/
theorem busWrite_ctrl_of_srst (s : State) {data : BusWord} (h : data.getLsbD 0 = true) :
    busWrite s 0x004 data = s.resetBlock := by
  rw [busWrite_of_not_drops rfl, slotAt_ctrl, writeSlot, if_pos h]

theorem busWrite_ctrl_of_not_srst (s : State) {data : BusWord} (h : data.getLsbD 0 = false) :
    busWrite s 0x004 data = s := by
  rw [busWrite_of_not_drops rfl, slotAt_ctrl, writeSlot, if_neg (Bool.eq_false_iff.mp h)]

/-- A reset has cleared the answer of the port already. -/
theorem resetBlock_readData (s : State) : { s.resetBlock with readData := none } = s.resetBlock := rfl

theorem step_hwReset {s : State} {rest : List Turn} (h : s.schedule = .hwReset :: rest) :
    step s = .next { s with schedule := rest }.resetBlock := by
  rw [step_turn h, takeTurn]

/-- Settles O21: both resets are `State.resetBlock`, whatever the state. -/
theorem resetFromAnyState : Obligations.ResetFromAnyState := by
  intro s data
  refine ⟨fun h => ?_, fun h => ?_, ?_⟩
  · rw [step_withAccess_write s rfl, busWrite_ctrl_of_srst s h, resetBlock_readData, State.resetBlock]
  · rw [step_withAccess_write s rfl, busWrite_ctrl_of_not_srst s h]
  · rw [step_hwReset rfl, State.resetBlock]

end Sys2Proof.Machine
end
